-- ==== Sys2Proof/Word.lean ====
section
/-!
DEFINITION. The data types the whole model speaks in: bytes, 32-bit words, and the numbers of the
error-diffusion working buffer. Nothing here computes a result a test could show wrong; the
arithmetic on `WbNum` is in Machine/Arith.lean.
-/

namespace Sys2Proof

/-- One sample, one level entry, one byte of raster memory (00_scope.md section 6, 20_memory.md R26). -/
abbrev Byte := BitVec 8

/-- One register word or command word (10_state.md R7, 30_encoding.md R38). -/
abbrev Word := BitVec 32

/-- A number of the working buffer (43_error_diffusion.md R61).
`fin neg mag scale` is the exact value `(-1)^neg * mag / 2^scale`; `fin true 0 0` is the IEEE
negative zero. Every finite IEEE datum and every number that `EXACT` can reach from bytes and the
weights `w/16` has this form; `inf` and `nan` are the IEEE data that byte inputs never produce. -/
inductive WbNum where
  | fin (neg : Bool) (mag : Nat) (scale : Nat)
  | inf (neg : Bool)
  | nan
  deriving DecidableEq, Repr

end Sys2Proof
end

