-- ==== Sys2Proof/Config.lean ====
section
/-!
DEFINITION. The parameter record of 00_scope.md section 4 (R2) and the one free value of the model.
`REG_BASE` and `MEM_ADMIT` have no value in the spec; every statement of this package quantifies over
the whole record, which the machine's state carries and no step changes.
-/

namespace Sys2Proof.Config

/-- `BLUR_BORDER` (41_blur.md R53, decision D17). -/
inductive Border where
  | replicate
  | reflect101
  | reflect
  deriving DecidableEq, Repr

/-- The three integer conversions (00_scope.md R3, decision D18). -/
inductive Rounding where
  | floor
  | halfUp
  | halfEven
  deriving DecidableEq, Repr

/-- `ED_ARITH` (43_error_diffusion.md R61, decision D20). -/
inductive EdArith where
  | binary64
  | binary32
  | exact
  deriving DecidableEq, Repr

/-- The parameters of an instantiation (00_scope.md section 4, R2).
`memAdmit` is the predicate `MEM_ADMIT` written as plain data: the backed addresses as a list of
intervals (first address, number of bytes). Every set of addresses below `2^32` is such a list. -/
structure Params where
  regBase    : Nat
  memAdmit   : List (Nat × Nat)
  blurBorder : Border
  blurRound  : Rounding
  odRound    : Rounding
  kuwRound   : Rounding
  edArith    : EdArith
  deriving DecidableEq, Repr

/-- `ADDR_W` = 32: raster addresses are `0` to `2^32 - 1` (20_memory.md R22, decision D5). -/
abbrev addressSpace : Nat := 2 ^ 32

/-- `LEVELS_MAX` (10_state.md R16, decision D15). -/
abbrev levelsMax : Nat := 16

/-- `C_LEGAL`, the legal channel counts of a source raster (10_state.md R13, decision D6). -/
abbrev legalChannels : List Nat := [1, 3]

/-- Every parameter with a default at its default (00_scope.md section 4).
DESIGN CHOICE (log entry 1): the two OPEN ones, `REG_BASE` and `MEM_ADMIT`, stand at address 0 and at
'every raster address is backed'. Only `State.reset` uses this record. -/
def Params.default : Params where
  regBase    := 0
  memAdmit   := [(0, addressSpace)]
  blurBorder := .replicate
  blurRound  := .halfEven
  odRound    := .halfEven
  kuwRound   := .halfEven
  edArith    := .binary64

/-- The free byte of draw number `n` ("any value": 20_memory.md R29, R35; 70_reset_and_hazards.md R97;
the sample of an unbacked source byte: log entry 25).
No body: nothing can evaluate it. `State.draws` counts the draws made (log entry 4). -/
opaque freeByte : Nat → Byte

end Sys2Proof.Config
end

