-- ==== Sys2Proof/Syntax.lean ====
section
/-!
DEFINITION. The commands of command set CS1: one constructor per row of spec/opcode_table.json.
-/

namespace Sys2Proof

/-- A command (30_encoding.md R39). `k` is the kernel size, the unsigned value of the K field (R42);
the other operands of every command are registers (R46). -/
inductive Instr where
  | quant
  | blur (k : Nat)
  | odither2x2
  | odither4x4
  | eddither
  | kuwahara (k : Nat)
  deriving DecidableEq, Repr

end Sys2Proof
end

