-- ==== Sys2Proof/WellFormed.lean ====
section
/-!
DEFINITION. Which commands and which parameter records the formats can express. A command with an
illegal but encodable kernel size (`BLUR 2`, `KUWAHARA 1`) is well formed: it reaches START and is
rejected there (30_encoding.md R47, 60_exceptions.md R80).
-/

namespace Sys2Proof

/-- The kernel size fits the 8-bit K field (30_encoding.md R42; R47: the assembler refuses a `k` above 255). -/
def Instr.wf : Instr → Bool
  | .quant | .odither2x2 | .odither4x4 | .eddither => true
  | .blur k | .kuwahara k => decide (k < 256)

/-- Every interval of backed addresses lies in the raster address space (20_memory.md R22, R31). -/
def Config.Params.wf (p : Config.Params) : Bool :=
  p.memAdmit.all fun r => decide (r.1 + r.2 ≤ Config.addressSpace)

end Sys2Proof
end

