-- ==== Sys2Proof/Decode.lean ====
section
/-!
DEFINITION. From a 32-bit command word to a command or a named refusal (30_encoding.md R38 to R45), and
after it the encoder, written from the same field table.
-/

namespace Sys2Proof

/-- Why a word decodes to `Invalid` (30_encoding.md R40, R41, R43, R44). -/
inductive DecodeError where
  /-- a 1 in bits 31:24, 15:10 or 7:4 (R43) -/
  | reservedBits
  /-- OP is 0x0 or 0x6 to 0xF (R40) -/
  | reservedOp
  /-- OP is ODITHER and VAR is 2 or 3 (R41) -/
  | reservedVariant
  /-- a field the operation does not use is not 0 (R44) -/
  | unusedField
  deriving DecidableEq, Repr

/-- OP, bits 3:0 (30_encoding.md R38). -/
def opField (w : Word) : Nat := (w.extractLsb' 0 4).toNat

/-- VAR, bits 9:8 (30_encoding.md R38, R41). -/
def varField (w : Word) : Nat := (w.extractLsb' 8 2).toNat

/-- K, bits 23:16, unsigned, as it stands (30_encoding.md R42). -/
def kField (w : Word) : Nat := (w.extractLsb' 16 8).toNat

/-- The three reserved fields are 0 (30_encoding.md R43). -/
def reservedZero (w : Word) : Bool :=
  w.extractLsb' 24 8 == 0#8 && w.extractLsb' 10 6 == 0#6 && w.extractLsb' 4 4 == 0#4

/-- `Decode` of 30_encoding.md R45, with the reason of each `Invalid`. -/
def decode (w : Word) : Except DecodeError Instr :=
  if !reservedZero w then .error .reservedBits else
  match opField w with
  | 0x1 => if varField w = 0 ∧ kField w = 0 then .ok .quant else .error .unusedField
  | 0x2 => if varField w = 0 then .ok (.blur (kField w)) else .error .unusedField
  | 0x3 =>
    if kField w ≠ 0 then .error .unusedField
    else if varField w = 0 then .ok .odither2x2
    else if varField w = 1 then .ok .odither4x4
    else .error .reservedVariant
  | 0x4 => if varField w = 0 ∧ kField w = 0 then .ok .eddither else .error .unusedField
  | 0x5 => if varField w = 0 then .ok (.kuwahara (kField w)) else .error .unusedField
  | _ => .error .reservedOp

/-- `Decode` as the START rule uses it: `none` is `Invalid` (60_exceptions.md R80). -/
def decode? (w : Word) : Option Instr :=
  match decode w with
  | .ok i => some i
  | .error _ => none

/-- The bit pattern of 30_encoding.md R38, the reserved fields 0: `{0, K, 0, VAR, 0, OP}`. -/
def commandWord (op : BitVec 4) (var : BitVec 2) (k : BitVec 8) : Word :=
  0#8 ++ k ++ 0#6 ++ var ++ 0#4 ++ op

/-- The word of a command (30_encoding.md R39, R41, R42, R47). -/
def encode : Instr → Word
  | .quant => commandWord 0x1 0 0
  | .blur k => commandWord 0x2 0 (BitVec.ofNat 8 k)
  | .odither2x2 => commandWord 0x3 0 0
  | .odither4x4 => commandWord 0x3 1 0
  | .eddither => commandWord 0x4 0 0
  | .kuwahara k => commandWord 0x5 0 (BitVec.ofNat 8 k)

/-- The command the decoder reads from a word numbered as spec/opcode_table.json numbers it. Every
command is one 32-bit word (30_encoding.md R38), so a wider one is no command. -/
def decodeTableWord (nbits w : Nat) : Option Instr :=
  if nbits ≤ 32 ∧ w < 2 ^ 32 then decode? (BitVec.ofNat 32 w) else none

end Sys2Proof
end

