-- ==== Sys2Proof/Machine/HostProgram.lean ====
section
/-!
DEFINITION. The host agent's side as data: the registers by name, the statements of a host program, the
text of a command and the pseudo-instructions (30_encoding.md R47 to R49), and the slots of the register
window (10_state.md R7).
-/

namespace Sys2Proof.Machine

/-- The named registers of the window (10_state.md section 3). -/
inductive Reg where
  | ctrl
  | status
  | cmd
  | width
  | height
  | channels
  | srcBase
  | dstBase
  | levelCount
  | level (i : Fin 16)
  deriving DecidableEq, Repr

/-- One statement of a host program (30_encoding.md R48). A label is a number; `bit` is the index of
`t[i]`. `busWrite` and `busRead` are the host accesses at any bus address and width, of which `wr` and
`rd` are the admitted ones at a named register (20_memory.md R27). -/
inductive HostStmt where
  | wr (r : Reg) (v : Word)
  | rd (r : Reg)
  | sb (a : BitVec 32) (v : Byte)
  | lb (a : BitVec 32)
  | label (l : Nat)
  | bnz (bit : Nat) (l : Nat)
  | busWrite (addr width : Nat) (v : Word)
  | busRead (addr width : Nat)
  deriving DecidableEq, Repr

/-- The text of a command; `none` is the bare mnemonic (30_encoding.md R47). -/
inductive CmdText where
  | quant
  | blur (k : Option Nat)
  | odither2x2
  | odither4x4
  | eddither
  | kuwahara (k : Option Nat)
  deriving DecidableEq, Repr

/-- The command a text stands for; `BLUR` and `KUWAHARA` alone mean `k = 3` (30_encoding.md R47). -/
def CmdText.instr : CmdText → Instr
  | .quant => .quant
  | .blur k => .blur (k.getD 3)
  | .odither2x2 => .odither2x2
  | .odither4x4 => .odither4x4
  | .eddither => .eddither
  | .kuwahara k => .kuwahara (k.getD 3)

/-- `word(CMDTEXT)`: the assembler refuses a `k` above 255 and assembles any other (30_encoding.md R47). -/
def assemble (t : CmdText) : Option Word :=
  if t.instr.wf then some (encode t.instr) else none

/-! ## The register window -/

/-- The offset of a register (10_state.md section 3, R8 to R17). -/
def Reg.offset : Reg → Nat
  | .ctrl => 0x00
  | .status => 0x04
  | .cmd => 0x08
  | .width => 0x0C
  | .height => 0x10
  | .channels => 0x14
  | .srcBase => 0x18
  | .dstBase => 0x1C
  | .levelCount => 0x20
  | .level i => 0x40 + 4 * i.val

/-- The named register at a word offset; `none` is a reserved slot (10_state.md R7). -/
def regAt (offset : Nat) : Option Reg :=
  if offset = 0x00 then some .ctrl
  else if offset = 0x04 then some .status
  else if offset = 0x08 then some .cmd
  else if offset = 0x0C then some .width
  else if offset = 0x10 then some .height
  else if offset = 0x14 then some .channels
  else if offset = 0x18 then some .srcBase
  else if offset = 0x1C then some .dstBase
  else if offset = 0x20 then some .levelCount
  else if 0x40 ≤ offset ∧ offset < 0x80 ∧ offset % 4 = 0 then some (.level (Fin.ofNat 16 ((offset - 0x40) / 4)))
  else none

/-! ## Pseudo-instructions (30_encoding.md R49) -/

/-- `poll`, with its own label `p`. -/
def pollStmts (p : Nat) : List HostStmt := [.label p, .rd .status, .bnz 0 p]

/-- `start CMDTEXT`; `none` where the assembler refuses the text. -/
def startStmts (t : CmdText) : Option (List HostStmt) :=
  (assemble t).map fun w => [.wr .cmd w, .wr .ctrl 1]

/-- `run CMDTEXT`, with the label of its `poll`. -/
def runStmts (t : CmdText) (p : Nat) : Option (List HostStmt) :=
  (startStmts t).map (· ++ pollStmts p)

/-- `image W, H, C, S, D`. -/
def imageStmts (w h c src dst : Word) : List HostStmt :=
  [.wr .width w, .wr .height h, .wr .channels c, .wr .srcBase src, .wr .dstBase dst]

/-- `levels a0, ..., a(m-1)`, for `1 ≤ m ≤ 16`. -/
def levelsStmts (as : List Word) : Option (List HostStmt) :=
  if 1 ≤ as.length ∧ as.length ≤ 16 then
    some (as.mapIdx (fun i a => .wr (.level (Fin.ofNat 16 i)) a) ++ [.wr .levelCount (BitVec.ofNat 32 as.length)])
  else none

/-- The position of a label: the first statement that sets it (30_encoding.md R48). -/
def labelPos (prog : List HostStmt) (l : Nat) : Option Nat :=
  prog.findIdx? (· == .label l)

/-- A program of R48: every label is set at one place, every `bnz` names a set label and a bit of `t`. -/
def progWf (prog : List HostStmt) : Bool :=
  prog.all fun st =>
    match st with
    | .bnz b l => decide (b < 32) && (labelPos prog l).isSome
    | .label l => prog.count (.label l) == 1
    | _ => true

end Sys2Proof.Machine
end

