-- ==== Sys2Proof/Machine/State.lean ====
section
/-!
DEFINITION. The state of the machine as plain data, the reasons a step can stop, and the state after reset.
INVENTORY.md lists every field with the rule that names it.
-/

namespace Sys2Proof.Machine

/-- Raster memory: the bytes that differ from `Memory.fill`, by strictly rising address (20_memory.md R22). -/
abbrev Memory := List Host.Cell

/-- The engine phase (10_state.md R19). -/
inductive Phase where
  | idle
  | running
  deriving DecidableEq, Repr

/-- The hidden state of a running `EDDITHER` (10_state.md R20): the working buffer `WB[y][x][c]` in the
order of 20_memory.md R23, and the scan position, which is `(H, 0)` when every pixel has been visited. -/
structure Scan where
  wb : List WbNum
  y  : Nat
  x  : Nat
  deriving DecidableEq, Repr

/-- The host agent (30_encoding.md R48): its program, the position of its next statement, its variable `t`. -/
structure HostState where
  prog : List HostStmt
  pos  : Nat
  t    : Word
  deriving DecidableEq, Repr

/-- Who moves: the host issues its next statement; the engine completes the running command
(60_exceptions.md R86); the engine visits one pixel of a running `EDDITHER` (43_error_diffusion.md R63);
the block is reset (70_reset_and_hazards.md R96, R97). -/
inductive Turn where
  | host
  | engine
  | scan
  | reset
  deriving DecidableEq, Repr

/-- The state. Register fields have the width their rule gives them; every other bit of a register is
reserved and reads 0 (10_state.md R7). CTRL and STATUS.BUSY are not stored: CTRL reads 0 (R8) and BUSY
is the phase (R9). -/
structure State where
  /-- the parameters of this instantiation (00_scope.md R2); no step changes them -/
  cfg        : Config.Params
  /-- CMD (10_state.md R10) -/
  cmd        : Word
  /-- WIDTH bits 15:0 (R11) -/
  width      : BitVec 16
  /-- HEIGHT bits 15:0 (R12) -/
  height     : BitVec 16
  /-- CHANNELS bits 1:0 (R13) -/
  channels   : BitVec 2
  /-- SRC_BASE (R14) -/
  srcBase    : BitVec 32
  /-- DST_BASE (R15) -/
  dstBase    : BitVec 32
  /-- LEVEL_COUNT bits 4:0 (R16) -/
  levelCount : BitVec 5
  /-- LEVEL[0..15] bits 7:0 (R17) -/
  level      : Vector Byte 16
  /-- STATUS.DONE (R9) -/
  done       : Bool
  /-- STATUS.ERR (R9) -/
  err        : Bool
  /-- STATUS.ERRCODE (R9) -/
  errcode    : BitVec 4
  /-- the engine phase (R19) -/
  phase      : Phase
  /-- working buffer and scan position of a running `EDDITHER` (R20) -/
  scan       : Option Scan
  /-- raster memory (20_memory.md R22) -/
  mem        : Memory
  /-- the model's own: the host wrote a byte of the running command's regions (20_memory.md R35) -/
  raced      : Bool
  /-- the model's own: free bytes drawn so far (log entry 4) -/
  draws      : Nat
  /-- the host agent (30_encoding.md R48) -/
  host       : HostState
  /-- the model's own: which agent moves in the coming steps (log entry 3) -/
  agenda     : List Turn
  deriving DecidableEq, Repr

/-- The machine stops with a fault. -/
inductive Fault where
  /-- Raised by a host byte access (`sb`, `lb`) at a raster address that `MEM_ADMIT` does not back
  (20_memory.md R31). Safe: the machine stops where the platform would decide (log entry 14). -/
  | unbackedByte (addr : Nat)
  deriving DecidableEq, Repr

/-- The step has no meaning. -/
inductive Refusal where
  /-- An arm of `exec` whose instruction has no meaning yet; no arm is in this state. Safe. -/
  | notModelled (mnemonic : String)
  /-- Raised by a host register access that is not an aligned 32-bit one (20_memory.md R27: the model
  gives it no step). Safe. -/
  | accessNotAdmitted (addr width : Nat)
  /-- Raised by a host bus access outside the block's 256-byte window, which reaches some other device
  (20_memory.md R22). Safe (log entry 15). -/
  | outsideWindow (addr : Nat)
  /-- Raised by a taken `bnz` to a label its program does not set: no program of 30_encoding.md R48. Safe
  (log entry 18). -/
  | undefinedLabel (l : Nat)
  deriving DecidableEq, Repr

/-- The reset table of 70_reset_and_hazards.md R96, for any instantiation and any raster memory content
(which reset does not touch). The host has no program and `t` is 0 (log entry 5). -/
def State.resetWith (cfg : Config.Params) (mem : Memory) : State where
  cfg        := cfg
  cmd        := 0
  width      := 0
  height     := 0
  channels   := 3
  srcBase    := 0
  dstBase    := 0
  levelCount := 6
  level      := #v[0, 51, 102, 153, 204, 255, 0, 0, 0, 0, 0, 0, 0, 0, 0, 0]
  done       := false
  err        := false
  errcode    := 0
  phase      := .idle
  scan       := none
  mem        := mem
  raced      := false
  draws      := 0
  host       := { prog := [], pos := 0, t := 0 }
  agenda     := []

/-- The machine right after reset, at the default parameters and with nothing listed in raster memory. -/
def State.reset : State := State.resetWith Config.Params.default []

end Sys2Proof.Machine
end

