-- ==== Sys2Proof/Machine/Flags.lean ====
section
/-!
DEFINITION. STATUS, the block's only flags (10_state.md R9): how it reads, and the three updates that START
and completion make (60_exceptions.md R79, R86).
-/

namespace Sys2Proof.Machine

/-- STATUS.BUSY: 1 exactly while the phase is RUNNING (10_state.md R9, R19). -/
def State.busy (s : State) : Bool := s.phase == .running

/-- The STATUS word: ERRCODE in bits 7:4, ERR, DONE and BUSY in bits 2, 1 and 0 (10_state.md R9). -/
def statusWord (s : State) : Word :=
  0#24 ++ s.errcode ++ 0#1 ++ BitVec.ofBool s.err ++ BitVec.ofBool s.done ++ BitVec.ofBool s.busy

/-- The first line of `OnStart`: DONE, ERR and ERRCODE become 0 (60_exceptions.md R79). -/
def clearStatus (s : State) : State := { s with done := false, err := false, errcode := 0 }

/-- A rejected START: ERR and ERRCODE (60_exceptions.md R79). -/
def setError (code : BitVec 4) (s : State) : State := { s with err := true, errcode := code }

/-- Completion: the phase becomes IDLE, so BUSY 0, and DONE 1 (60_exceptions.md R86). -/
def setDone (s : State) : State := { s with phase := .idle, done := true }

end Sys2Proof.Machine
end

