-- ==== Sys2Proof/Machine/Arith.lean ====
section
/-!
DEFINITION. The arithmetic the operations share: `Round` (00_scope.md R3), `Border` (41_blur.md R53),
the strict first-minimum scan (40_quantize.md R50, 43_error_diffusion.md R64, 44_kuwahara.md R74) and
the working-buffer arithmetic `ED_ARITH` (43_error_diffusion.md R61).
-/

namespace Sys2Proof.Machine

/-- `Round(num, den, mode)` (00_scope.md R3), for `den > 0`. -/
def roundDiv (num den : Nat) : Config.Rounding → Nat
  | .floor => num / den
  | .halfUp => num / den + if den ≤ 2 * (num % den) then 1 else 0
  | .halfEven =>
    if den < 2 * (num % den) then num / den + 1
    else if 2 * (num % den) < den then num / den
    else num / den + num / den % 2

/-- `Border(i, n, mode)` (41_blur.md R53), for `n ≥ 1`; `mod` is the non-negative remainder. -/
def border (mode : Config.Border) (i : Int) (n : Nat) : Nat :=
  match mode with
  | .replicate => (min (max i 0) ((n : Int) - 1)).toNat
  | .reflect101 =>
    if n = 1 then 0
    else
      let p := 2 * (n : Int) - 2
      let j := i % p
      (if j < n then j else p - j).toNat
  | .reflect =>
    let p := 2 * (n : Int)
    let j := i % p
    (if j < n then j else p - 1 - j).toNat

/-- The first item with the least key, scanning in order with a strict comparison. -/
def firstMin {α β : Type} (lt : β → β → Bool) (key : α → β) (first : α) (rest : List α) : α :=
  rest.foldl (fun best x => if lt (key x) (key best) then x else best) first

end Sys2Proof.Machine

/-! ## Numbers of the working buffer -/

namespace Sys2Proof

open Machine

/-- `(-1)^neg * mag` as an integer. -/
def signedInt (neg : Bool) (mag : Nat) : Int := if neg then -(mag : Int) else mag

/-- The datum of value `(-1)^neg * mag / 2^scale` with the least scale, so that equal numbers are equal data. -/
def WbNum.reduce (neg : Bool) (mag : Nat) : Nat → WbNum
  | 0 => .fin neg mag 0
  | scale + 1 => if mag % 2 = 0 then WbNum.reduce neg (mag / 2) scale else .fin neg mag (scale + 1)

/-- An integer from 0 up, exact in every `WbNum` the block needs (43_error_diffusion.md R61, R62). -/
def WbNum.ofNat (n : Nat) : WbNum := .fin false n 0

/-- The weight `w/16` (43_error_diffusion.md R61, R67). -/
def WbNum.sixteenths (w : Nat) : WbNum := WbNum.reduce false w 4

/-- A binary format of IEEE 754: precision in bits, and the exponents `-minExp` of the least subnormal
and `maxExp` of the first power of two that is too large (43_error_diffusion.md R61: general knowledge). -/
structure Format where
  prec   : Nat
  minExp : Nat
  maxExp : Nat
  deriving DecidableEq, Repr

/-- The format that `ED_ARITH` rounds to; `EXACT` does not round. -/
def formatOf : Config.EdArith → Option Format
  | .binary64 => some { prec := 53, minExp := 1074, maxExp := 1024 }
  | .binary32 => some { prec := 24, minExp := 149, maxExp := 128 }
  | .exact => none

/-- How many low bits of `mag` lie below the last place of the format, for the value `mag / 2^scale`:
the last place is `2^(bits(mag) - prec - scale)`, but never below the least subnormal (gradual underflow). -/
def droppedBits (f : Format) (mag scale : Nat) : Nat :=
  max (Nat.log2 mag + 1 - f.prec) (scale - f.minExp)

/-- Round to nearest, ties to even, into a binary format; too large a magnitude gives an infinity. -/
def roundFinite (f : Format) (neg : Bool) (mag scale : Nat) : WbNum :=
  let d := droppedBits f mag scale
  let m := roundDiv mag (2 ^ d) .halfEven * 2 ^ d
  if 2 ^ f.maxExp * 2 ^ scale ≤ m then .inf neg else WbNum.reduce neg m scale

/-- The one rounding of every operation (43_error_diffusion.md R61, R68). -/
def WbNum.rounded (a : Config.EdArith) (neg : Bool) (mag scale : Nat) : WbNum :=
  match formatOf a with
  | some f => roundFinite f neg mag scale
  | none => WbNum.reduce neg mag scale

/-- The opposite number; the sign alone changes. -/
def WbNum.neg : WbNum → WbNum
  | .fin s m e => .fin (!s) m e
  | .inf s => .inf (!s)
  | .nan => .nan

/-- `abs` (43_error_diffusion.md R61): clears the sign. -/
def WbNum.abs : WbNum → WbNum
  | .fin _ m e => .fin false m e
  | .inf _ => .inf false
  | .nan => .nan

/-- The exact sum of two finite numbers, over the common scale `2^max`. -/
def exactSum (s₁ : Bool) (m₁ e₁ : Nat) (s₂ : Bool) (m₂ e₂ : Nat) : Int :=
  signedInt s₁ (m₁ * 2 ^ (max e₁ e₂ - e₁)) + signedInt s₂ (m₂ * 2 ^ (max e₁ e₂ - e₂))

/-- `⊕` (43_error_diffusion.md R61). An exact zero sum is negative only when both operands are. -/
def WbNum.add (a : Config.EdArith) : WbNum → WbNum → WbNum
  | .fin s₁ m₁ e₁, .fin s₂ m₂ e₂ =>
    let v := exactSum s₁ m₁ e₁ s₂ m₂ e₂
    WbNum.rounded a (if v = 0 then s₁ && s₂ else decide (v < 0)) v.natAbs (max e₁ e₂)
  | .nan, _ | _, .nan => .nan
  | .inf s₁, .inf s₂ => if s₁ = s₂ then .inf s₁ else .nan
  | .inf s, .fin .. | .fin .., .inf s => .inf s

/-- `⊖` (43_error_diffusion.md R61). -/
def WbNum.sub (a : Config.EdArith) (x y : WbNum) : WbNum := WbNum.add a x (WbNum.neg y)

/-- `⊗` (43_error_diffusion.md R61). -/
def WbNum.mul (a : Config.EdArith) : WbNum → WbNum → WbNum
  | .fin s₁ m₁ e₁, .fin s₂ m₂ e₂ => WbNum.rounded a (s₁ != s₂) (m₁ * m₂) (e₁ + e₂)
  | .nan, _ | _, .nan => .nan
  | .inf s₁, .inf s₂ => .inf (s₁ != s₂)
  | .inf s₁, .fin s₂ m _ | .fin s₂ m _, .inf s₁ => if m = 0 then .nan else .inf (s₁ != s₂)

/-- `<`, the IEEE ordered comparison (43_error_diffusion.md R61): the two zeros are equal, a NaN is less than nothing. -/
def WbNum.lt : WbNum → WbNum → Bool
  | .fin s₁ m₁ e₁, .fin s₂ m₂ e₂ => decide (exactSum s₁ m₁ e₁ (!s₂) m₂ e₂ < 0)
  | .nan, _ | _, .nan => false
  | .inf s₁, .inf s₂ => s₁ && !s₂
  | .inf s₁, .fin .. => s₁
  | .fin .., .inf s₂ => !s₂

end Sys2Proof
end

