-- ==== Sys2Proof/Machine/Operands.lean ====
section
/-!
DEFINITION. The operands of a command: raster memory read byte by byte, the geometry, the two raster access
primitives, the level sequence, the kernel size's legality and the two regions (20_memory.md R22 to R25,
30_encoding.md R46).
-/

namespace Sys2Proof.Machine

/-! ## Raster memory -/

/-- What an unlisted address reads as. DESIGN CHOICE (log entry 2): raster memory content before the
first write is the platform's (70_reset_and_hazards.md R96). -/
def Memory.fill : Byte := 0

/-- `MemRead(addr, 1)` (00_scope.md section 5). -/
def Memory.read : Memory → Nat → Byte
  | [], _ => Memory.fill
  | (b, v) :: rest, a => if b = a then v else Memory.read rest a

/-- `MEM_ADMIT(addr)` (20_memory.md R31). -/
def admits (p : Config.Params) (a : Nat) : Bool :=
  p.memAdmit.any fun r => decide (r.1 ≤ a) && decide (a < r.1 + r.2)

/-! ## Geometry and raster layout -/

/-- `W` (10_state.md R11). -/
def State.W (s : State) : Nat := s.width.toNat

/-- `H` (10_state.md R12). -/
def State.H (s : State) : Nat := s.height.toNat

/-- `C` (10_state.md R13). -/
def State.C (s : State) : Nat := s.channels.toNat

/-- `addr(base, y, x, c, Cn)` for rasters of `W` columns, exact (20_memory.md R23). -/
def rasterAddr (W base Cn y x c : Nat) : Nat := base + (y * W + x) * Cn + c

/-- The samples of a raster, rows top to bottom, pixels left to right, channels up (20_memory.md R23). -/
def sampleCoords (W H Cn : Nat) : List (Nat × Nat × Nat) :=
  (List.range H).flatMap fun y => (List.range W).flatMap fun x => (List.range Cn).map fun c => (y, x, c)

/-- `SRC(y, x, c)` as a number 0 to 255 (20_memory.md R24). -/
def State.src (s : State) (y x c : Nat) : Nat :=
  (s.mem.read (rasterAddr s.W s.srcBase.toNat s.C y x c)).toNat

/-- `C_out`: 1 for `EDDITHER`, `C` for every other operation (20_memory.md R24). -/
def destChannels (i : Instr) (s : State) : Nat :=
  match i with
  | .eddither => 1
  | .quant | .blur _ | .odither2x2 | .odither4x4 | .kuwahara _ => s.C

/-- The address that `DST(y, x, c) <- v` writes (20_memory.md R24). -/
def dstAddr (i : Instr) (s : State) (y x c : Nat) : Nat :=
  rasterAddr s.W s.dstBase.toNat (destChannels i s) y x c

/-! ## Levels and kernel size -/

/-- `NL` (10_state.md R16). -/
def State.NL (s : State) : Nat := s.levelCount.toNat

/-- The level sequence `L[0..NL-1]` in index order (10_state.md R17). -/
def levelSeq (s : State) : List Nat := (s.level.toList.take s.NL).map BitVec.toNat

/-- The operation reads the level table: `QUANT` and `EDDITHER` (10_state.md R16, 60_exceptions.md R80). -/
def usesLevels : Instr → Bool
  | .quant | .eddither => true
  | .blur _ | .odither2x2 | .odither4x4 | .kuwahara _ => false

/-- The kernel size is legal: odd for `BLUR` (41_blur.md R55), at least 2 for `KUWAHARA` (44_kuwahara.md R77). -/
def kernelLegal : Instr → Bool
  | .blur k => k % 2 == 1
  | .kuwahara k => decide (2 ≤ k)
  | .quant | .odither2x2 | .odither4x4 | .eddither => true

/-! ## Regions -/

/-- A byte range: its first address and its length (20_memory.md R25). -/
structure Region where
  base : Nat
  len  : Nat
  deriving DecidableEq, Repr

/-- The address lies in the range. -/
def Region.has (r : Region) (a : Nat) : Bool := decide (r.base ≤ a) && decide (a < r.base + r.len)

/-- The range runs past address `2^32 - 1` (20_memory.md R25). -/
def Region.pastEnd (r : Region) : Bool := decide (Config.addressSpace < r.base + r.len)

/-- The two ranges share a byte (20_memory.md R25). -/
def Region.meets (r q : Region) : Bool :=
  decide (max r.base q.base < min (r.base + r.len) (q.base + q.len))

/-- Every byte of the range is backed (20_memory.md R31). -/
def Region.admitted (p : Config.Params) (r : Region) : Bool :=
  (List.range r.len).all fun j => admits p (r.base + j)

/-- The source region of a command (20_memory.md R25). -/
def srcRegion (s : State) : Region := { base := s.srcBase.toNat, len := s.W * s.H * s.C }

/-- The destination region of a command (20_memory.md R25). -/
def dstRegion (i : Instr) (s : State) : Region :=
  { base := s.dstBase.toNat, len := s.W * s.H * destChannels i s }

/-- Every byte of both regions is backed (20_memory.md R31). -/
def regionsAdmitted (i : Instr) (s : State) : Bool :=
  (srcRegion s).admitted s.cfg && (dstRegion i s).admitted s.cfg

end Sys2Proof.Machine
end

