-- ==== Sys2Proof/Machine/Ops.lean ====
section
/-!
DEFINITION. The named operations over memory, registers and the command life cycle: byte writes, register
reads and writes, `Validate` and `OnStart` (the block's one error mechanism, 60_exceptions.md R79 to R85),
completion (R86) and reset (70_reset_and_hazards.md R96, R97).
-/

namespace Sys2Proof.Machine

/-! ## Raster memory writes -/

/-- `MemWrite(addr, 1, v)`, keeping the canonical form (00_scope.md section 5, 20_memory.md R28). -/
def Memory.write : Memory → Nat → Byte → Memory
  | [], a, v => if v = Memory.fill then [] else [(a, v)]
  | (b, u) :: rest, a, v =>
    if a < b then (if v = Memory.fill then (b, u) :: rest else (a, v) :: (b, u) :: rest)
    else if a = b then (if v = Memory.fill then rest else (a, v) :: rest)
    else (b, u) :: Memory.write rest a v

/-- The canonical form: addresses strictly rising, no entry equal to what an unlisted address reads as. -/
def Memory.wf : Memory → Bool
  | [] => true
  | [(_, v)] => v != Memory.fill
  | (a, v) :: (b, u) :: rest => v != Memory.fill && decide (a < b) && Memory.wf ((b, u) :: rest)

/-- A byte write where the platform backs the address; an unbacked address holds no byte (20_memory.md R31). -/
def storeByte (p : Config.Params) (m : Memory) (a : Nat) (v : Byte) : Memory :=
  if admits p a then m.write a v else m

/-- Every sample of a raster written once: `DST(y, x, c) <- value y x c` (20_memory.md R24, R29). -/
def storeRaster (p : Config.Params) (W H base Cn : Nat) (value : Nat → Nat → Nat → Byte) (m : Memory) : Memory :=
  (sampleCoords W H Cn).foldl
    (fun m q => storeByte p m (rasterAddr W base Cn q.1 q.2.1 q.2.2) (value q.1 q.2.1 q.2.2)) m

/-! ## Registers (10_state.md R7 to R17) -/

/-- The value a host read of a register returns; reserved bits read 0. -/
def readReg (r : Reg) (s : State) : Word :=
  match r with
  | .ctrl => 0
  | .status => statusWord s
  | .cmd => s.cmd
  | .width => s.width.setWidth 32
  | .height => s.height.setWidth 32
  | .channels => s.channels.setWidth 32
  | .srcBase => s.srcBase
  | .dstBase => s.dstBase
  | .levelCount => s.levelCount.setWidth 32
  | .level i => s.level[i].setWidth 32

/-- A host write that stores: reserved bits are dropped, STATUS is read-only, CTRL stores nothing (R8, R9). -/
def writeReg (r : Reg) (v : Word) (s : State) : State :=
  match r with
  | .ctrl | .status => s
  | .cmd => { s with cmd := v }
  | .width => { s with width := v.setWidth 16 }
  | .height => { s with height := v.setWidth 16 }
  | .channels => { s with channels := v.setWidth 2 }
  | .srcBase => { s with srcBase := v }
  | .dstBase => { s with dstBase := v }
  | .levelCount => { s with levelCount := v.setWidth 5 }
  | .level i => { s with level := s.level.set i.val (v.setWidth 8) i.isLt }

/-- A read of the word slot at an offset; a reserved slot reads 0 (R7). -/
def readSlot (offset : Nat) (s : State) : Word :=
  match regAt offset with
  | some r => readReg r s
  | none => 0

/-! ## START (60_exceptions.md section 1) -/

/-- The error codes of STATUS.ERRCODE (60_exceptions.md R83). -/
def invalidInput : BitVec 4 := 1

/-- The code of InvalidConfiguration (60_exceptions.md R83). -/
def invalidConfiguration : BitVec 4 := 2

/-- `Validate()`, its tests in their order; `op` is `Decode(REG[CMD])`, `none` for `Invalid` (60_exceptions.md R80). -/
def validate (op : Option Instr) (s : State) : BitVec 4 :=
  if s.W = 0 ∨ s.H = 0 then invalidInput
  else if ¬ s.C ∈ Config.legalChannels then invalidInput
  else if (srcRegion s).pastEnd then invalidInput
  else
    match op with
    | none => invalidConfiguration
    | some i =>
      if !kernelLegal i then invalidConfiguration
      else if usesLevels i ∧ (s.NL = 0 ∨ Config.levelsMax < s.NL) then invalidConfiguration
      else if (dstRegion i s).pastEnd then invalidConfiguration
      else if (srcRegion s).meets (dstRegion i s) then invalidConfiguration
      else 0

/-- The free byte for sample `(y, x, c)` of a raster of `Cn` channels whose bytes the spec gives no value: a
destination that holds any value (20_memory.md R35, 70_reset_and_hazards.md R97), an unbacked source (R31). -/
def freeSample (s : State) (Cn y x c : Nat) : Byte :=
  Config.freeByte (s.draws + ((y * s.W + x) * Cn + c))

/-- The source byte the engine loads for a sample; where the platform backs none, the spec states no value
(20_memory.md R31; DESIGN CHOICE: a free byte, log entry 25). -/
def loadSample (s : State) (y x c : Nat) : Byte :=
  if admits s.cfg (rasterAddr s.W s.srcBase.toNat s.C y x c) then
    s.mem.read (rasterAddr s.W s.srcBase.toNat s.C y x c)
  else freeSample s s.C y x c

/-- `WB` at the start of an `EDDITHER`: the source samples converted exactly, the scan at `(0, 0)`
(43_error_diffusion.md R62, R63). -/
def loadScan (s : State) : Scan where
  wb := (sampleCoords s.W s.H s.C).map fun q => WbNum.ofNat (loadSample s q.1 q.2.1 q.2.2).toNat
  y := 0
  x := 0

/-- The working buffer a command starts with: one for `EDDITHER`, whatever bytes are backed, and none otherwise
(10_state.md R20). -/
def startScan (i : Instr) (s : State) : Option Scan :=
  match i with
  | .eddither => some (loadScan s)
  | .quant | .blur _ | .odither2x2 | .odither4x4 | .kuwahara _ => none

/-- The free bytes a START draws: one for each source sample of an `EDDITHER` whose source is not backed whole. -/
def startDraws (i : Instr) (s : State) : Nat :=
  match i with
  | .eddither => if (srcRegion s).admitted s.cfg then 0 else (srcRegion s).len
  | .quant | .blur _ | .odither2x2 | .odither4x4 | .kuwahara _ => 0

/-- An accepted START: STATUS cleared, the phase RUNNING, the working buffer created (60_exceptions.md R79,
10_state.md R20). -/
def accept (i : Instr) (s : State) : State :=
  { clearStatus s with
    phase := .running, raced := false, scan := startScan i s, draws := s.draws + startDraws i s }

/-- A rejected START: STATUS cleared, then ERR and the code; nothing else (60_exceptions.md R79, R84). DEDUCED: DONE
is cleared too, as R79's procedure says (log entry 9). -/
def reject (code : BitVec 4) (s : State) : State := setError code (clearStatus s)

/-- `OnStart()` (60_exceptions.md R79), for the engine phase IDLE. -/
def onStart (op : Option Instr) (s : State) : State :=
  let code := validate op s
  if code ≠ 0 then reject code s
  else
    match op with
    | some i => accept i s
    | none => s

/-! ## Completion (60_exceptions.md R86) -/

/-- The destination raster written whole. -/
def storeDest (i : Instr) (value : Nat → Nat → Nat → Byte) (s : State) : State :=
  { s with mem := storeRaster s.cfg s.W s.H s.dstBase.toNat (destChannels i s) value s.mem }

/-- Every byte of the destination region becomes any value; the draws are counted. -/
def freeDest (i : Instr) (s : State) : State :=
  { storeDest i (freeSample s (destChannels i s)) s with draws := s.draws + (dstRegion i s).len }

/-- The end of a run: the working buffer is discarded, IDLE, DONE (60_exceptions.md R86). -/
def endRun (s : State) : State := setDone { s with scan := none, raced := false }

/-- The completion step of a running command whose rule gives `value`: stuck on unbacked bytes
(20_memory.md R31); any value after a race (R35); else the rule's values (60_exceptions.md R86). -/
def complete (i : Instr) (value : Nat → Nat → Nat → Byte) (s : State) : State :=
  if !regionsAdmitted i s then s
  else if s.raced then endRun (freeDest i s)
  else endRun (storeDest i value s)

/-- The life of a command in two transitions: its START while IDLE, its run to completion while RUNNING
(60_exceptions.md R79, R86; log entry 24). -/
def commandStep (i : Instr) (value : Nat → Nat → Nat → Byte) (s : State) :
    Host.Outcome State Fault Refusal :=
  match s.phase with
  | .idle => .next (onStart (some i) s)
  | .running => .next (complete i value s)

/-! ## Reset (70_reset_and_hazards.md section 1) -/

/-- The destination of a command that reset abandons holds any value (70_reset_and_hazards.md R97). -/
def abandonRun (s : State) : State :=
  match s.phase, decode? s.cmd with
  | .running, some i => freeDest i s
  | .running, none => s
  | .idle, _ => s

/-- A reset of the block: the reset table, raster memory not touched but for an abandoned destination; the
platform's parameters and the host agent are not the block's (70_reset_and_hazards.md R96, R97). -/
def resetBlock (s : State) : State :=
  let a := abandonRun s
  { State.resetWith s.cfg a.mem with draws := a.draws, host := s.host, agenda := s.agenda }

end Sys2Proof.Machine
end

