-- ==== Sys2Proof/Machine/Blur.lean ====
section
/-!
DEFINITION. `BLUR` (41_blur.md).
-/

namespace Sys2Proof.Machine

/-- The offsets `-h .. h` of an odd kernel size, `h = (k - 1) / 2` (41_blur.md R54). -/
def kernelOffsets (k : Nat) : List Int := (List.range k).map fun (j : Nat) => (j : Int) - ((k - 1) / 2 : Nat)

/-- The border-extended sum `s` of the neighbourhood centred on `(y, x)` (41_blur.md R54). -/
def blurSum (s : State) (k y x c : Nat) : Nat :=
  ((kernelOffsets k).map fun dy =>
    ((kernelOffsets k).map fun dx =>
      s.src (border s.cfg.blurBorder ((y : Int) + dy) s.H) (border s.cfg.blurBorder ((x : Int) + dx) s.W) c).sum).sum

/-- The sample `BLUR k` writes (41_blur.md R54). -/
def blurSample (s : State) (k y x c : Nat) : Byte :=
  BitVec.ofNat 8 (roundDiv (blurSum s k y x c) (k * k) s.cfg.blurRound)

/-- `BLUR k` (41_blur.md R54). -/
def execBlur (k : Nat) (s : State) : Host.Outcome State Fault Refusal :=
  commandStep (.blur k) (blurSample s k) s

end Sys2Proof.Machine
end

