-- ==== Sys2Proof/Machine/ErrorDiffusion.lean ====
section
/-!
DEFINITION. `EDDITHER` (43_error_diffusion.md): one visited pixel as a step on the working buffer, and the
command as the rest of the scan.
-/

namespace Sys2Proof.Machine

/-- The place of `WB[y][x][c]` in the buffer (10_state.md R20, in the order of 20_memory.md R23). -/
def wbIndex (s : State) (y x c : Nat) : Nat := (y * s.W + x) * s.C + c

/-- `WB[y][x][c]`. -/
def wbAt (s : State) (wb : List WbNum) (y x c : Nat) : WbNum := wb.getD (wbIndex s y x c) (WbNum.ofNat 0)

/-- The pixel vector `b = WB[y][x]`, `C` numbers (43_error_diffusion.md R64). -/
def pixelVector (s : State) (e : Scan) : List WbNum := (List.range s.C).map (wbAt s e.wb e.y e.x)

/-- `D(Lv, b)`, summed left to right (43_error_diffusion.md R64); a pixel vector is never empty. -/
def levelDistance (a : Config.EdArith) (b : List WbNum) (lv : Nat) : WbNum :=
  match b with
  | [] => WbNum.ofNat 0
  | b₀ :: rest =>
    rest.foldl (fun d v => WbNum.add a d (WbNum.abs (WbNum.sub a (WbNum.ofNat lv) v)))
      (WbNum.abs (WbNum.sub a (WbNum.ofNat lv) b₀))

/-- The selected level `q` (43_error_diffusion.md R64). START rejects the empty level sequence, for which
this function answers 0 (log entry 6). -/
def selectLevel (a : Config.EdArith) (b : List WbNum) : List Nat → Nat
  | [] => 0
  | l :: rest => firstMin WbNum.lt (levelDistance a b) l rest

/-- The error vector `e[c] = b[c] ⊖ q` (43_error_diffusion.md R66). -/
def errorVector (a : Config.EdArith) (b : List WbNum) (q : Nat) : List WbNum :=
  b.map fun v => WbNum.sub a v (WbNum.ofNat q)

/-- The four forward neighbours of `(y, x)` and their weights over 16 (43_error_diffusion.md R67). -/
def forwardNeighbours (y x : Nat) : List (Int × Int × Nat) :=
  [((y : Int), (x : Int) + 1, 7), ((y : Int) + 1, (x : Int) - 1, 3), ((y : Int) + 1, (x : Int), 5), ((y : Int) + 1, (x : Int) + 1, 1)]

/-- The target lies inside the raster (43_error_diffusion.md R67). -/
def insideRaster (s : State) (ty tx : Int) : Bool :=
  decide (0 ≤ ty) && decide (ty < s.H) && decide (0 ≤ tx) && decide (tx < s.W)

/-- `WB[ty][tx][c] <- WB[ty][tx][c] ⊕ (e[c] ⊗ w/16)` for every channel (43_error_diffusion.md R67). -/
def addShare (s : State) (err : List WbNum) (ty tx w : Nat) (wb : List WbNum) : List WbNum :=
  (List.range s.C).foldl
    (fun wb c =>
      wb.set (wbIndex s ty tx c)
        (WbNum.add s.cfg.edArith (wbAt s wb ty tx c)
          (WbNum.mul s.cfg.edArith (err.getD c (WbNum.ofNat 0)) (WbNum.sixteenths w))))
    wb

/-- The error propagated to the neighbours inside the raster (43_error_diffusion.md R67). -/
def diffuse (s : State) (err : List WbNum) (y x : Nat) (wb : List WbNum) : List WbNum :=
  (forwardNeighbours y x).foldl
    (fun wb t => if insideRaster s t.1 t.2.1 then addShare s err t.1.toNat t.2.1.toNat t.2.2 wb else wb) wb

/-- The level chosen at the scan position (43_error_diffusion.md R64). -/
def pixelLevel (s : State) (e : Scan) : Nat := selectLevel s.cfg.edArith (pixelVector s e) (levelSeq s)

/-- One visited pixel: the error diffused, the position advanced in raster order (43_error_diffusion.md R63, R66, R67). -/
def nextScan (s : State) (e : Scan) : Scan where
  wb := diffuse s (errorVector s.cfg.edArith (pixelVector s e) (pixelLevel s e)) e.y e.x e.wb
  y := if e.x + 1 < s.W then e.y else e.y + 1
  x := if e.x + 1 < s.W then e.x + 1 else 0

/-- Pixels visited so far, in raster order. -/
def visited (s : State) (e : Scan) : Nat := e.y * s.W + e.x

/-- The levels of the next `n` pixels of the scan, in raster order (43_error_diffusion.md R69). -/
def scanLevels (s : State) : Nat → Scan → List Nat
  | 0, _ => []
  | n + 1, e => pixelLevel s e :: scanLevels s n (nextScan s e)

/-- The destination sample of pixel `(y, x)` (43_error_diffusion.md R65): already written for a visited
pixel, the level of the rest of the scan for the others. -/
def edSample (s : State) (e : Scan) (y x c : Nat) : Byte :=
  let n := y * s.W + x
  if n < visited s e then s.mem.read (dstAddr .eddither s y x c)
  else BitVec.ofNat 8 ((scanLevels s (s.W * s.H - visited s e) e).getD (n - visited s e) 0)

/-- `EDDITHER` (43_error_diffusion.md R69). -/
def execEddither (s : State) : Host.Outcome State Fault Refusal :=
  commandStep .eddither (edSample s (s.scan.getD (loadScan s))) s

/-- The engine visits one pixel of a running `EDDITHER`: the output byte and the working buffer change,
nothing the host may read (43_error_diffusion.md R63 to R67, 20_memory.md R29). -/
def visitPixel (e : Scan) (s : State) : State :=
  { s with
    mem := storeByte s.cfg s.mem (dstAddr .eddither s e.y e.x 0) (BitVec.ofNat 8 (pixelLevel s e))
    scan := some (nextScan s e) }

end Sys2Proof.Machine
end

