-- ==== Sys2Proof/Machine/Kuwahara.lean ====
section
/-!
DEFINITION. `KUWAHARA` (44_kuwahara.md).
-/

namespace Sys2Proof.Machine

/-- The four candidate regions (44_kuwahara.md R72). -/
inductive Quadrant where
  | topLeft
  | topRight
  | bottomLeft
  | bottomRight
  deriving DecidableEq, Repr

/-- The first row of a region of pixel row `y` (44_kuwahara.md R72). -/
def quadrantRow (k y : Nat) : Quadrant → Int
  | .topLeft | .topRight => (y : Int) - k + 1
  | .bottomLeft | .bottomRight => y

/-- The first column of a region of pixel column `x` (44_kuwahara.md R72). -/
def quadrantCol (k x : Nat) : Quadrant → Int
  | .topLeft | .bottomLeft => (x : Int) - k + 1
  | .topRight | .bottomRight => x

/-- The `k * k` samples of channel `c` of a region, border-extended by replication (44_kuwahara.md R72). -/
def quadrantSamples (s : State) (k y x : Nat) (r : Quadrant) (c : Nat) : List Nat :=
  (List.range k).flatMap fun (i : Nat) => (List.range k).map fun (j : Nat) =>
    s.src (border .replicate (quadrantRow k y r + i) s.H) (border .replicate (quadrantCol k x r + j) s.W) c

/-- `S1[r][c]` (44_kuwahara.md R73). -/
def sum1 (s : State) (k y x : Nat) (r : Quadrant) (c : Nat) : Nat := (quadrantSamples s k y x r c).sum

/-- `S2[r][c]` (44_kuwahara.md R73). -/
def sum2 (s : State) (k y x : Nat) (r : Quadrant) (c : Nat) : Nat :=
  ((quadrantSamples s k y x r c).map fun v => v * v).sum

/-- `V[r]`, the exact variance key summed over the channels (44_kuwahara.md R73). -/
def varianceKey (s : State) (k y x : Nat) (r : Quadrant) : Int :=
  ((List.range s.C).map fun c =>
    ((k * k * sum2 s k y x r c : Nat) : Int) - ((sum1 s k y x r c * sum1 s k y x r c : Nat) : Int)).sum

/-- The chosen region: the first in evaluation order with the least key (44_kuwahara.md R74). -/
def bestQuadrant (s : State) (k y x : Nat) : Quadrant :=
  firstMin (fun a b => decide (a < b)) (varianceKey s k y x) .topLeft [.topRight, .bottomLeft, .bottomRight]

/-- The sample `KUWAHARA k` writes (44_kuwahara.md R75). -/
def kuwaharaSample (s : State) (k y x c : Nat) : Byte :=
  BitVec.ofNat 8 (roundDiv (sum1 s k y x (bestQuadrant s k y x) c) (k * k) s.cfg.kuwRound)

/-- `KUWAHARA k` (44_kuwahara.md R76). -/
def execKuwahara (k : Nat) (s : State) : Host.Outcome State Fault Refusal :=
  commandStep (.kuwahara k) (kuwaharaSample s k) s

end Sys2Proof.Machine
end

