-- ==== Sys2Proof/Machine/OrderedDither.lean ====
section
/-!
DEFINITION. `ODITHER.2X2` and `ODITHER.4X4` (42_ordered_dither.md).
-/

namespace Sys2Proof.Machine

/-- `N2`, numerators over 16, row-major (42_ordered_dither.md R57). -/
def matrix2 : List (List Nat) := [[0, 8], [12, 4]]

/-- `N4`, numerators over 16, row-major (42_ordered_dither.md R57). -/
def matrix4 : List (List Nat) := [[0, 8, 2, 10], [12, 4, 14, 6], [3, 11, 1, 9], [15, 7, 13, 5]]

/-- `N[y mod n][x mod n]`, `n` the matrix size (42_ordered_dither.md R57). -/
def threshold (m : List (List Nat)) (y x : Nat) : Nat :=
  (m.getD (y % m.length) []).getD (x % m.length) 0

/-- The sample `ODITHER` writes (42_ordered_dither.md R58). -/
def ditherSample (s : State) (m : List (List Nat)) (y x c : Nat) : Byte :=
  BitVec.ofNat 8 (min 255 (roundDiv (16 * s.src y x c + 255 * threshold m y x) 16 s.cfg.odRound))

/-- `ODITHER.2X2` (42_ordered_dither.md R58). -/
def execOdither2x2 (s : State) : Host.Outcome State Fault Refusal :=
  commandStep .odither2x2 (ditherSample s matrix2) s

/-- `ODITHER.4X4` (42_ordered_dither.md R58). -/
def execOdither4x4 (s : State) : Host.Outcome State Fault Refusal :=
  commandStep .odither4x4 (ditherSample s matrix4) s

end Sys2Proof.Machine
end

