-- ==== Sys2Proof/Machine/Quantize.lean ====
section
/-!
DEFINITION. `QUANT` (40_quantize.md).
-/

namespace Sys2Proof.Machine

/-- `|a - b|` of two samples or levels. -/
def absDiff (a b : Nat) : Nat := ((a : Int) - b).natAbs

/-- `Nearest(v, L, NL)` (40_quantize.md R50) for a non-empty level sequence. START rejects the empty one,
where the rule has no value and this function answers 0 (log entry 6). -/
def nearest (v : Nat) : List Nat → Nat
  | [] => 0
  | l :: rest => firstMin (fun a b => decide (a < b)) (fun lv => absDiff lv v) l rest

/-- The sample `QUANT` writes (40_quantize.md R51). -/
def quantSample (s : State) (y x c : Nat) : Byte := BitVec.ofNat 8 (nearest (s.src y x c) (levelSeq s))

/-- `QUANT` (40_quantize.md R51). -/
def execQuant (s : State) : Host.Outcome State Fault Refusal := commandStep .quant (quantSample s) s

end Sys2Proof.Machine
end

