-- ==== Sys2Proof/Machine/Dispatch.lean ====
section
/-!
DEFINITION. One arm per command (30_encoding.md R39).
-/

namespace Sys2Proof.Machine

def exec (i : Instr) (s : State) : Host.Outcome State Fault Refusal :=
  match i with
  | .quant => Sys2Proof.Machine.execQuant s
  | .blur k => Sys2Proof.Machine.execBlur k s
  | .odither2x2 => Sys2Proof.Machine.execOdither2x2 s
  | .odither4x4 => Sys2Proof.Machine.execOdither4x4 s
  | .eddither => Sys2Proof.Machine.execEddither s
  | .kuwahara k => Sys2Proof.Machine.execKuwahara k s

end Sys2Proof.Machine
end

