-- ==== Sys2Proof/Machine/Driver.lean ====
section
/-!
DEFINITION. The agents' moves: a host statement (30_encoding.md R48), the engine's completion, one pixel of a
scan, a reset; and the default choice of who moves.
-/

namespace Sys2Proof.Machine

/-! ## The host's bus accesses -/

/-- A write of CTRL with START = 1 while IDLE: the command in CMD is decoded and started (10_state.md R8,
60_exceptions.md R79, R80). -/
def startCommand (s : State) : Host.Outcome State Fault Refusal :=
  match decode? s.cmd with
  | some i => exec i s
  | none => .next (onStart none s)

/-- A host write of a word slot: ignored while RUNNING (10_state.md R18); a CTRL write acts only with START = 1
(R8); a reserved slot ignores it (R7). -/
def writeSlot (offset : Nat) (v : Word) (s : State) : Host.Outcome State Fault Refusal :=
  match s.phase with
  | .running => .next s
  | .idle =>
    match regAt offset with
    | some .ctrl => if v.getLsbD 0 then startCommand s else .next s
    | some r => .next (writeReg r v s)
    | none => .next s

/-- The window offset of a bus address: an aligned 32-bit access inside the window, else a refusal by name
(20_memory.md R22, R27). -/
def windowOffset (s : State) (addr width : Nat) : Except Refusal Nat :=
  if addr < s.cfg.regBase ∨ s.cfg.regBase + 256 ≤ addr then .error (.outsideWindow addr)
  else if width ≠ 4 ∨ (addr - s.cfg.regBase) % 4 ≠ 0 then .error (.accessNotAdmitted addr width)
  else .ok (addr - s.cfg.regBase)

/-- A host write on the bus. -/
def busWrite (addr width : Nat) (v : Word) (s : State) : Host.Outcome State Fault Refusal :=
  match windowOffset s addr width with
  | .ok offset => writeSlot offset v s
  | .error r => .refused r

/-- The host's variable `t` takes a value (30_encoding.md R48). -/
def setT (v : Word) (s : State) : State := { s with host := { s.host with t := v } }

/-- A host read on the bus; reads are answered in either phase (10_state.md R18). -/
def busRead (addr width : Nat) (s : State) : Host.Outcome State Fault Refusal :=
  match windowOffset s addr width with
  | .ok offset => .next (setT (readSlot offset s) s)
  | .error r => .refused r

/-- The address is a byte of the running command's destination region. -/
def inRunningDst (s : State) (a : Nat) : Bool :=
  match s.phase, decode? s.cmd with
  | .running, some i => (dstRegion i s).has a
  | .running, none => false
  | .idle, _ => false

/-- The address is a byte of the running command's source or destination region. -/
def inRunningRegions (s : State) (a : Nat) : Bool :=
  (s.phase == .running && (srcRegion s).has a) || inRunningDst s a

/-- A host byte write; on a byte of a running command's regions it is a race (20_memory.md R35). -/
def hostStore (a : BitVec 32) (v : Byte) (s : State) : Host.Outcome State Fault Refusal :=
  if !admits s.cfg a.toNat then .fault (.unbackedByte a.toNat)
  else .next { s with mem := s.mem.write a.toNat v, raced := s.raced || inRunningRegions s a.toNat }

/-- A host byte read; of a running command's destination it draws any value (20_memory.md R29). -/
def hostLoad (a : BitVec 32) (s : State) : Host.Outcome State Fault Refusal :=
  if !admits s.cfg a.toNat then .fault (.unbackedByte a.toNat)
  else if inRunningDst s a.toNat then
    .next { setT ((Config.freeByte s.draws).setWidth 32) s with draws := s.draws + 1 }
  else .next (setT ((s.mem.read a.toNat).setWidth 32) s)

/-! ## The moves -/

/-- The position of the host's next statement. -/
def gotoStmt (pos : Nat) (s : State) : State := { s with host := { s.host with pos := pos } }

/-- `bnz t[bit], l` (30_encoding.md R48), the position already past it. -/
def branch (bit l : Nat) (s : State) : Host.Outcome State Fault Refusal :=
  if s.host.t.getLsbD bit then
    match labelPos s.host.prog l with
    | some p => .next (gotoStmt p s)
    | none => .refused (.undefinedLabel l)
  else .next s

/-- The effect of a statement, the position already past it (30_encoding.md R48). -/
def runStmt (st : HostStmt) (s : State) : Host.Outcome State Fault Refusal :=
  match st with
  | .wr r v => busWrite (s.cfg.regBase + r.offset) 4 v s
  | .rd r => busRead (s.cfg.regBase + r.offset) 4 s
  | .sb a v => hostStore a v s
  | .lb a => hostLoad a s
  | .label _ => .next s
  | .bnz bit l => branch bit l s
  | .busWrite addr width v => busWrite addr width v s
  | .busRead addr width => busRead addr width s

/-- The host's move: its next statement; a host at the end of its program does nothing. -/
def hostMove (s : State) : Host.Outcome State Fault Refusal :=
  match s.host.prog[s.host.pos]? with
  | some st => runStmt st (gotoStmt (s.host.pos + 1) s)
  | none => .next s

/-- The engine's move: the running command, which is the one in CMD (20_memory.md R37), runs to completion.
An IDLE engine does nothing; a run without a command is in no reachable state and has no completing step. -/
def engineMove (s : State) : Host.Outcome State Fault Refusal :=
  match s.phase, decode? s.cmd with
  | .running, some i => exec i s
  | .running, none => .next s
  | .idle, _ => .next s

/-- The engine visits the next pixel of a running `EDDITHER`; where there is none, it does nothing. -/
def scanMove (s : State) : State :=
  match s.phase, s.scan with
  | .running, some e => if e.y < s.H then visitPixel e s else s
  | .running, none => s
  | .idle, _ => s

/-- One move of the agent whose turn it is. -/
def takeTurn (t : Turn) (s : State) : Host.Outcome State Fault Refusal :=
  match t with
  | .host => hostMove s
  | .engine => engineMove s
  | .scan => .next (scanMove s)
  | .reset => .next (resetBlock s)

/-- The engine has a completing step: it runs a command on backed bytes (60_exceptions.md R86, 20_memory.md R31). -/
def engineReady (s : State) : Bool :=
  match s.phase, decode? s.cmd with
  | .running, some i => regionsAdmitted i s
  | .running, none => false
  | .idle, _ => false

/-- Who moves when the agenda names nobody: an engine that can complete, else the host. -/
def defaultTurn (s : State) : Turn := if engineReady s then .engine else .host

/-! ## Placing a command -/

/-- A START of the command in CMD would be accepted. -/
def startable (s : State) : Bool := validate (decode? s.cmd) s == 0

/-- A raster on which a command can run: one sample at address 0, its result at address 1, and a level
count that is legal. -/
def smallestRaster (s : State) : State :=
  { s with
    width := 1, height := 1, channels := 1, srcBase := 0, dstBase := 1
    levelCount := if 1 ≤ s.NL ∧ s.NL ≤ 16 then s.levelCount else 1 }

/-- The command word in CMD of an idle block, the geometry kept if a START would be accepted and the smallest
one otherwise. -/
def loadCommand (w : Word) (s : State) : State :=
  let a := { s with cmd := w, phase := .idle, scan := none, raced := false, agenda := [] }
  if startable a then a else smallestRaster a

/-- The state whose next step runs the command of word `w`: its START accepted, so that the next step is the
engine's run; or, for a word that START rejects, the START write pending (log entry 8). -/
def placeCommand (w : Word) (s : State) : State :=
  let b := loadCommand w s
  match startable b, decode? w with
  | true, some i => accept i b
  | _, _ => { b with host := { b.host with prog := [.wr .ctrl 1], pos := 0 } }

end Sys2Proof.Machine
end

