-- ==== Sys2Proof/Safety.lean ====
section
/-!
DEFINITION. The predicates the statements are made of: the invariant of the machine, the readiness of a
running command, what a completion does, the geometry conditions of START, and the reference of a scan.
-/

namespace Sys2Proof.Machine

/-! ## The invariant -/

/-- STATUS: ERRCODE is 0 exactly without ERR, and 1 or 2 with it; DONE and ERR are not both set; neither is set
while RUNNING (10_state.md R9). -/
def State.statusOk (s : State) : Prop :=
  (s.err = false → s.errcode = 0) ∧
  (s.err = true → s.errcode = invalidInput ∨ s.errcode = invalidConfiguration) ∧
  (s.err = true → s.done = false) ∧
  (s.phase = .running → s.done = false ∧ s.err = false)

/-- Raster memory is in its canonical form and lists only backed bytes of the address space (20_memory.md R22, R31). -/
def State.memOk (s : State) : Prop :=
  Memory.wf s.mem = true ∧ ∀ q ∈ s.mem, q.1 < Config.addressSpace ∧ admits s.cfg q.1 = true

/-- While RUNNING, CMD holds a command that passed `Validate` (60_exceptions.md R79, R80); a race is recorded only then. -/
def State.runOk (s : State) : Prop :=
  (s.phase = .running → ∃ i, decode? s.cmd = some i ∧ validate (some i) s = 0) ∧
  (s.phase = .idle → s.raced = false)

/-- A scan's buffer has one number per source sample and its position is a pixel or the end of the raster (10_state.md R20). -/
def scanInRange (s : State) (e : Scan) : Prop :=
  e.wb.length = s.W * s.H * s.C ∧ ((e.y < s.H ∧ e.x < s.W) ∨ (e.y = s.H ∧ e.x = 0))

/-- The working buffer exists exactly while an `EDDITHER` is RUNNING, and is in range (10_state.md R20). -/
def State.scanOk (s : State) : Prop :=
  (∀ e, s.scan = some e → s.phase = .running ∧ decode? s.cmd = some .eddither ∧ scanInRange s e) ∧
  (s.phase = .running → decode? s.cmd = some .eddither → s.scan.isSome = true)

/-- The invariant every step keeps. -/
structure State.Inv (s : State) : Prop where
  status : s.statusOk
  mem    : s.memOk
  run    : s.runOk
  scan   : s.scanOk

/-! ## The scan of `EDDITHER` as a reference -/

/-- The scan after `n` more pixels. -/
def scanAfter (s : State) : Nat → Scan → Scan
  | 0, e => e
  | n + 1, e => scanAfter s n (nextScan s e)

/-- A run of `EDDITHER` on a backed source that no host write has disturbed stands where the scan of R69 from its
start stands after some number of pixels, and the backed bytes of those pixels are written (43_error_diffusion.md
R62 to R67). -/
def State.scanFaithful (s : State) : Prop :=
  ∀ e, s.scan = some e → s.raced = false → (srcRegion s).admitted s.cfg = true →
    ∃ n, n ≤ s.W * s.H ∧ e = scanAfter s n (loadScan s) ∧
      ∀ j, j < n → admits s.cfg (s.dstBase.toNat + j) = true →
        s.mem.read (s.dstBase.toNat + j) = BitVec.ofNat 8 ((scanLevels s n (loadScan s)).getD j 0)

/-! ## Readiness and completion -/

/-- The command `i` is running, was validated, and every byte of its regions is backed (60_exceptions.md R79, 20_memory.md R31). -/
def State.runs (s : State) (i : Instr) : Prop :=
  s.phase = .running ∧ validate (some i) s = 0 ∧ regionsAdmitted i s = true

/-- The same, and no host write has touched its regions (20_memory.md R35). -/
def State.runsAlone (s : State) (i : Instr) : Prop := s.runs i ∧ s.raced = false

/-- `(y, x, c)` is a sample of the destination raster (20_memory.md R23, R24). -/
def inDest (i : Instr) (s : State) (y x c : Nat) : Prop := y < s.H ∧ x < s.W ∧ c < destChannels i s

/-- `t` is `s` after its command completed, but for the values of the destination: IDLE, DONE, no working buffer,
every byte outside the destination region as it was, and no other register, flag or parameter changed
(60_exceptions.md R86, 20_memory.md R29). -/
def completedFrame (i : Instr) (s t : State) : Prop :=
  t = { s with mem := t.mem, phase := .idle, scan := none, raced := false, done := true } ∧
  (∀ a, (dstRegion i s).has a = false → t.mem.read a = s.mem.read a)

/-- The byte of the destination sample `(y, x, c)` of a command started in `s`, read in `t`. -/
def destSample (i : Instr) (s t : State) (y x c : Nat) : Byte := t.mem.read (dstAddr i s y x c)

/-- `t` is `s` after its command completed with `value` (60_exceptions.md R86). -/
def completedWith (i : Instr) (s : State) (value : Nat → Nat → Nat → Byte) (t : State) : Prop :=
  completedFrame i s t ∧ ∀ y x c, inDest i s y x c → destSample i s t y x c = value y x c

/-! ## The conditions of START -/

/-- Some InvalidInput condition holds (60_exceptions.md R81). -/
def badInput (s : State) : Prop :=
  s.W = 0 ∨ s.H = 0 ∨ (s.C ≠ 1 ∧ s.C ≠ 3) ∨ 2 ^ 32 < s.srcBase.toNat + s.W * s.H * s.C

/-- Some InvalidConfiguration condition of a decoded command holds (60_exceptions.md R82). -/
def badConfiguration (i : Instr) (s : State) : Prop :=
  (∃ k, i = .blur k ∧ (k = 0 ∨ k % 2 = 0)) ∨ (∃ k, i = .kuwahara k ∧ k < 2) ∨
  ((i = .quant ∨ i = .eddither) ∧ (s.NL = 0 ∨ 16 < s.NL)) ∨
  2 ^ 32 < s.dstBase.toNat + s.W * s.H * destChannels i s ∨
  ∃ a, (srcRegion s).has a = true ∧ (dstRegion i s).has a = true

/-- `t` is `s` after a START was rejected with `code`: only STATUS differs (60_exceptions.md R79, R84). -/
def rejectedWith (code : BitVec 4) (s t : State) : Prop :=
  t = { s with done := false, err := true, errcode := code }

/-! ## The opcode table -/

/-- One row of spec/opcode_table.json: the words with `w &&& mask = bits` are this command, its operand the K field. -/
structure OpRow where
  bits  : Word
  mask  : Word
  instr : Nat → Instr

/-- spec/opcode_table.json, row by row (30_encoding.md R45). -/
def opcodeTable : List OpRow :=
  [ { bits := 0x00000001, mask := 0xFFFFFFFF, instr := fun _ => .quant },
    { bits := 0x00000002, mask := 0xFF00FFFF, instr := .blur },
    { bits := 0x00000003, mask := 0xFFFFFFFF, instr := fun _ => .odither2x2 },
    { bits := 0x00000103, mask := 0xFFFFFFFF, instr := fun _ => .odither4x4 },
    { bits := 0x00000004, mask := 0xFFFFFFFF, instr := fun _ => .eddither },
    { bits := 0x00000005, mask := 0xFF00FFFF, instr := .kuwahara } ]

/-- The word matches the row. -/
def OpRow.matches (r : OpRow) (w : Word) : Prop := w &&& r.mask = r.bits

/-- The bits of a register that a host write stores (10_state.md R10 to R17). -/
def fieldMask : Reg → Word
  | .ctrl | .status => 0x00000000
  | .cmd | .srcBase | .dstBase => 0xFFFFFFFF
  | .width | .height => 0x0000FFFF
  | .channels => 0x00000003
  | .levelCount => 0x0000001F
  | .level _ => 0x000000FF

/-! ## Numbers -/

/-- The value of a finite number (43_error_diffusion.md R61). -/
def numValue : WbNum → ℚ
  | .fin neg mag scale => (if neg then -(mag : ℚ) else mag) / 2 ^ scale
  | .inf _ | .nan => 0

/-- The number is finite and in lowest terms, as every result of the arithmetic is. -/
def numReduced : WbNum → Prop
  | .fin _ mag scale => scale = 0 ∨ mag % 2 = 1
  | .inf _ | .nan => False

/-- A finite number rounded once into a format (43_error_diffusion.md R61, R68). -/
def roundedTo (f : Format) : WbNum → WbNum
  | .fin neg mag scale => roundFinite f neg mag scale
  | .inf neg => .inf neg
  | .nan => .nan

/-- A non-negative magnitude `n * 2^k / 2^minExp` that the format holds, subnormal ones too (43_error_diffusion.md R61). -/
def formatHolds (f : Format) (v : ℚ) : Prop := ∃ n k : Nat, n < 2 ^ f.prec ∧ v = (n : ℚ) * 2 ^ k / 2 ^ f.minExp

/-- The level index the loop of 43_error_diffusion.md R64 ends with after testing levels `1 .. n`. -/
def bestIndex (lt : WbNum → WbNum → Bool) (d : Nat → WbNum) : Nat → Nat
  | 0 => 0
  | n + 1 => if lt (d (n + 1)) (d (bestIndex lt d n)) then n + 1 else bestIndex lt d n

/-! ## Sums of a neighbourhood -/

/-- The sum of `f v` over the `k × k` samples `v` of channel `c` whose top-left corner is `(r₀, c₀)`, border-extended. -/
def windowSum (s : State) (mode : Config.Border) (k : Nat) (r₀ c₀ : Int) (c : Nat) (f : Nat → Nat) : Nat :=
  ∑ i ∈ Finset.range k, ∑ j ∈ Finset.range k, f (s.src (border mode (r₀ + i) s.H) (border mode (c₀ + j) s.W) c)

/-- The top-left corners of the four regions in evaluation order (44_kuwahara.md R72, R76). -/
def corner (k y x : Nat) : Fin 4 → Int × Int
  | 0 => ((y : Int) - k + 1, (x : Int) - k + 1)
  | 1 => ((y : Int) - k + 1, (x : Int))
  | 2 => ((y : Int), (x : Int) - k + 1)
  | 3 => ((y : Int), (x : Int))

/-- `V[r]` (44_kuwahara.md R73). -/
def cornerKey (s : State) (k y x : Nat) (r : Fin 4) : Int :=
  ∑ c ∈ Finset.range s.C,
    (((k * k : Nat) : Int) * (windowSum s .replicate k (corner k y x r).1 (corner k y x r).2 c (fun v => v * v) : Nat)
      - (windowSum s .replicate k (corner k y x r).1 (corner k y x r).2 c id : Nat) ^ 2)

end Sys2Proof.Machine
end

