-- ==== Sys2Proof/Certificates/Slice0/Obligations.lean ====
section
/-!
DEFINITION. The statements for the provers. Each docstring names the rule of spec/ it formalises, or the sections
it rests on; a clause that rests on a choice of the model names its log entry.
-/

open Sys2Proof Sys2Proof.Machine

/-! ## Encoding -/

/-- Every command the format can hold decodes from its word, with its operand (30_encoding.md R38 to R45). -/
def Obligations.DecodeOfEncodeIsTheCommand : Prop :=
  ∀ i : Instr, i.wf = true → decode (encode i) = .ok i

/-- No bit of a legal word is dropped: a decoded word is the word of its command (30_encoding.md R38 to R45). -/
def Obligations.EncodeOfDecodeIsTheWord : Prop :=
  ∀ (w : Word) (i : Instr), decode w = .ok i → i.wf = true ∧ encode i = w

/-- R45: `Decode` is the opcode table, whose rows never overlap; a word that matches no row is Invalid. -/
def Obligations.DecodeAgreesWithTheOpcodeTable : Prop :=
  ∀ w : Word,
    (∀ r ∈ opcodeTable, r.matches w → decode? w = some (r.instr (w.toNat / 2 ^ 16 % 2 ^ 8))) ∧
    ((∀ r ∈ opcodeTable, ¬ r.matches w) → decode? w = none) ∧
    (∀ (j k : Nat) (r q : OpRow), opcodeTable[j]? = some r → opcodeTable[k]? = some q → r.matches w → q.matches w → j = k)

/-- A few words written out bit by bit from the pattern of R38 and the opcodes of R39 and R41. -/
def Obligations.SampleWordsDecode : Prop :=
  decode 0b00000000000000000000000000000001#32 = .ok .quant ∧
  decode 0b00000000000000110000000000000010#32 = .ok (.blur 3) ∧
  decode 0b00000000000000000000000000000011#32 = .ok .odither2x2 ∧
  decode 0b00000000000000000000000100000011#32 = .ok .odither4x4 ∧
  decode 0b00000000000000000000000000000100#32 = .ok .eddither ∧
  decode 0b00000000000001010000000000000101#32 = .ok (.kuwahara 5) ∧
  decode 0b00000000000000000000001000000011#32 = .error .reservedVariant ∧
  decode 0b00000000000000110000010000000010#32 = .error .reservedBits ∧
  decode 0b00000000000000000000000100000100#32 = .error .unusedField ∧
  decode 0b00000000000000000000000000000000#32 = .error .reservedOp

/-- R47: the mnemonics and their words; `k` defaults to 3; a `k` above 255 is refused, any other assembled. -/
def Obligations.AssemblerGivesTheCommandWords : Prop :=
  assemble .quant = some 0x00000001 ∧ assemble .odither2x2 = some 0x00000003 ∧
  assemble .odither4x4 = some 0x00000103 ∧ assemble .eddither = some 0x00000004 ∧
  assemble (.blur none) = assemble (.blur (some 3)) ∧ assemble (.kuwahara none) = assemble (.kuwahara (some 3)) ∧
  (∀ k, k ≤ 255 →
    assemble (.blur (some k)) = some (0x00000002#32 ||| (BitVec.ofNat 32 k <<< 16)) ∧
    assemble (.kuwahara (some k)) = some (0x00000005#32 ||| (BitVec.ofNat 32 k <<< 16))) ∧
  (∀ k, 255 < k → assemble (.blur (some k)) = none ∧ assemble (.kuwahara (some k)) = none)

/-- A START whose CMD has a reserved OP (R40), VAR 2 or 3 under OP 3 (R41), a 1 in a reserved bit (R43) or a non-zero
unused field (R44) is rejected with InvalidConfiguration; an InvalidInput condition takes priority (R85). That DONE is
cleared as well is the model's reading of R79 (log entry 9, DEDUCED). -/
def Obligations.ReservedEncodingsAreRejectedAtStart : Prop :=
  ∀ s : State, s.phase = .idle →
    (s.cmd.toNat % 16 = 0 ∨ 6 ≤ s.cmd.toNat % 16 ∨
      s.cmd.toNat / 2 ^ 24 ≠ 0 ∨ s.cmd.toNat / 2 ^ 10 % 2 ^ 6 ≠ 0 ∨ s.cmd.toNat / 2 ^ 4 % 2 ^ 4 ≠ 0 ∨
      (s.cmd.toNat % 16 ≠ 3 ∧ s.cmd.toNat / 2 ^ 8 % 2 ^ 2 ≠ 0) ∨
      (s.cmd.toNat % 16 = 3 ∧ 2 ≤ s.cmd.toNat / 2 ^ 8 % 2 ^ 2) ∨
      (s.cmd.toNat % 16 ≠ 2 ∧ s.cmd.toNat % 16 ≠ 5 ∧ s.cmd.toNat / 2 ^ 16 % 2 ^ 8 ≠ 0)) →
    ∃ t, startCommand s = .next t ∧
      (badInput s → rejectedWith invalidInput s t) ∧ (¬ badInput s → rejectedWith invalidConfiguration s t)

/-! ## Registers -/

/-- A host write of a register at its bus address, while IDLE and not of CTRL, stores the bits its field names and no
others, and changes nothing else; a host read there then returns them; STATUS ignores it (10_state.md R9 to R17). -/
def Obligations.RegisterWriteStoresItsField : Prop :=
  ∀ (s : State) (r : Reg) (v : Word), s.phase = .idle → r ≠ .ctrl →
    ∃ t, busWrite (s.cfg.regBase + r.offset) 4 v s = .next t ∧
      (r ≠ .status → readReg r t = v &&& fieldMask r ∧
        busRead (s.cfg.regBase + r.offset) 4 t = .next (setT (v &&& fieldMask r) t)) ∧
      (∀ q, q ≠ r → readReg q t = readReg q s) ∧
      (r = .status → t = s) ∧
      t = { s with cmd := t.cmd, width := t.width, height := t.height, channels := t.channels, srcBase := t.srcBase,
                   dstBase := t.dstBase, levelCount := t.levelCount, level := t.level }

/-- A reserved slot reads 0 and ignores writes (10_state.md R7). -/
def Obligations.ReservedSlotsReadZeroAndIgnoreWrites : Prop :=
  ∀ (s : State) (off : Nat) (v : Word), off % 4 = 0 → ((0x24 ≤ off ∧ off < 0x40) ∨ (0x80 ≤ off ∧ off < 0x100)) →
    busRead (s.cfg.regBase + off) 4 s = .next (setT 0 s) ∧ busWrite (s.cfg.regBase + off) 4 v s = .next s

/-- R8: CTRL reads 0, also after reset; a write with START = 0 does nothing; with START = 1 it starts the command in
CMD while IDLE and is ignored while RUNNING, whatever the other bits are. -/
def Obligations.CtrlStartsOnlyWithBitZeroWhileIdle : Prop :=
  (∀ cfg mem, readReg .ctrl (State.resetWith cfg mem) = 0) ∧
  ∀ (s : State) (v : Word),
    readReg .ctrl s = 0 ∧
    (v.getLsbD 0 = false → busWrite s.cfg.regBase 4 v s = .next s) ∧
    (s.phase = .running → busWrite s.cfg.regBase 4 v s = .next s) ∧
    (s.phase = .idle → v.getLsbD 0 = true →
      busWrite s.cfg.regBase 4 v s = .next (onStart (decode? s.cmd) s))

/-- STATUS reads BUSY, DONE, ERR and ERRCODE at bits 0, 1, 2 and 7:4 and 0 elsewhere; in a state that meets the
invariant at most one of BUSY, DONE and ERR is 1, ERRCODE is 0 without ERR and at most 2 (10_state.md R9). -/
def Obligations.StatusWordHasItsFields : Prop :=
  ∀ s : State,
    (statusWord s).getLsbD 0 = decide (s.phase = .running) ∧ (statusWord s).getLsbD 1 = s.done ∧
    (statusWord s).getLsbD 2 = s.err ∧ (statusWord s).getLsbD 3 = false ∧
    (statusWord s).toNat / 2 ^ 4 = s.errcode.toNat ∧
    (s.Inv →
      (s.phase = .running → s.done = false ∧ s.err = false) ∧ (s.done = true → s.err = false) ∧
      (s.err = false → s.errcode = 0) ∧ s.errcode.toNat ≤ 2)

/-- R18: while RUNNING every host write to the window is ignored, START included; reads return the current values;
and the registers the command reads hold at every step that is no reset. -/
def Obligations.RegistersHoldWhileRunning : Prop :=
  ∀ s : State, s.phase = .running →
    (∀ off v, off < 256 → off % 4 = 0 → busWrite (s.cfg.regBase + off) 4 v s = .next s) ∧
    (∀ r, busRead (s.cfg.regBase + r.offset) 4 s = .next (setT (readReg r s) s)) ∧
    (∀ t, step s = .next t → s.agenda.head? ≠ some .reset →
      t.cmd = s.cmd ∧ t.width = s.width ∧ t.height = s.height ∧ t.channels = s.channels ∧ t.srcBase = s.srcBase ∧
      t.dstBase = s.dstBase ∧ t.levelCount = s.levelCount ∧ t.level = s.level)

/-- R27: an access of the window that is not 32 bits wide or not aligned has no step; every other one has. -/
def Obligations.OnlyAlignedWordAccessesHaveAStep : Prop :=
  ∀ (s : State) (addr width : Nat) (v : Word), s.cfg.regBase ≤ addr → addr < s.cfg.regBase + 256 →
    ((width ≠ 4 ∨ (addr - s.cfg.regBase) % 4 ≠ 0) →
      busWrite addr width v s = .refused (.accessNotAdmitted addr width) ∧
      busRead addr width s = .refused (.accessNotAdmitted addr width)) ∧
    (width = 4 → (addr - s.cfg.regBase) % 4 = 0 →
      (∃ t, busWrite addr width v s = .next t) ∧ ∃ t, busRead addr width s = .next t)

/-! ## START -/

/-- R81: InvalidInput is the answer exactly when `W = 0`, `H = 0`, `C` is not 1 or 3, or the source region runs past
`2^32 - 1`, for every operation. -/
def Obligations.InvalidInputExactlyWhen : Prop :=
  ∀ (op : Option Instr) (s : State),
    validate op s = invalidInput ↔
      (s.W = 0 ∨ s.H = 0 ∨ (s.C ≠ 1 ∧ s.C ≠ 3) ∨ 2 ^ 32 < s.srcBase.toNat + s.W * s.H * s.C)

/-- R82, with the priority of R85: InvalidConfiguration is the answer exactly when CMD is no command, the kernel size
is illegal, `QUANT` or `EDDITHER` has no or too many levels, or the destination runs past the end or meets the source. -/
def Obligations.InvalidConfigurationExactlyWhen : Prop :=
  ∀ s : State, ¬ badInput s →
    (validate (decode? s.cmd) s = invalidConfiguration ↔
      decode? s.cmd = none ∨ ∃ i, decode? s.cmd = some i ∧ badConfiguration i s)

/-- R85: one code is reported, the first failing test's: InvalidInput over InvalidConfiguration, for a decoded command
and for a reserved one. -/
def Obligations.InvalidInputHasPriority : Prop :=
  ∀ s : State,
    (badInput s → ∀ op, validate op s = invalidInput) ∧
    (¬ badInput s → validate none s = invalidConfiguration) ∧
    (∀ i, ¬ badInput s → badConfiguration i s → validate (some i) s = invalidConfiguration) ∧
    (∀ i, ¬ badInput s → ¬ badConfiguration i s → validate (some i) s = 0)

/-- A rejected START changes STATUS and nothing else, and the host's next STATUS read shows ERR and the code (R84, R79).
That it shows DONE 0 whatever DONE was is the model's reading of R79 (log entry 9, DEDUCED). -/
def Obligations.RejectedStartChangesOnlyStatus : Prop :=
  (∀ (s : State) (i : Instr), s.phase = .idle → validate (some i) s ≠ 0 →
    ∃ t, exec i s = .next t ∧ rejectedWith (validate (some i) s) s t ∧
      (readReg .status t).toNat = 4 + 16 * (validate (some i) s).toNat) ∧
  (∀ s : State, s.phase = .idle → decode? s.cmd = none →
    ∃ t, startCommand s = .next t ∧ rejectedWith (validate none s) s t)

/-- An accepted START clears STATUS and makes the phase RUNNING; for an `EDDITHER` the working buffer then holds one
number for each source sample and the scan is at `(0, 0)`; nothing else changes (60_exceptions.md R79, 10_state.md R20,
43_error_diffusion.md R62). An unbacked source byte gives its sample a free value, a draw of its own (log entry 25). -/
def Obligations.AcceptedStartBeginsTheRun : Prop :=
  ∀ (s : State) (i : Instr), s.phase = .idle → validate (some i) s = 0 →
    ∃ t, exec i s = .next t ∧
      t = { s with done := false, err := false, errcode := 0, phase := .running, raced := false, scan := t.scan
                   draws := t.draws } ∧
      readReg .status t = 1 ∧
      (i ≠ .eddither → t.scan = none) ∧
      (i ≠ .eddither ∨ (srcRegion s).admitted s.cfg = true → t.draws = s.draws) ∧
      (i = .eddither → (srcRegion s).admitted s.cfg = false → t.draws = s.draws + s.W * s.H * s.C) ∧
      (i = .eddither → ∃ e, t.scan = some e ∧ e.y = 0 ∧ e.x = 0 ∧ e.wb.length = s.W * s.H * s.C ∧
        ∀ y x c, y < s.H → x < s.W → c < s.C →
          (admits s.cfg (rasterAddr s.W s.srcBase.toNat s.C y x c) = true →
            wbAt s e.wb y x c = .fin false (s.src y x c) 0) ∧
          (admits s.cfg (rasterAddr s.W s.srcBase.toNat s.C y x c) = false →
            wbAt s e.wb y x c = .fin false (Config.freeByte (s.draws + ((y * s.W + x) * s.C + c))).toNat 0))

/-- A `BLUR` START with `k` 0 or even is rejected, with InvalidConfiguration unless InvalidInput takes priority; 255 is
the largest legal `k` a command can have (R55). That DONE is cleared as well is log entry 9 (DEDUCED). -/
def Obligations.BlurRejectsZeroAndEvenKernels : Prop :=
  (∀ (s : State) (k : Nat), s.phase = .idle → k = 0 ∨ k % 2 = 0 →
    ∃ t, exec (.blur k) s = .next t ∧
      (badInput s → rejectedWith invalidInput s t) ∧ (¬ badInput s → rejectedWith invalidConfiguration s t)) ∧
  kernelLegal (.blur 255) = true ∧ (Instr.blur 255).wf = true ∧
  ∀ k, 255 < k → (Instr.blur k).wf = false

/-- A `KUWAHARA` START with `k` 0 or 1 is rejected; with any `k` from 2 to 255, odd or even, it is accepted where
nothing else is wrong (R77). That a rejection clears DONE as well is log entry 9 (DEDUCED). -/
def Obligations.KuwaharaRejectsOnlyKernelsBelowTwo : Prop :=
  (∀ (s : State) (k : Nat), s.phase = .idle → k < 2 →
    ∃ t, exec (.kuwahara k) s = .next t ∧
      (badInput s → rejectedWith invalidInput s t) ∧ (¬ badInput s → rejectedWith invalidConfiguration s t)) ∧
  (∀ (s : State) (k : Nat), s.phase = .idle → 2 ≤ k → k ≤ 255 → ¬ badInput s →
    s.dstBase.toNat + s.W * s.H * s.C ≤ 2 ^ 32 →
    (∀ a, (srcRegion s).has a = true → (dstRegion (.kuwahara k) s).has a = false) →
    ∃ t, exec (.kuwahara k) s = .next t ∧ t.phase = .running ∧ t.err = false)

/-- R25: an accepted command wraps no address and reads no byte it writes; a START that breaks the region rules is
rejected, a source past the end with InvalidInput. -/
def Obligations.AcceptedRegionsAreInsideAndApart : Prop :=
  ∀ (s : State) (i : Instr),
    (validate (some i) s = 0 →
      (∀ y x c, y < s.H → x < s.W → c < s.C → rasterAddr s.W s.srcBase.toNat s.C y x c < 2 ^ 32) ∧
      (∀ y x c, inDest i s y x c → dstAddr i s y x c < 2 ^ 32) ∧
      (∀ y x c y' x' c', y < s.H → x < s.W → c < s.C → inDest i s y' x' c' →
        rasterAddr s.W s.srcBase.toNat s.C y x c ≠ dstAddr i s y' x' c')) ∧
    (2 ^ 32 < s.srcBase.toNat + s.W * s.H * s.C → validate (some i) s = invalidInput) ∧
    (¬ badInput s → 2 ^ 32 < s.dstBase.toNat + s.W * s.H * destChannels i s →
      validate (some i) s = invalidConfiguration) ∧
    (¬ badInput s → (∃ a, (srcRegion s).has a = true ∧ (dstRegion i s).has a = true) →
      validate (some i) s = invalidConfiguration)

/-! ## Each command's completion, result and frame -/

/-- `QUANT` completes; each destination sample is the level of the first index with the least distance to the source
sample, and nothing else changes (40_quantize.md R50, R51). -/
def Obligations.QuantWritesTheFirstNearestLevel : Prop :=
  ∀ s : State, Memory.wf s.mem = true → s.runsAlone .quant →
    ∃ t, exec .quant s = .next t ∧ completedFrame .quant s t ∧
      ∀ y x c, y < s.H → x < s.W → c < s.C →
        ∃ j, j < s.NL ∧ destSample .quant s t y x c = s.level.toList.getD j 0 ∧
          ∀ i, i < s.NL →
            |((s.level.toList.getD j 0).toNat : Int) - s.src y x c| ≤ |((s.level.toList.getD i 0).toNat : Int) - s.src y x c| ∧
            (i < j →
              |((s.level.toList.getD j 0).toNat : Int) - s.src y x c| < |((s.level.toList.getD i 0).toNat : Int) - s.src y x c|)

/-- `BLUR k` completes; each destination sample is the border-extended sum of the `k × k` neighbourhood centred on it,
over `k²`, rounded, with no truncation; nothing else changes (41_blur.md R54). -/
def Obligations.BlurWritesTheRoundedMean : Prop :=
  ∀ (s : State) (k : Nat), Memory.wf s.mem = true → s.runsAlone (.blur k) →
    ∃ t, exec (.blur k) s = .next t ∧ completedFrame (.blur k) s t ∧
      ∀ y x c, y < s.H → x < s.W → c < s.C →
        (destSample (.blur k) s t y x c).toNat =
          roundDiv (windowSum s s.cfg.blurBorder k ((y : Int) - ((k - 1) / 2 : Nat)) ((x : Int) - ((k - 1) / 2 : Nat)) c id)
            (k * k) s.cfg.blurRound

/-- `ODITHER.2X2` completes; each destination sample is `p + M[y mod 2][x mod 2] * 255`, rounded and clamped to 255;
nothing else changes (42_ordered_dither.md R57, R58). -/
def Obligations.Odither2x2AddsItsThreshold : Prop :=
  ∀ s : State, Memory.wf s.mem = true → s.runsAlone .odither2x2 →
    ∃ t, exec .odither2x2 s = .next t ∧ completedFrame .odither2x2 s t ∧
      ∀ y x c, y < s.H → x < s.W → c < s.C →
        (destSample .odither2x2 s t y x c).toNat =
          min 255 (roundDiv (16 * s.src y x c + 255 * [0, 8, 12, 4].getD (y % 2 * 2 + x % 2) 0) 16 s.cfg.odRound)

/-- `ODITHER.4X4` completes; each destination sample is `p + M[y mod 4][x mod 4] * 255`, rounded and clamped to 255;
nothing else changes (42_ordered_dither.md R57, R58). -/
def Obligations.Odither4x4AddsItsThreshold : Prop :=
  ∀ s : State, Memory.wf s.mem = true → s.runsAlone .odither4x4 →
    ∃ t, exec .odither4x4 s = .next t ∧ completedFrame .odither4x4 s t ∧
      ∀ y x c, y < s.H → x < s.W → c < s.C →
        (destSample .odither4x4 s t y x c).toNat =
          min 255 (roundDiv
            (16 * s.src y x c + 255 * [0, 8, 2, 10, 12, 4, 14, 6, 3, 11, 1, 9, 15, 7, 13, 5].getD (y % 4 * 4 + x % 4) 0)
            16 s.cfg.odRound)

/-- `EDDITHER` completes, from every point its scan may have reached: pixel number `n` of the one-channel destination
is the level chosen after `n` pixels of the scan that starts from the source raster; nothing else changes
(43_error_diffusion.md R62 to R69). -/
def Obligations.EdditherWritesTheScanLevels : Prop :=
  ∀ s : State, s.Inv → s.scanFaithful → decode? s.cmd = some .eddither → s.runsAlone .eddither →
    ∃ t, exec .eddither s = .next t ∧ completedFrame .eddither s t ∧
      ∀ y x, y < s.H → x < s.W →
        (destSample .eddither s t y x 0).toNat = pixelLevel s (scanAfter s (y * s.W + x) (loadScan s))

/-- `KUWAHARA k` completes; each pixel is the rounded mean, channel by channel, of the first of the four corner regions
with the least exact variance key; nothing else changes (44_kuwahara.md R72 to R76). -/
def Obligations.KuwaharaWritesTheLeastVarianceMean : Prop :=
  ∀ (s : State) (k : Nat), Memory.wf s.mem = true → s.runsAlone (.kuwahara k) →
    ∃ t, exec (.kuwahara k) s = .next t ∧ completedFrame (.kuwahara k) s t ∧
      ∀ y x, y < s.H → x < s.W →
        ∃ r : Fin 4, (∀ q : Fin 4, cornerKey s k y x r ≤ cornerKey s k y x q ∧
            (q < r → cornerKey s k y x r < cornerKey s k y x q)) ∧
          ∀ c, c < s.C →
            (destSample (.kuwahara k) s t y x c).toNat =
              roundDiv (windowSum s .replicate k (corner k y x r).1 (corner k y x r).2 c id) (k * k) s.cfg.kuwRound

/-- Whatever a RUNNING command does in one execution (complete, complete after a race, or stand still on unbacked
bytes): no byte outside its destination region changes, the source region does not, and no register, parameter,
error flag or host variable does (20_memory.md R29, 60_exceptions.md R86). -/
def Obligations.RunningCommandsWriteOnlyTheirDestination : Prop :=
  ∀ (s : State) (i : Instr), s.phase = .running → Memory.wf s.mem = true →
    ∃ t, exec i s = .next t ∧
      t = { s with mem := t.mem, phase := t.phase, scan := t.scan, raced := t.raced, draws := t.draws, done := t.done } ∧
      (∀ a, (dstRegion i s).has a = false → t.mem.read a = s.mem.read a) ∧
      (validate (some i) s = 0 → ∀ a, (srcRegion s).has a = true → t.mem.read a = s.mem.read a)

/-- R35: a host write of a source or destination byte of a RUNNING command marks the run; the mark stays until the run
ends; and the marked run completes with DONE, each destination byte any value: a draw of its own, and the count of
draws moves past them all, so no later draw has the index of one of them (log entry 4). -/
def Obligations.RacedRunsCompleteWithAnyValue : Prop :=
  (∀ (s : State) (i : Instr) (a : BitVec 32) (v : Byte), s.phase = .running → decode? s.cmd = some i →
    admits s.cfg a.toNat = true → (srcRegion s).has a.toNat = true ∨ (dstRegion i s).has a.toNat = true →
    ∃ t, hostStore a v s = .next t ∧ t.raced = true ∧ t.phase = .running) ∧
  (∀ s t : State, s.phase = .running → s.raced = true → step s = .next t → t.phase = .running → t.raced = true) ∧
  (∀ (s : State) (i : Instr), Memory.wf s.mem = true → s.runs i → s.raced = true →
    ∃ t, exec i s = .next t ∧ t.phase = .idle ∧ t.done = true ∧ t.err = s.err ∧
      t.draws = s.draws + s.W * s.H * destChannels i s ∧
      ∀ y x c, inDest i s y x c →
        destSample i s t y x c = Config.freeByte (s.draws + ((y * s.W + x) * destChannels i s + c)))

/-- A command with an unbacked byte in its regions stays RUNNING, BUSY reading 1, at every step that is no reset, and
stays so (R31). That its execution, the completion the spec gives no step, changes nothing is log entry 17 (DEDUCED). -/
def Obligations.UnbackedRunsStayBusyUntilReset : Prop :=
  ∀ (s : State) (i : Instr), s.phase = .running → decode? s.cmd = some i → regionsAdmitted i s = false →
    exec i s = .next s ∧ (readReg .status s).getLsbD 0 = true ∧
    ∀ t, step s = .next t → s.agenda.head? ≠ some .reset →
      t.phase = .running ∧ decode? t.cmd = some i ∧ regionsAdmitted i t = false

/-- The completion step is always enabled while RUNNING on backed bytes: when the engine moves, the run ends with IDLE,
DONE and no error (60_exceptions.md R86). That the engine moves when the agenda names nobody is the model's choice (log
entry 3, DESIGN CHOICE). -/
def Obligations.ReadyEngineCompletesItsRun : Prop :=
  ∀ (s : State) (i : Instr), s.Inv → s.phase = .running → decode? s.cmd = some i → regionsAdmitted i s = true →
    s.agenda = [] ∨ s.agenda.head? = some .engine →
    ∃ t, step s = .next t ∧ t.phase = .idle ∧ t.scan = none ∧ t.done = true ∧ t.err = false ∧ readReg .status t = 2

/-- A step runs the decoded command: on the engine's turn while RUNNING, on an empty agenda with the engine ready, and
on the host's turn at a START write while IDLE, the position moved past the statement. -/
def Obligations.StepRunsTheDecodedCommand : Prop :=
  ∀ (s : State) (i : Instr), decode? s.cmd = some i →
    (∀ rest, s.phase = .running → s.agenda = .engine :: rest → step s = exec i { s with agenda := rest }) ∧
    (s.phase = .running → regionsAdmitted i s = true → s.agenda = [] → step s = exec i s) ∧
    (∀ rest v, s.phase = .idle → s.agenda = .host :: rest → s.host.prog[s.host.pos]? = some (.wr .ctrl v) →
      v.getLsbD 0 = true →
      step s = exec i { s with agenda := rest, host := { s.host with pos := s.host.pos + 1 } })

/-! ## The shared arithmetic -/

/-- R3: the three conversions of `num / den`, as their formulas, and their agreement on an odd `den`. -/
def Obligations.RoundFollowsItsThreeModes : Prop :=
  ∀ num den : Nat, 0 < den →
    roundDiv num den .floor = num / den ∧
    (den ≤ 2 * (num % den) → roundDiv num den .halfUp = num / den + 1) ∧
    (2 * (num % den) < den → roundDiv num den .halfUp = num / den) ∧
    (den < 2 * (num % den) → roundDiv num den .halfEven = num / den + 1) ∧
    (2 * (num % den) < den → roundDiv num den .halfEven = num / den) ∧
    (2 * (num % den) = den → roundDiv num den .halfEven % 2 = 0 ∧
      (roundDiv num den .halfEven = num / den ∨ roundDiv num den .halfEven = num / den + 1)) ∧
    (den % 2 = 1 → roundDiv num den .halfUp = roundDiv num den .halfEven)

/-- R53: `REPLICATE` is the default; every mode answers a coordinate of the dimension and keeps one inside it;
`REPLICATE` clamps; `REFLECT101` has period `2n - 2` and mirrors about the edge sample; `REFLECT` has period `2n` and
mirrors the edge sample too. -/
def Obligations.BorderModesExtendTheDimension : Prop :=
  Config.Params.default.blurBorder = .replicate ∧
  ∀ (n : Nat) (i : Int), 1 ≤ n →
    (∀ mode, border mode i n < n) ∧ (∀ mode, 0 ≤ i → i < n → (border mode i n : Int) = i) ∧
    (i < 0 → border .replicate i n = 0) ∧ ((n : Int) ≤ i → border .replicate i n = n - 1) ∧
    (n = 1 → border .reflect101 i n = 0) ∧
    border .reflect101 (i + (2 * n - 2)) n = border .reflect101 i n ∧ border .reflect101 (-i) n = border .reflect101 i n ∧
    border .reflect (i + 2 * n) n = border .reflect i n ∧ border .reflect (-1 - i) n = border .reflect i n

/-- R52: `Nearest` is idempotent, so a second `QUANT` over the result of a first, with the same levels, writes the same
raster; and the decision boundaries of the default levels, no sample being equidistant between two adjacent ones. -/
def Obligations.QuantIsIdempotent : Prop :=
  (∀ (v : Nat) (ls : List Nat), ls ≠ [] → nearest (nearest v ls) ls = nearest v ls) ∧
  (∀ s t u w : State, Memory.wf s.mem = true → Memory.wf u.mem = true → s.runsAlone .quant → exec .quant s = .next t →
    u.runsAlone .quant → u.width = s.width → u.height = s.height → u.channels = s.channels → u.srcBase = s.dstBase →
    u.levelCount = s.levelCount → u.level = s.level → u.mem = t.mem → exec .quant u = .next w →
    ∀ y x c, y < s.H → x < s.W → c < s.C → destSample .quant u w y x c = destSample .quant s t y x c) ∧
  (∀ v, v < 256 →
    nearest v [0, 51, 102, 153, 204, 255] =
      (if v ≤ 25 then 0 else if v ≤ 76 then 51 else if v ≤ 127 then 102 else if v ≤ 178 then 153
       else if v ≤ 229 then 204 else 255) ∧
    ∀ j, j < 5 → absDiff ([0, 51, 102, 153, 204, 255].getD j 0) v ≠ absDiff ([0, 51, 102, 153, 204, 255].getD (j + 1) 0) v)

/-- R56: `BLUR k` writes a flat channel back unchanged, for every legal `k` and every border. -/
def Obligations.BlurKeepsFlatChannels : Prop :=
  ∀ (s t : State) (k c v : Nat), Memory.wf s.mem = true → s.runsAlone (.blur k) → exec (.blur k) s = .next t → c < s.C →
    (∀ y x, y < s.H → x < s.W → s.src y x c = v) →
    ∀ y x, y < s.H → x < s.W → (destSample (.blur k) s t y x c).toNat = v

/-- R60: every output sample of `ODITHER` is at least its input sample and at most 255. -/
def Obligations.OditherNeverDarkens : Prop :=
  ∀ (s t : State) (i : Instr), i = .odither2x2 ∨ i = .odither4x4 → Memory.wf s.mem = true → s.runsAlone i →
    exec i s = .next t →
    ∀ y x c, y < s.H → x < s.W → c < s.C →
      s.src y x c ≤ (destSample i s t y x c).toNat ∧ (destSample i s t y x c).toNat ≤ 255

/-- R78: `KUWAHARA k` returns a raster of constant channels unchanged, and one split by a vertical edge between two
flat halves, for every legal `k`, every rounding and every border parameter. -/
def Obligations.KuwaharaKeepsFlatAndSplitRasters : Prop :=
  ∀ (s t : State) (k edge : Nat) (left right : Nat → Nat), Memory.wf s.mem = true → s.runsAlone (.kuwahara k) →
    exec (.kuwahara k) s = .next t →
    (∀ y x c, y < s.H → x < s.W → c < s.C → s.src y x c = if x < edge then left c else right c) →
    ∀ y x c, y < s.H → x < s.W → c < s.C → (destSample (.kuwahara k) s t y x c).toNat = s.src y x c

/-! ## Error diffusion -/

/-- R64: the distance sums the channels left to right, and the selection is the strict scan in index order; the level
chosen is a member of the level sequence. -/
def Obligations.ScanSelectsTheFirstMinimum : Prop :=
  ∀ (s : State) (e : Scan), 1 ≤ s.NL → s.NL ≤ 16 →
    (∀ c b₀, pixelVector s e = [b₀] → levelDistance s.cfg.edArith (pixelVector s e) c =
      .abs (.sub s.cfg.edArith (.ofNat c) b₀)) ∧
    (∀ c b₀ b₁ b₂, pixelVector s e = [b₀, b₁, b₂] → levelDistance s.cfg.edArith (pixelVector s e) c =
      .add s.cfg.edArith (.add s.cfg.edArith (.abs (.sub s.cfg.edArith (.ofNat c) b₀))
        (.abs (.sub s.cfg.edArith (.ofNat c) b₁))) (.abs (.sub s.cfg.edArith (.ofNat c) b₂))) ∧
    (∀ c, c < s.C → (pixelVector s e)[c]? = some (wbAt s e.wb e.y e.x c)) ∧ (pixelVector s e).length = s.C ∧
    ∃ j, j < s.NL ∧
      j = bestIndex WbNum.lt
        (fun n => levelDistance s.cfg.edArith (pixelVector s e) (s.level.toList.getD n 0).toNat) (s.NL - 1) ∧
      pixelLevel s e = (s.level.toList.getD j 0).toNat

/-- R67 with R66: one visited pixel adds `e[c] ⊗ 7/16`, `3/16`, `5/16` and `1/16` to its right, below-left, below and
below-right neighbours, each only inside the raster, and changes no other number of the buffer. -/
def Obligations.ScanSpreadsTheErrorForward : Prop :=
  ∀ (s : State) (e : Scan), scanInRange s e → e.y < s.H → e.x < s.W →
    ∀ y x c, y < s.H → x < s.W → c < s.C →
      let a := s.cfg.edArith
      let err := WbNum.sub a (wbAt s e.wb e.y e.x c) (.ofNat (pixelLevel s e))
      let share := fun w m sc => WbNum.add a w (WbNum.mul a err (.fin false m sc))
      wbAt s (nextScan s e).wb y x c =
        if y = e.y ∧ x = e.x + 1 then share (wbAt s e.wb y x c) 7 4
        else if y = e.y + 1 ∧ x + 1 = e.x then share (wbAt s e.wb y x c) 3 4
        else if y = e.y + 1 ∧ x = e.x then share (wbAt s e.wb y x c) 5 4
        else if y = e.y + 1 ∧ x = e.x + 1 then share (wbAt s e.wb y x c) 1 4
        else wbAt s e.wb y x c

/-- R63: after `n` pixels the scan is at pixel `n` in raster order, so each pixel is visited once; after the last it is
at the end of the raster. -/
def Obligations.ScanVisitsEachPixelInRasterOrder : Prop :=
  ∀ s : State, 0 < s.W →
    (∀ n, n < s.W * s.H →
      (scanAfter s n (loadScan s)).y = n / s.W ∧ (scanAfter s n (loadScan s)).x = n % s.W) ∧
    (scanAfter s (s.W * s.H) (loadScan s)).y = s.H ∧ (scanAfter s (s.W * s.H) (loadScan s)).x = 0

/-- One scan move of the engine writes the chosen level to the pixel's destination byte and advances the scan; every
other byte and everything else of the state is unchanged (43_error_diffusion.md R65, R69). An unbacked destination
address holds no byte, and the move changes none there (log entry 17). -/
def Obligations.ScanMoveWritesOnePixel : Prop :=
  ∀ (s : State) (e : Scan), s.Inv → s.scan = some e → e.y < s.H →
    scanMove s = { s with mem := (scanMove s).mem, scan := some (nextScan s e) } ∧
    (admits s.cfg (s.dstBase.toNat + (e.y * s.W + e.x)) = true →
      ((scanMove s).mem.read (s.dstBase.toNat + (e.y * s.W + e.x))).toNat = pixelLevel s e) ∧
    ∀ a, a ≠ s.dstBase.toNat + (e.y * s.W + e.x) ∨ admits s.cfg a = false → (scanMove s).mem.read a = s.mem.read a

/-- How far the engine has scanned before it completes does not show in the result: a run completed after one more
scan move is the run completed at once (20_memory.md R29, 43_error_diffusion.md R70). On unbacked bytes there is no
result, and a scan move brings none: the run stays RUNNING (20_memory.md R31, log entry 17). -/
def Obligations.ScanMovesDoNotChangeTheResult : Prop :=
  ∀ s : State, s.Inv → s.phase = .running → decode? s.cmd = some .eddither →
    (regionsAdmitted .eddither s = true → exec .eddither (scanMove s) = exec .eddither s) ∧
    (regionsAdmitted .eddither s = false →
      exec .eddither (scanMove s) = .next (scanMove s) ∧ (scanMove s).phase = .running)

/-- Under `EXACT` the four shares of an error sum to the error itself (43_error_diffusion.md R71). -/
def Obligations.ErrorSharesSumToTheError : Prop :=
  ∀ e : WbNum, numReduced e →
    WbNum.add .exact (WbNum.add .exact (WbNum.add .exact (WbNum.mul .exact e (.sixteenths 7))
      (WbNum.mul .exact e (.sixteenths 3))) (WbNum.mul .exact e (.sixteenths 5))) (WbNum.mul .exact e (.sixteenths 1)) = e

/-- `EXACT` rounds nothing: on finite numbers the operations are those of the rationals, and `<` is their order in
every arithmetic (43_error_diffusion.md R61). -/
def Obligations.ExactArithmeticIsRational : Prop :=
  ∀ (s₁ s₂ : Bool) (m₁ m₂ e₁ e₂ : Nat),
    let x := WbNum.fin s₁ m₁ e₁
    let y := WbNum.fin s₂ m₂ e₂
    numReduced (WbNum.add .exact x y) ∧ numValue (WbNum.add .exact x y) = numValue x + numValue y ∧
    numReduced (WbNum.sub .exact x y) ∧ numValue (WbNum.sub .exact x y) = numValue x - numValue y ∧
    numReduced (WbNum.mul .exact x y) ∧ numValue (WbNum.mul .exact x y) = numValue x * numValue y ∧
    numValue (WbNum.abs x) = |numValue x| ∧ (WbNum.lt x y = true ↔ numValue x < numValue y)

/-- The binary formats round to nearest, ties to even, for either sign: a finite result keeps the sign and is a number
of the format; none of the format's numbers is closer to the exact value, and where another is as close, the result is
an even multiple of their distance; the result is infinite exactly from half a last place below `2^maxExp` on; and a
number of the format below `2^maxExp` is its own result (43_error_diffusion.md R61; the IEEE definitions are general
knowledge, log entry 7). -/
def Obligations.BinaryRoundingIsToTheNearest : Prop :=
  ∀ (a : Config.EdArith) (f : Format) (neg : Bool) (mag scale : Nat), formatOf a = some f →
    (∀ sgn m e, roundFinite f neg mag scale = .fin sgn m e →
      sgn = neg ∧ formatHolds f ((m : ℚ) / 2 ^ e) ∧
      ∀ v, formatHolds f v →
        |(mag : ℚ) / 2 ^ scale - (m : ℚ) / 2 ^ e| ≤ |(mag : ℚ) / 2 ^ scale - v| ∧
        (v ≠ (m : ℚ) / 2 ^ e → |(mag : ℚ) / 2 ^ scale - (m : ℚ) / 2 ^ e| = |(mag : ℚ) / 2 ^ scale - v| →
          ∃ n : Nat, (m : ℚ) / 2 ^ e = 2 * n * |(m : ℚ) / 2 ^ e - v|)) ∧
    ((∃ m e, roundFinite f neg mag scale = .fin neg m e) ∨ roundFinite f neg mag scale = .inf neg) ∧
    (roundFinite f neg mag scale = .inf neg ↔
      (2 : ℚ) ^ f.maxExp - 2 ^ (f.maxExp - f.prec - 1) ≤ (mag : ℚ) / 2 ^ scale) ∧
    (formatHolds f ((mag : ℚ) / 2 ^ scale) → (mag : ℚ) / 2 ^ scale < 2 ^ f.maxExp →
      numValue (roundFinite f neg mag scale) = numValue (.fin neg mag scale))

/-! ## The whole machine -/

/-- Every step keeps the invariant: STATUS exclusive, raster memory canonical and backed, a running command valid, the
working buffer there exactly while an `EDDITHER` is RUNNING (10_state.md R20), whatever bytes are backed. -/
def Obligations.StepKeepsTheInvariant : Prop :=
  ∀ s t : State, s.Inv → step s = .next t → t.Inv

/-- The invariant holds after reset, for every parameter record and every canonical backed content of raster memory,
and at `State.reset`. -/
def Obligations.ResetMeetsTheInvariant : Prop :=
  (∀ (cfg : Config.Params) (mem : Memory), Memory.wf mem = true →
    (∀ q ∈ mem, q.1 < 2 ^ 32 ∧ admits cfg q.1 = true) → (State.resetWith cfg mem).Inv) ∧ State.reset.Inv

/-- A run of `EDDITHER` on a backed source that no host write has disturbed always stands where the scan of R69 stands
after some number of pixels: every step keeps it. -/
def Obligations.StepKeepsTheScanFaithful : Prop :=
  ∀ s t : State, s.Inv → s.scanFaithful → step s = .next t → t.scanFaithful

/-- No step changes the parameters of the instantiation (00_scope.md R2). -/
def Obligations.StepKeepsTheParameters : Prop :=
  ∀ s t : State, step s = .next t → t.cfg = s.cfg

/-- Who writes raster memory: a byte that a step changes is the byte a host `sb` names, or a byte of the running
command's destination region on a move that is not the host's (20_memory.md R29, R32, R34). -/
def Obligations.MemoryChangesOnlyByItsWriters : Prop :=
  ∀ s t : State, s.Inv → step s = .next t →
    ∀ a, t.mem.read a ≠ s.mem.read a →
      (inRunningDst s a = true ∧ s.agenda.head? ≠ some .host) ∨
      ((s.agenda.head? = some .host ∨ s.agenda = []) ∧
        ∃ b v, s.host.prog[s.host.pos]? = some (.sb b v) ∧ b.toNat = a)

/-- A host byte write stores its byte and marks a race exactly on a running command's regions; a host byte read returns
the byte, or while RUNNING a fresh draw for a destination byte (log entry 4), and writes nothing (20_memory.md R22, R29,
R34, R35). -/
def Obligations.HostByteAccesses : Prop :=
  ∀ (s : State) (a : BitVec 32) (v : Byte), admits s.cfg a.toNat = true → Memory.wf s.mem = true →
    (∃ t, hostStore a v s = .next t ∧ t = { s with mem := t.mem, raced := s.raced || inRunningRegions s a.toNat } ∧
      t.mem.read a.toNat = v ∧ ∀ b, b ≠ a.toNat → t.mem.read b = s.mem.read b) ∧
    (inRunningDst s a.toNat = false → hostLoad a s = .next (setT ((s.mem.read a.toNat).setWidth 32) s)) ∧
    (inRunningDst s a.toNat = true →
      hostLoad a s = .next { setT ((Config.freeByte s.draws).setWidth 32) s with draws := s.draws + 1 })

/-- R96: the reset table, from any state: every register reads its reset value, reserved slots read 0, the engine is
IDLE without a working buffer, an IDLE block's raster memory is not touched; and a START right after is rejected with
InvalidInput. -/
def Obligations.ResetPutsTheTableValues : Prop :=
  ∀ s : State,
    readReg .ctrl (resetBlock s) = 0 ∧ readReg .status (resetBlock s) = 0 ∧ readReg .cmd (resetBlock s) = 0 ∧
    readReg .width (resetBlock s) = 0 ∧ readReg .height (resetBlock s) = 0 ∧ readReg .channels (resetBlock s) = 3 ∧
    readReg .srcBase (resetBlock s) = 0 ∧ readReg .dstBase (resetBlock s) = 0 ∧
    readReg .levelCount (resetBlock s) = 6 ∧
    (∀ i : Fin 16, readReg (.level i) (resetBlock s) = ([0, 51, 102, 153, 204, 255].getD i.val 0 : Word)) ∧
    (∀ off, regAt off = none → readSlot off (resetBlock s) = 0) ∧
    (resetBlock s).phase = .idle ∧ (resetBlock s).scan = none ∧
    (s.phase = .idle → (resetBlock s).mem = s.mem) ∧
    (∃ t, startCommand (resetBlock s) = .next t ∧ rejectedWith invalidInput (resetBlock s) t)

/-- R97: a reset while RUNNING abandons the command: IDLE without DONE, each backed destination byte any value, every
other byte unchanged, the source region too; and no other step ends a run without DONE. Each 'any value' is a draw of
its own: the count of draws moves past them all, and no step moves it back (log entry 4). -/
def Obligations.ResetAbandonsARunningCommand : Prop :=
  (∀ (s : State) (i : Instr), s.phase = .running → decode? s.cmd = some i → Memory.wf s.mem = true →
    (resetBlock s).phase = .idle ∧ (resetBlock s).done = false ∧
    (∀ y x c, inDest i s y x c → admits s.cfg (dstAddr i s y x c) = true →
      destSample i s (resetBlock s) y x c = Config.freeByte (s.draws + ((y * s.W + x) * destChannels i s + c))) ∧
    (resetBlock s).draws = s.draws + s.W * s.H * destChannels i s ∧
    (∀ a, (dstRegion i s).has a = false → (resetBlock s).mem.read a = s.mem.read a) ∧
    (validate (some i) s = 0 → ∀ a, (srcRegion s).has a = true → (resetBlock s).mem.read a = s.mem.read a)) ∧
  (∀ s t : State, s.phase = .running → step s = .next t → s.agenda.head? ≠ some .reset → t.phase = .idle → t.done = true) ∧
  (∀ s t : State, step s = .next t → s.draws ≤ t.draws)

/-- The result of a command is a function of the registers and the source bytes: two runs that agree on them, and on
nothing else, write the same destination (10_state.md R21). For `EDDITHER` both runs stand at their start. -/
def Obligations.ResultDependsOnlyOnRegistersAndSource : Prop :=
  ∀ (s u t w : State) (i : Instr), Memory.wf s.mem = true → Memory.wf u.mem = true → s.runsAlone i → u.runsAlone i →
    u.cfg = s.cfg → u.width = s.width → u.height = s.height → u.channels = s.channels → u.srcBase = s.srcBase →
    u.dstBase = s.dstBase → u.levelCount = s.levelCount → u.level = s.level →
    (∀ a, (srcRegion s).has a = true → u.mem.read a = s.mem.read a) →
    (i = .eddither → s.scan = some (loadScan s) ∧ u.scan = some (loadScan u)) →
    exec i s = .next t → exec i u = .next w →
    ∀ y x c, inDest i s y x c → destSample i u w y x c = destSample i s t y x c

/-- From an IDLE state with a valid command in CMD, the START write and then the engine's move run it: two steps end
with IDLE, DONE and no error, the source and every byte outside the destination unchanged, the registers too
(10_state.md R8, 60_exceptions.md R79, R86). -/
def Obligations.StartThenEngineRunsTheCommand : Prop :=
  ∀ (s : State) (i : Instr) (rest : List Turn), s.Inv → s.phase = .idle → i.wf = true → s.cmd = encode i →
    validate (some i) s = 0 → regionsAdmitted i s = true → s.agenda = .host :: .engine :: rest →
    s.host.prog[s.host.pos]? = some (.wr .ctrl 1) →
    ∃ t, Sys2Proof.core.run 2 s = .next t ∧
      t = { s with mem := t.mem, done := true, err := false, errcode := 0, agenda := rest, scan := none
                   host := { s.host with pos := s.host.pos + 1 } } ∧
      (∀ a, (dstRegion i s).has a = false → t.mem.read a = s.mem.read a) ∧
      (∀ a, (srcRegion s).has a = true → t.mem.read a = s.mem.read a)

/-- The `poll` loop reads STATUS and goes on at the first read with BUSY = 0, else returns to its label
(30_encoding.md R48, R49, 70_reset_and_hazards.md R103). -/
def Obligations.PollLeavesAtTheFirstNotBusy : Prop :=
  ∀ (s : State) (p : Nat) (rest : List Turn), s.agenda = .host :: .host :: .host :: rest →
    (∀ j, j < 3 → s.host.prog[s.host.pos + j]? = (pollStmts p)[j]?) → labelPos s.host.prog p = some s.host.pos →
    Sys2Proof.core.run 3 s =
      .next { s with
        agenda := rest
        host := { s.host with t := statusWord s, pos := if s.phase = .running then s.host.pos else s.host.pos + 3 } }

/-- `image` sets the geometry registers and nothing else of the block (30_encoding.md R49, 10_state.md R11 to R15). -/
def Obligations.ImageSetsTheGeometry : Prop :=
  ∀ (s : State) (w h c src dst : Word), s.phase = .idle → s.agenda = [] →
    (∀ j, j < 5 → s.host.prog[s.host.pos + j]? = (imageStmts w h c src dst)[j]?) →
    Sys2Proof.core.run 5 s =
      .next { s with
        width := w.setWidth 16, height := h.setWidth 16, channels := c.setWidth 2, srcBase := src, dstBase := dst
        host := { s.host with pos := s.host.pos + 5 } }

/-! ## Reads, resets and binary operations -/

/-- A host read of a register at its bus address, in either phase, puts the register into `t` and changes nothing else;
every register but STATUS reads 0 outside its field, CTRL everywhere (10_state.md R7, R8, R10 to R18). -/
def Obligations.RegisterReadsReturnTheRegister : Prop :=
  ∀ (s : State) (r : Reg),
    busRead (s.cfg.regBase + r.offset) 4 s = .next (setT (readReg r s) s) ∧
    (r ≠ .status → readReg r s &&& fieldMask r = readReg r s) ∧
    readReg .cmd s = s.cmd ∧ (readReg .width s).toNat = s.W ∧ (readReg .height s).toNat = s.H ∧
    (readReg .channels s).toNat = s.C ∧ readReg .srcBase s = s.srcBase ∧ readReg .dstBase s = s.dstBase ∧
    (readReg .levelCount s).toNat = s.NL ∧ ∀ i : Fin 16, (readReg (.level i) s).toNat = (s.level.toList.getD i 0).toNat

/-- A step on an agenda that begins with a reset answers the reset block, the agenda popped (who moves: log entry 3). The
parameters and the host agent are not the block's and stay (log entry 22, DEDUCED); an IDLE block's raster memory stays;
the draws are those of an abandoned destination (log entry 4). -/
def Obligations.ResetTurnResetsTheBlock : Prop :=
  ∀ (s : State) (rest : List Turn), s.agenda = .reset :: rest →
    ∃ t, step s = .next t ∧ t = resetBlock { s with agenda := rest } ∧
      t.agenda = rest ∧ t.cfg = s.cfg ∧ t.host = s.host ∧ t.phase = .idle ∧ t.scan = none ∧ t.raced = false ∧
      readReg .status t = 0 ∧
      (s.phase = .idle → t.mem = s.mem ∧ t.draws = s.draws) ∧
      (∀ i, s.phase = .running → decode? s.cmd = some i → t.draws = s.draws + s.W * s.H * destChannels i s)

/-- Under `BINARY64`, the default, and `BINARY32` each operation is the exact result rounded once into the format, of
24 or 53 bits; an exact zero sum is negative only when both operands are (43_error_diffusion.md R61, R68; the IEEE
definitions are general knowledge, log entry 7). -/
def Obligations.BinaryOperationsRoundTheExactResult : Prop :=
  Config.Params.default.edArith = .binary64 ∧
  formatOf .binary64 = some { prec := 53, minExp := 1074, maxExp := 1024 } ∧
  formatOf .binary32 = some { prec := 24, minExp := 149, maxExp := 128 } ∧
  ∀ (a : Config.EdArith) (f : Format) (s₁ s₂ : Bool) (m₁ m₂ e₁ e₂ : Nat), formatOf a = some f →
    let x := WbNum.fin s₁ m₁ e₁
    let y := WbNum.fin s₂ m₂ e₂
    WbNum.add a x y = roundedTo f (WbNum.add .exact x y) ∧
    WbNum.sub a x y = roundedTo f (WbNum.sub .exact x y) ∧
    WbNum.mul a x y = roundedTo f (WbNum.mul .exact x y) ∧
    (numValue x + numValue y = 0 → WbNum.add a x y = .fin (s₁ && s₂) 0 0)
end

