-- ==== Sys2Proof/Laws/Arith.lean ====
section
/-!
SUPPORT. What the shared arithmetic guarantees: `Round` brackets its quotient, `Border` stays inside its
dimension, the first-minimum scan answers a member with the least key and the first of those.
-/

namespace Sys2Proof.Machine

/-! ## Round -/

/-- The quotient rounded is the floor or one more. -/
theorem roundDiv_cases (num den : Nat) (mode : Config.Rounding) :
    roundDiv num den mode = num / den ∨ roundDiv num den mode = num / den + 1 := by
  cases mode with
  | floor => exact .inl rfl
  | halfUp => simp only [roundDiv]; split <;> simp
  | halfEven =>
    simp only [roundDiv]
    have := Nat.mod_two_eq_zero_or_one (num / den)
    split
    · simp
    · split <;> omega

/-- A multiple is not rounded. -/
theorem roundDiv_mul {den : Nat} (h : 0 < den) (v : Nat) (mode : Config.Rounding) :
    roundDiv (den * v) den mode = v := by
  cases mode <;> simp [roundDiv, Nat.mul_div_cancel_left v h, Nat.ne_of_gt h, h]

/-- A remainder that is 0 is not rounded up. -/
theorem roundDiv_of_mod_eq_zero {num den : Nat} (h : 0 < den) (hm : num % den = 0) (mode : Config.Rounding) :
    roundDiv num den mode = num / den := by
  obtain ⟨v, rfl⟩ := Nat.dvd_of_mod_eq_zero hm
  rw [roundDiv_mul h, Nat.mul_div_cancel_left v h]

/-- A quotient of at most `M` rounds to at most `M`. -/
theorem roundDiv_le {num den M : Nat} (h : 0 < den) (hM : num ≤ den * M) (mode : Config.Rounding) :
    roundDiv num den mode ≤ M := by
  have hq : num / den ≤ M := Nat.div_le_of_le_mul hM
  rcases Nat.lt_or_ge (num / den) M with hlt | hge
  · rcases roundDiv_cases num den mode with he | he <;> omega
  · have hmod : num % den = 0 := by
      have hd := Nat.div_add_mod num den
      have : den * M ≤ den * (num / den) := Nat.mul_le_mul_left den hge
      omega
    rw [roundDiv_of_mod_eq_zero h hmod]
    exact hq

/-- A quotient of at least `m` rounds to at least `m`. -/
theorem le_roundDiv {num den m : Nat} (h : 0 < den) (hm : den * m ≤ num) (mode : Config.Rounding) :
    m ≤ roundDiv num den mode := by
  have hq : m ≤ num / den := (Nat.le_div_iff_mul_le h).2 (by rwa [Nat.mul_comm])
  rcases roundDiv_cases num den mode with he | he <;> omega

/-! ## Border -/

/-- A border-extended coordinate lies in its dimension. -/
theorem border_lt (mode : Config.Border) (i : Int) {n : Nat} (h : 0 < n) : border mode i n < n := by
  cases mode with
  | replicate => simp only [border]; omega
  | reflect101 =>
    simp only [border]
    by_cases hn : n = 1
    · rw [if_pos hn]; exact h
    · rw [if_neg hn]
      have h₁ := Int.emod_nonneg i (b := 2 * (n : Int) - 2) (by omega)
      have h₂ := Int.emod_lt_of_pos i (b := 2 * (n : Int) - 2) (by omega)
      split <;> omega
  | reflect =>
    simp only [border]
    have h₁ := Int.emod_nonneg i (b := 2 * (n : Int)) (by omega)
    have h₂ := Int.emod_lt_of_pos i (b := 2 * (n : Int)) (by omega)
    split <;> omega

/-- A coordinate inside its dimension is itself. -/
theorem border_of_lt (mode : Config.Border) {i n : Nat} (h : i < n) : border mode i n = i := by
  cases mode with
  | replicate => simp only [border]; omega
  | reflect101 =>
    simp only [border]
    by_cases hn : n = 1
    · rw [if_pos hn]; omega
    · have hm : (i : Int) % (2 * (n : Int) - 2) = i := Int.emod_eq_of_lt (by omega) (by omega)
      rw [if_neg hn, hm, if_pos (by omega)]
      omega
  | reflect =>
    have hm : (i : Int) % (2 * (n : Int)) = i := Int.emod_eq_of_lt (by omega) (by omega)
    simp only [border, hm]
    rw [if_pos (by omega)]
    omega

/-! ## The first minimum -/

section FirstMin

variable {α β : Type}

theorem firstMin_mem (lt : β → β → Bool) (key : α → β) (first : α) (rest : List α) :
    firstMin lt key first rest ∈ first :: rest := by
  induction rest generalizing first with
  | nil => simp [firstMin]
  | cons x rest ih =>
    show firstMin lt key (if lt (key x) (key first) then x else first) rest ∈ _
    cases lt (key x) (key first)
    · rcases List.mem_cons.1 (ih first) with h | h
      · exact List.mem_cons.2 (.inl h)
      · exact List.mem_cons_of_mem _ (List.mem_cons_of_mem _ h)
    · exact List.mem_cons_of_mem _ (ih x)

/-- The scan's answer, with its index: no key is less, and every earlier one is greater. -/
theorem firstMin_spec [LinearOrder β] (key : α → β) (first : α) (rest : List α) :
    ∃ j : Nat, (first :: rest)[j]? = some (firstMin (fun a b : β => decide (a < b)) key first rest) ∧
      ∀ (i : Nat) x, (first :: rest)[i]? = some x →
        key (firstMin (fun a b : β => decide (a < b)) key first rest) ≤ key x ∧
        (i < j → key (firstMin (fun a b : β => decide (a < b)) key first rest) < key x) := by
  induction rest using List.reverseRecOn with
  | nil =>
    refine ⟨0, by simp [firstMin], ?_⟩
    intro i x hx
    cases i <;> simp_all [firstMin]
  | append_singleton rest z ih =>
    obtain ⟨j, hj, hmin⟩ := ih
    have hfold : firstMin (fun a b : β => decide (a < b)) key first (rest ++ [z]) =
        if key z < key (firstMin (fun a b : β => decide (a < b)) key first rest) then z
        else firstMin (fun a b : β => decide (a < b)) key first rest := by
      simp [firstMin, List.foldl_append]
    have hlen : j < (first :: rest).length := by
      by_contra hn
      rw [List.getElem?_eq_none (by omega)] at hj
      exact absurd hj (by simp)
    rw [hfold, ← List.cons_append]
    by_cases hz : key z < key (firstMin (fun a b : β => decide (a < b)) key first rest)
    · rw [if_pos hz]
      refine ⟨(first :: rest).length, by simp, ?_⟩
      intro i x hx
      rcases Nat.lt_or_ge i (first :: rest).length with hi | hi
      · rw [List.getElem?_append_left hi] at hx
        have := lt_of_lt_of_le hz (hmin i x hx).1
        exact ⟨le_of_lt this, fun _ => this⟩
      · rw [List.getElem?_append_right hi, List.getElem?_singleton] at hx
        split at hx <;> simp_all
    · rw [if_neg hz]
      refine ⟨j, by rw [List.getElem?_append_left hlen]; exact hj, ?_⟩
      intro i x hx
      rcases Nat.lt_or_ge i (first :: rest).length with hi | hi
      · rw [List.getElem?_append_left hi] at hx
        exact hmin i x hx
      · rw [List.getElem?_append_right hi, List.getElem?_singleton] at hx
        split at hx
        · simp only [Option.some.injEq] at hx
          subst hx
          exact ⟨le_of_not_gt hz, fun h => absurd h (by omega)⟩
        · simp at hx

/-- The answer's key is the least. -/
theorem firstMin_le [LinearOrder β] (key : α → β) (first : α) (rest : List α) {x : α} (hx : x ∈ first :: rest) :
    key (firstMin (fun a b : β => decide (a < b)) key first rest) ≤ key x := by
  obtain ⟨j, -, h⟩ := firstMin_spec key first rest
  obtain ⟨i, hi⟩ := List.mem_iff_getElem?.1 hx
  exact (h i x hi).1

end FirstMin

end Sys2Proof.Machine
end

