-- ==== Sys2Proof/Laws/Memory.lean ====
section
/-!
SUPPORT. Raster memory: read after write, the canonical form kept, equal reads mean equal data.
-/

namespace Sys2Proof.Machine

@[simp] theorem Memory.read_nil (a : Nat) : Memory.read [] a = Memory.fill := rfl

theorem Memory.read_cons (b : Nat) (v : Byte) (m : Memory) (a : Nat) :
    Memory.read ((b, v) :: m) a = if b = a then v else Memory.read m a := rfl

/-- In a memory whose addresses all lie above `a`, the byte at `a` is unlisted. -/
theorem Memory.read_of_lt {m : Memory} {a : Nat} (h : ∀ q ∈ m, a < q.1) : m.read a = Memory.fill := by
  induction m with
  | nil => rfl
  | cons q m ih =>
    obtain ⟨b, v⟩ := q
    have hb : a < b := h (b, v) (by simp)
    rw [Memory.read_cons, if_neg (by omega)]
    exact ih fun q hq => h q (by simp [hq])

/-- The canonical form, one entry at a time. -/
theorem Memory.wf_cons {b : Nat} {v : Byte} {m : Memory} :
    Memory.wf ((b, v) :: m) = true ↔ v ≠ Memory.fill ∧ (∀ q ∈ m, b < q.1) ∧ Memory.wf m = true := by
  induction m generalizing b v with
  | nil => simp [Memory.wf]
  | cons q m ih =>
    obtain ⟨c, u⟩ := q
    have hc := ih (b := c) (v := u)
    simp only [Memory.wf, Bool.and_eq_true, bne_iff_ne, decide_eq_true_eq, hc, List.mem_cons, forall_eq_or_imp]
    constructor
    · rintro ⟨⟨hv, hbc⟩, hu, hlt, hm⟩
      exact ⟨hv, ⟨hbc, fun q hq => by have := hlt q hq; omega⟩, hu, hlt, hm⟩
    · rintro ⟨hv, ⟨hbc, -⟩, hu, hlt, hm⟩
      exact ⟨⟨hv, hbc⟩, hu, hlt, hm⟩

/-- The addresses a write can list: the ones listed before and the one written. -/
theorem Memory.mem_write {m : Memory} {a : Nat} {v : Byte} {q : Host.Cell} (h : q ∈ m.write a v) :
    q ∈ m ∨ q = (a, v) := by
  induction m with
  | nil =>
    simp only [Memory.write] at h
    split at h <;> simp_all
  | cons p m ih =>
    obtain ⟨b, u⟩ := p
    simp only [Memory.write] at h
    split at h
    · split at h
      · exact .inl h
      · rcases List.mem_cons.1 h with h | h
        · exact .inr h
        · exact .inl h
    · split at h
      · split at h
        · exact .inl (List.mem_cons_of_mem _ h)
        · rcases List.mem_cons.1 h with h | h
          · exact .inr h
          · exact .inl (List.mem_cons_of_mem _ h)
      · rcases List.mem_cons.1 h with h | h
        · simp [h]
        · rcases ih h with h | h <;> simp [h]

/-- A write keeps the canonical form. -/
theorem Memory.wf_write {m : Memory} (a : Nat) (v : Byte) (h : m.wf = true) : (m.write a v).wf = true := by
  induction m with
  | nil =>
    simp only [Memory.write]
    split <;> simp_all [Memory.wf]
  | cons p m ih =>
    obtain ⟨b, u⟩ := p
    obtain ⟨hu, hlt, hm⟩ := Memory.wf_cons.1 h
    simp only [Memory.write]
    split
    · split
      · exact h
      · refine Memory.wf_cons.2 ⟨by assumption, fun q hq => ?_, h⟩
        rcases List.mem_cons.1 hq with rfl | hq
        · assumption
        · have := hlt q hq; omega
    · split
      · split
        · exact hm
        · subst_vars
          exact Memory.wf_cons.2 ⟨by assumption, hlt, hm⟩
      · refine Memory.wf_cons.2 ⟨hu, fun q hq => ?_, ih hm⟩
        rcases Memory.mem_write hq with hq | rfl
        · exact hlt q hq
        · show b < a
          omega

/-- What a read gives after a write of a canonical memory. -/
theorem Memory.read_write {m : Memory} (h : m.wf = true) (a : Nat) (v : Byte) (x : Nat) :
    (m.write a v).read x = if x = a then v else m.read x := by
  induction m with
  | nil =>
    by_cases hx : x = a
    · by_cases hv : v = Memory.fill <;> simp [Memory.write, hv, hx, Memory.read_cons]
    · have hx' : ¬ a = x := fun h => hx h.symm
      by_cases hv : v = Memory.fill <;> simp [Memory.write, hv, hx, hx', Memory.read_cons]
  | cons p m ih =>
    obtain ⟨b, u⟩ := p
    obtain ⟨hu, hlt, hm⟩ := Memory.wf_cons.1 h
    rcases Nat.lt_trichotomy a b with hab | hab | hab
    · have hnot : Memory.read ((b, u) :: m) a = Memory.fill := by
        refine Memory.read_of_lt fun q hq => ?_
        rcases List.mem_cons.1 hq with rfl | hq
        · exact hab
        · have := hlt q hq; omega
      rw [Memory.write, if_pos hab]
      by_cases hx : x = a
      · subst hx
        by_cases hv : v = Memory.fill
        · rw [if_pos hv, if_pos rfl, hnot, hv]
        · rw [if_neg hv, if_pos rfl, Memory.read_cons, if_pos rfl]
      · rw [if_neg hx]
        by_cases hv : v = Memory.fill
        · rw [if_pos hv]
        · rw [if_neg hv, Memory.read_cons, if_neg fun h => hx h.symm]
    · subst hab
      have hnot : Memory.read m a = Memory.fill := Memory.read_of_lt hlt
      rw [Memory.write, if_neg (lt_irrefl a), if_pos rfl]
      by_cases hx : x = a
      · subst hx
        by_cases hv : v = Memory.fill
        · rw [if_pos hv, if_pos rfl, hnot, hv]
        · rw [if_neg hv, if_pos rfl, Memory.read_cons, if_pos rfl]
      · have hx' : ¬ a = x := fun h => hx h.symm
        rw [if_neg hx, Memory.read_cons, if_neg hx']
        by_cases hv : v = Memory.fill
        · rw [if_pos hv]
        · rw [if_neg hv, Memory.read_cons, if_neg hx']
    · rw [Memory.write, if_neg (by omega), if_neg (by omega), Memory.read_cons, Memory.read_cons, ih hm]
      by_cases hb : b = x
      · rw [if_pos hb, if_pos hb, if_neg (by omega)]
      · rw [if_neg hb, if_neg hb]

/-- Canonical memories that read alike are equal data. -/
theorem Memory.ext_read {m n : Memory} (hm : m.wf = true) (hn : n.wf = true)
    (h : ∀ a, m.read a = n.read a) : m = n := by
  induction m generalizing n with
  | nil =>
    cases n with
    | nil => rfl
    | cons q n =>
      obtain ⟨b, u⟩ := q
      have := h b
      simp only [Memory.read_cons, Memory.read_nil, if_true] at this
      exact absurd this.symm (Memory.wf_cons.1 hn).1
  | cons p m ih =>
    obtain ⟨b, u⟩ := p
    obtain ⟨hu, hlt, hm'⟩ := Memory.wf_cons.1 hm
    cases n with
    | nil =>
      have := h b
      simp only [Memory.read_cons, Memory.read_nil, if_true] at this
      exact absurd this hu
    | cons q n =>
      obtain ⟨c, w⟩ := q
      obtain ⟨hw, hlt', hn'⟩ := Memory.wf_cons.1 hn
      have hbc : b = c := by
        rcases Nat.lt_trichotomy b c with hlt₁ | heq | hlt₁
        · have hb := h b
          rw [Memory.read_cons, if_pos rfl, Memory.read_of_lt (m := (c, w) :: n)] at hb
          · exact absurd hb hu
          · intro q hq
            rcases List.mem_cons.1 hq with rfl | hq
            · exact hlt₁
            · have := hlt' q hq; omega
        · exact heq
        · have hc := h c
          rw [Memory.read_cons (b := c), if_pos rfl, Memory.read_of_lt (m := (b, u) :: m)] at hc
          · exact absurd hc.symm hw
          · intro q hq
            rcases List.mem_cons.1 hq with rfl | hq
            · exact hlt₁
            · have := hlt q hq; omega
      subst hbc
      have huw : u = w := by simpa [Memory.read_cons] using h b
      subst huw
      refine congrArg _ (ih hm' hn' fun a => ?_)
      have ha := h a
      simp only [Memory.read_cons] at ha
      split at ha
      · subst_vars
        rw [Memory.read_of_lt hlt, Memory.read_of_lt hlt']
      · exact ha

/-! ## Backed writes -/

theorem storeByte_of_admits {p : Config.Params} {a : Nat} (h : admits p a = true) (m : Memory) (v : Byte) :
    storeByte p m a v = m.write a v := by simp [storeByte, h]

theorem storeByte_wf (p : Config.Params) {m : Memory} (a : Nat) (v : Byte) (h : m.wf = true) :
    (storeByte p m a v).wf = true := by
  unfold storeByte
  split
  · exact Memory.wf_write a v h
  · exact h

/-- A backed write leaves every other address as it was. -/
theorem storeByte_read_other (p : Config.Params) {m : Memory} (h : m.wf = true) {a x : Nat} (v : Byte) (hx : x ≠ a) :
    (storeByte p m a v).read x = m.read x := by
  unfold storeByte
  split
  · rw [Memory.read_write h, if_neg hx]
  · rfl

/-- A backed write lists no address but backed ones and the ones listed before. -/
theorem storeByte_mem {p : Config.Params} {m : Memory} {a : Nat} {v : Byte} {q : Host.Cell}
    (h : q ∈ storeByte p m a v) : q ∈ m ∨ (q.1 = a ∧ admits p a = true) := by
  unfold storeByte at h
  split at h
  · rcases Memory.mem_write h with h | rfl
    · exact .inl h
    · exact .inr ⟨rfl, by assumption⟩
  · exact .inl h

end Sys2Proof.Machine
end

