-- ==== Sys2Proof/Laws/Raster.lean ====
section
/-!
SUPPORT. The raster layout (20_memory.md R23) and writing a raster whole: which addresses the samples have, that
they are distinct and fill the region, and what every byte reads afterwards.
-/

namespace Sys2Proof.Machine

theorem mem_sampleCoords {W H Cn y x c : Nat} :
    (y, x, c) ∈ sampleCoords W H Cn ↔ y < H ∧ x < W ∧ c < Cn := by
  simp [sampleCoords]

/-- Dividing out one digit of a mixed-radix number. -/
theorem digits_eq {n a b r s : Nat} (hr : r < n) (hs : s < n) (h : a * n + r = b * n + s) : a = b ∧ r = s := by
  have hn : 0 < n := by omega
  have h₁ := congrArg (· / n) h
  have h₂ := congrArg (· % n) h
  simp only [Nat.mul_comm _ n, Nat.mul_add_div hn, Nat.mul_add_mod, Nat.div_eq_of_lt hr, Nat.div_eq_of_lt hs,
    Nat.mod_eq_of_lt hr, Nat.mod_eq_of_lt hs] at h₁ h₂
  omega

/-- A pixel's linear index is below the pixel count. -/
theorem pixelIndex_lt {W H y x : Nat} (hy : y < H) (hx : x < W) : y * W + x < W * H := by
  have : (y + 1) * W ≤ H * W := Nat.mul_le_mul_right W hy
  rw [Nat.mul_comm W H]
  rw [Nat.add_mul] at this
  omega

/-- Every sample of a raster lies in its region. -/
theorem rasterAddr_bounds {W H base Cn y x c : Nat} (hy : y < H) (hx : x < W) (hc : c < Cn) :
    base ≤ rasterAddr W base Cn y x c ∧ rasterAddr W base Cn y x c < base + W * H * Cn := by
  have h := pixelIndex_lt hy hx
  have : (y * W + x + 1) * Cn ≤ W * H * Cn := Nat.mul_le_mul_right Cn h
  rw [Nat.add_mul] at this
  unfold rasterAddr
  omega

/-- Distinct samples have distinct addresses. -/
theorem rasterAddr_inj {W base Cn y x c y' x' c' : Nat} (hx : x < W) (hc : c < Cn) (hx' : x' < W) (hc' : c' < Cn)
    (h : rasterAddr W base Cn y x c = rasterAddr W base Cn y' x' c') : y = y' ∧ x = x' ∧ c = c' := by
  have h₀ : (y * W + x) * Cn + c = (y' * W + x') * Cn + c' := by unfold rasterAddr at h; omega
  have h₁ := digits_eq hc hc' h₀
  have h₂ := digits_eq hx hx' h₁.1
  exact ⟨h₂.1, h₂.2, h₁.2⟩

/-- Every byte of a raster's region is a sample. -/
theorem rasterAddr_surj {W H base Cn a : Nat} (h : base ≤ a) (h' : a < base + W * H * Cn) :
    ∃ y x c, y < H ∧ x < W ∧ c < Cn ∧ a = rasterAddr W base Cn y x c := by
  have hd : a - base < W * H * Cn := by omega
  have hCn : 0 < Cn := Nat.pos_of_ne_zero fun h0 => by simp [h0] at hd
  have hp : (a - base) / Cn < W * H := Nat.div_lt_of_lt_mul (by rwa [Nat.mul_comm])
  have hW : 0 < W := Nat.pos_of_ne_zero fun h0 => by simp [h0] at hp
  refine ⟨(a - base) / Cn / W, (a - base) / Cn % W, (a - base) % Cn, ?_, Nat.mod_lt _ hW, Nat.mod_lt _ hCn, ?_⟩
  · exact Nat.div_lt_of_lt_mul hp
  · unfold rasterAddr
    have h₁ := Nat.div_add_mod' ((a - base) / Cn) W
    have h₂ := Nat.div_add_mod' (a - base) Cn
    rw [h₁]
    omega

/-! ## A list of byte writes -/

section Fold

variable {ι : Type} (p : Config.Params) (addr : ι → Nat) (value : ι → Byte)

/-- The writes of a list, one after the other. -/
def storeAll (l : List ι) (m : Memory) : Memory := l.foldl (fun m q => storeByte p m (addr q) (value q)) m

theorem storeAll_wf (l : List ι) {m : Memory} (h : m.wf = true) : (storeAll p addr value l m).wf = true := by
  induction l generalizing m with
  | nil => exact h
  | cons q l ih => exact ih (storeByte_wf p _ _ h)

theorem storeAll_mem {l : List ι} {m : Memory} {q : Host.Cell} (h : q ∈ storeAll p addr value l m) :
    q ∈ m ∨ ∃ j ∈ l, q.1 = addr j ∧ admits p (addr j) = true := by
  induction l generalizing m with
  | nil => exact .inl h
  | cons j l ih =>
    rcases ih h with h | ⟨k, hk, hq⟩
    · rcases storeByte_mem h with h | ⟨h, ha⟩
      · exact .inl h
      · exact .inr ⟨j, by simp, h, ha⟩
    · exact .inr ⟨k, by simp [hk], hq⟩

theorem storeAll_read_other {l : List ι} {m : Memory} (h : m.wf = true) {x : Nat} (hx : ∀ q ∈ l, addr q ≠ x) :
    (storeAll p addr value l m).read x = m.read x := by
  induction l generalizing m with
  | nil => rfl
  | cons q l ih =>
    show (storeAll p addr value l _).read x = _
    rw [ih (storeByte_wf p _ _ h) fun q hq => hx q (by simp [hq])]
    exact storeByte_read_other p h _ fun he => hx q (by simp) he.symm

/-- A written address reads the value of its item, where items of one address are one. -/
theorem storeAll_read {l : List ι} {m : Memory} (h : m.wf = true) {q : ι} (hq : q ∈ l)
    (hinj : ∀ k ∈ l, addr k = addr q → k = q) (ha : admits p (addr q) = true) :
    (storeAll p addr value l m).read (addr q) = value q := by
  induction l generalizing m with
  | nil => simp at hq
  | cons j l ih =>
    show (storeAll p addr value l _).read _ = _
    by_cases hl : q ∈ l
    · exact ih (storeByte_wf p _ _ h) hl fun k hk => hinj k (by simp [hk])
    · have hj : j = q := by
        rcases List.mem_cons.1 hq with h | h
        · exact h.symm
        · exact absurd h hl
      subst hj
      have hno : ∀ k ∈ l, addr k ≠ addr j := fun k hk he => hl (hinj k (List.mem_cons_of_mem _ hk) he ▸ hk)
      rw [storeAll_read_other p addr value (storeByte_wf p _ _ h) hno, storeByte_of_admits ha, Memory.read_write h, if_pos rfl]

end Fold

/-! ## Writing a raster whole -/

theorem storeRaster_eq_storeAll (p : Config.Params) (W H base Cn : Nat) (value : Nat → Nat → Nat → Byte) (m : Memory) :
    storeRaster p W H base Cn value m =
      storeAll p (fun q : Nat × Nat × Nat => rasterAddr W base Cn q.1 q.2.1 q.2.2) (fun q => value q.1 q.2.1 q.2.2)
        (sampleCoords W H Cn) m := rfl

theorem storeRaster_wf (p : Config.Params) (W H base Cn : Nat) (value : Nat → Nat → Nat → Byte) {m : Memory}
    (h : m.wf = true) : (storeRaster p W H base Cn value m).wf = true := storeAll_wf _ _ _ _ h

/-- Writing a raster lists no address but backed ones of its region and the ones listed before. -/
theorem storeRaster_mem {p : Config.Params} {W H base Cn : Nat} {value : Nat → Nat → Nat → Byte} {m : Memory}
    {q : Host.Cell} (h : q ∈ storeRaster p W H base Cn value m) :
    q ∈ m ∨ (q.1 < base + W * H * Cn ∧ admits p q.1 = true) := by
  rcases storeAll_mem _ _ _ h with h | ⟨⟨y, x, c⟩, hj, he, ha⟩
  · exact .inl h
  · obtain ⟨hy, hx, hc⟩ := mem_sampleCoords.1 hj
    exact .inr ⟨he ▸ (rasterAddr_bounds hy hx hc).2, he ▸ ha⟩

/-- A byte outside the region reads as before. -/
theorem storeRaster_read_other (p : Config.Params) {W H base Cn : Nat} (value : Nat → Nat → Nat → Byte) {m : Memory}
    (h : m.wf = true) {a : Nat} (ha : ¬ (base ≤ a ∧ a < base + W * H * Cn)) :
    (storeRaster p W H base Cn value m).read a = m.read a := by
  refine storeAll_read_other _ _ _ h ?_
  rintro ⟨y, x, c⟩ hq rfl
  obtain ⟨hy, hx, hc⟩ := mem_sampleCoords.1 hq
  exact ha (rasterAddr_bounds hy hx hc)

/-- A backed sample reads its value. -/
theorem storeRaster_read (p : Config.Params) {W H base Cn : Nat} (value : Nat → Nat → Nat → Byte) {m : Memory}
    (h : m.wf = true) {y x c : Nat} (hy : y < H) (hx : x < W) (hc : c < Cn)
    (ha : admits p (rasterAddr W base Cn y x c) = true) :
    (storeRaster p W H base Cn value m).read (rasterAddr W base Cn y x c) = value y x c := by
  refine storeAll_read p (fun q : Nat × Nat × Nat => rasterAddr W base Cn q.1 q.2.1 q.2.2)
    (fun q => value q.1 q.2.1 q.2.2) h (q := (y, x, c)) (mem_sampleCoords.2 ⟨hy, hx, hc⟩) ?_ ha
  rintro ⟨y', x', c'⟩ hk he
  obtain ⟨-, hx', hc'⟩ := mem_sampleCoords.1 hk
  obtain ⟨rfl, rfl, rfl⟩ : y' = y ∧ x' = x ∧ c' = c := rasterAddr_inj hx' hc' hx hc he
  rfl

/-- Two values that agree on every sample write the same raster. -/
theorem storeRaster_congr (p : Config.Params) {W H base Cn : Nat} {f g : Nat → Nat → Nat → Byte} (m : Memory)
    (h : ∀ y x c, y < H → x < W → c < Cn → f y x c = g y x c) :
    storeRaster p W H base Cn f m = storeRaster p W H base Cn g m := by
  unfold storeRaster
  refine List.foldl_ext _ _ _ ?_
  rintro m ⟨y, x, c⟩ hq
  obtain ⟨hy, hx, hc⟩ := mem_sampleCoords.1 hq
  simp only [h y x c hy hx hc]

/-! ## Regions -/

theorem Region.has_iff {r : Region} {a : Nat} : r.has a = true ↔ r.base ≤ a ∧ a < r.base + r.len := by
  simp [Region.has]

theorem Region.not_has_iff {r : Region} {a : Nat} : r.has a = false ↔ ¬ (r.base ≤ a ∧ a < r.base + r.len) := by
  rw [← Bool.not_eq_true, Region.has_iff]

theorem Region.pastEnd_iff {r : Region} : r.pastEnd = true ↔ 2 ^ 32 < r.base + r.len := decide_eq_true_iff

theorem Region.admitted_iff {p : Config.Params} {r : Region} :
    r.admitted p = true ↔ ∀ a, r.has a = true → admits p a = true := by
  simp only [Region.admitted, List.all_eq_true, List.mem_range, Region.has_iff]
  constructor
  · intro h a ha
    have := h (a - r.base) (by omega)
    rwa [Nat.add_sub_of_le ha.1] at this
  · intro h j hj
    exact h _ ⟨by omega, by omega⟩

/-- Two ranges meet exactly when they share a byte. -/
theorem Region.meets_iff {r q : Region} : r.meets q = true ↔ ∃ a, r.has a = true ∧ q.has a = true := by
  simp only [Region.meets, decide_eq_true_eq, Region.has_iff]
  constructor
  · intro h
    exact ⟨max r.base q.base, by omega, by omega⟩
  · rintro ⟨a, h₁, h₂⟩
    omega

end Sys2Proof.Machine
end

