-- ==== Sys2Proof/Laws/State.lean ====
section
/-!
SUPPORT. One lemma per field per update of State, true by definition, so that no proof unfolds a record update.
-/

namespace Sys2Proof.Machine

/-! ## clearStatus -/

@[simp] theorem clearStatus_cfg (s : State) : (clearStatus s).cfg = s.cfg := rfl
@[simp] theorem clearStatus_cmd (s : State) : (clearStatus s).cmd = s.cmd := rfl
@[simp] theorem clearStatus_width (s : State) : (clearStatus s).width = s.width := rfl
@[simp] theorem clearStatus_height (s : State) : (clearStatus s).height = s.height := rfl
@[simp] theorem clearStatus_channels (s : State) : (clearStatus s).channels = s.channels := rfl
@[simp] theorem clearStatus_srcBase (s : State) : (clearStatus s).srcBase = s.srcBase := rfl
@[simp] theorem clearStatus_dstBase (s : State) : (clearStatus s).dstBase = s.dstBase := rfl
@[simp] theorem clearStatus_levelCount (s : State) : (clearStatus s).levelCount = s.levelCount := rfl
@[simp] theorem clearStatus_level (s : State) : (clearStatus s).level = s.level := rfl
@[simp] theorem clearStatus_done (s : State) : (clearStatus s).done = false := rfl
@[simp] theorem clearStatus_err (s : State) : (clearStatus s).err = false := rfl
@[simp] theorem clearStatus_errcode (s : State) : (clearStatus s).errcode = 0 := rfl
@[simp] theorem clearStatus_phase (s : State) : (clearStatus s).phase = s.phase := rfl
@[simp] theorem clearStatus_scan (s : State) : (clearStatus s).scan = s.scan := rfl
@[simp] theorem clearStatus_mem (s : State) : (clearStatus s).mem = s.mem := rfl
@[simp] theorem clearStatus_raced (s : State) : (clearStatus s).raced = s.raced := rfl
@[simp] theorem clearStatus_draws (s : State) : (clearStatus s).draws = s.draws := rfl
@[simp] theorem clearStatus_host (s : State) : (clearStatus s).host = s.host := rfl
@[simp] theorem clearStatus_agenda (s : State) : (clearStatus s).agenda = s.agenda := rfl
@[simp] theorem clearStatus_W (s : State) : (clearStatus s).W = s.W := rfl
@[simp] theorem clearStatus_H (s : State) : (clearStatus s).H = s.H := rfl
@[simp] theorem clearStatus_C (s : State) : (clearStatus s).C = s.C := rfl
@[simp] theorem clearStatus_NL (s : State) : (clearStatus s).NL = s.NL := rfl

/-! ## setError -/

@[simp] theorem setError_cfg (code : BitVec 4) (s : State) : (setError code s).cfg = s.cfg := rfl
@[simp] theorem setError_cmd (code : BitVec 4) (s : State) : (setError code s).cmd = s.cmd := rfl
@[simp] theorem setError_width (code : BitVec 4) (s : State) : (setError code s).width = s.width := rfl
@[simp] theorem setError_height (code : BitVec 4) (s : State) : (setError code s).height = s.height := rfl
@[simp] theorem setError_channels (code : BitVec 4) (s : State) : (setError code s).channels = s.channels := rfl
@[simp] theorem setError_srcBase (code : BitVec 4) (s : State) : (setError code s).srcBase = s.srcBase := rfl
@[simp] theorem setError_dstBase (code : BitVec 4) (s : State) : (setError code s).dstBase = s.dstBase := rfl
@[simp] theorem setError_levelCount (code : BitVec 4) (s : State) : (setError code s).levelCount = s.levelCount := rfl
@[simp] theorem setError_level (code : BitVec 4) (s : State) : (setError code s).level = s.level := rfl
@[simp] theorem setError_done (code : BitVec 4) (s : State) : (setError code s).done = s.done := rfl
@[simp] theorem setError_err (code : BitVec 4) (s : State) : (setError code s).err = true := rfl
@[simp] theorem setError_errcode (code : BitVec 4) (s : State) : (setError code s).errcode = code := rfl
@[simp] theorem setError_phase (code : BitVec 4) (s : State) : (setError code s).phase = s.phase := rfl
@[simp] theorem setError_scan (code : BitVec 4) (s : State) : (setError code s).scan = s.scan := rfl
@[simp] theorem setError_mem (code : BitVec 4) (s : State) : (setError code s).mem = s.mem := rfl
@[simp] theorem setError_raced (code : BitVec 4) (s : State) : (setError code s).raced = s.raced := rfl
@[simp] theorem setError_draws (code : BitVec 4) (s : State) : (setError code s).draws = s.draws := rfl
@[simp] theorem setError_host (code : BitVec 4) (s : State) : (setError code s).host = s.host := rfl
@[simp] theorem setError_agenda (code : BitVec 4) (s : State) : (setError code s).agenda = s.agenda := rfl
@[simp] theorem setError_W (code : BitVec 4) (s : State) : (setError code s).W = s.W := rfl
@[simp] theorem setError_H (code : BitVec 4) (s : State) : (setError code s).H = s.H := rfl
@[simp] theorem setError_C (code : BitVec 4) (s : State) : (setError code s).C = s.C := rfl
@[simp] theorem setError_NL (code : BitVec 4) (s : State) : (setError code s).NL = s.NL := rfl

/-! ## setDone -/

@[simp] theorem setDone_cfg (s : State) : (setDone s).cfg = s.cfg := rfl
@[simp] theorem setDone_cmd (s : State) : (setDone s).cmd = s.cmd := rfl
@[simp] theorem setDone_width (s : State) : (setDone s).width = s.width := rfl
@[simp] theorem setDone_height (s : State) : (setDone s).height = s.height := rfl
@[simp] theorem setDone_channels (s : State) : (setDone s).channels = s.channels := rfl
@[simp] theorem setDone_srcBase (s : State) : (setDone s).srcBase = s.srcBase := rfl
@[simp] theorem setDone_dstBase (s : State) : (setDone s).dstBase = s.dstBase := rfl
@[simp] theorem setDone_levelCount (s : State) : (setDone s).levelCount = s.levelCount := rfl
@[simp] theorem setDone_level (s : State) : (setDone s).level = s.level := rfl
@[simp] theorem setDone_done (s : State) : (setDone s).done = true := rfl
@[simp] theorem setDone_err (s : State) : (setDone s).err = s.err := rfl
@[simp] theorem setDone_errcode (s : State) : (setDone s).errcode = s.errcode := rfl
@[simp] theorem setDone_phase (s : State) : (setDone s).phase = .idle := rfl
@[simp] theorem setDone_scan (s : State) : (setDone s).scan = s.scan := rfl
@[simp] theorem setDone_mem (s : State) : (setDone s).mem = s.mem := rfl
@[simp] theorem setDone_raced (s : State) : (setDone s).raced = s.raced := rfl
@[simp] theorem setDone_draws (s : State) : (setDone s).draws = s.draws := rfl
@[simp] theorem setDone_host (s : State) : (setDone s).host = s.host := rfl
@[simp] theorem setDone_agenda (s : State) : (setDone s).agenda = s.agenda := rfl
@[simp] theorem setDone_W (s : State) : (setDone s).W = s.W := rfl
@[simp] theorem setDone_H (s : State) : (setDone s).H = s.H := rfl
@[simp] theorem setDone_C (s : State) : (setDone s).C = s.C := rfl
@[simp] theorem setDone_NL (s : State) : (setDone s).NL = s.NL := rfl

/-! ## endRun -/

@[simp] theorem endRun_cfg (s : State) : (endRun s).cfg = s.cfg := rfl
@[simp] theorem endRun_cmd (s : State) : (endRun s).cmd = s.cmd := rfl
@[simp] theorem endRun_width (s : State) : (endRun s).width = s.width := rfl
@[simp] theorem endRun_height (s : State) : (endRun s).height = s.height := rfl
@[simp] theorem endRun_channels (s : State) : (endRun s).channels = s.channels := rfl
@[simp] theorem endRun_srcBase (s : State) : (endRun s).srcBase = s.srcBase := rfl
@[simp] theorem endRun_dstBase (s : State) : (endRun s).dstBase = s.dstBase := rfl
@[simp] theorem endRun_levelCount (s : State) : (endRun s).levelCount = s.levelCount := rfl
@[simp] theorem endRun_level (s : State) : (endRun s).level = s.level := rfl
@[simp] theorem endRun_done (s : State) : (endRun s).done = true := rfl
@[simp] theorem endRun_err (s : State) : (endRun s).err = s.err := rfl
@[simp] theorem endRun_errcode (s : State) : (endRun s).errcode = s.errcode := rfl
@[simp] theorem endRun_phase (s : State) : (endRun s).phase = .idle := rfl
@[simp] theorem endRun_scan (s : State) : (endRun s).scan = none := rfl
@[simp] theorem endRun_mem (s : State) : (endRun s).mem = s.mem := rfl
@[simp] theorem endRun_raced (s : State) : (endRun s).raced = false := rfl
@[simp] theorem endRun_draws (s : State) : (endRun s).draws = s.draws := rfl
@[simp] theorem endRun_host (s : State) : (endRun s).host = s.host := rfl
@[simp] theorem endRun_agenda (s : State) : (endRun s).agenda = s.agenda := rfl
@[simp] theorem endRun_W (s : State) : (endRun s).W = s.W := rfl
@[simp] theorem endRun_H (s : State) : (endRun s).H = s.H := rfl
@[simp] theorem endRun_C (s : State) : (endRun s).C = s.C := rfl
@[simp] theorem endRun_NL (s : State) : (endRun s).NL = s.NL := rfl

/-! ## storeDest -/

@[simp] theorem storeDest_cfg (i : Instr) (f : Nat → Nat → Nat → Byte) (s : State) : (storeDest i f s).cfg = s.cfg := rfl
@[simp] theorem storeDest_cmd (i : Instr) (f : Nat → Nat → Nat → Byte) (s : State) : (storeDest i f s).cmd = s.cmd := rfl
@[simp] theorem storeDest_width (i : Instr) (f : Nat → Nat → Nat → Byte) (s : State) : (storeDest i f s).width = s.width := rfl
@[simp] theorem storeDest_height (i : Instr) (f : Nat → Nat → Nat → Byte) (s : State) : (storeDest i f s).height = s.height := rfl
@[simp] theorem storeDest_channels (i : Instr) (f : Nat → Nat → Nat → Byte) (s : State) : (storeDest i f s).channels = s.channels := rfl
@[simp] theorem storeDest_srcBase (i : Instr) (f : Nat → Nat → Nat → Byte) (s : State) : (storeDest i f s).srcBase = s.srcBase := rfl
@[simp] theorem storeDest_dstBase (i : Instr) (f : Nat → Nat → Nat → Byte) (s : State) : (storeDest i f s).dstBase = s.dstBase := rfl
@[simp] theorem storeDest_levelCount (i : Instr) (f : Nat → Nat → Nat → Byte) (s : State) : (storeDest i f s).levelCount = s.levelCount := rfl
@[simp] theorem storeDest_level (i : Instr) (f : Nat → Nat → Nat → Byte) (s : State) : (storeDest i f s).level = s.level := rfl
@[simp] theorem storeDest_done (i : Instr) (f : Nat → Nat → Nat → Byte) (s : State) : (storeDest i f s).done = s.done := rfl
@[simp] theorem storeDest_err (i : Instr) (f : Nat → Nat → Nat → Byte) (s : State) : (storeDest i f s).err = s.err := rfl
@[simp] theorem storeDest_errcode (i : Instr) (f : Nat → Nat → Nat → Byte) (s : State) : (storeDest i f s).errcode = s.errcode := rfl
@[simp] theorem storeDest_phase (i : Instr) (f : Nat → Nat → Nat → Byte) (s : State) : (storeDest i f s).phase = s.phase := rfl
@[simp] theorem storeDest_scan (i : Instr) (f : Nat → Nat → Nat → Byte) (s : State) : (storeDest i f s).scan = s.scan := rfl
@[simp] theorem storeDest_mem (i : Instr) (f : Nat → Nat → Nat → Byte) (s : State) : (storeDest i f s).mem = storeRaster s.cfg s.W s.H s.dstBase.toNat (destChannels i s) f s.mem := rfl
@[simp] theorem storeDest_raced (i : Instr) (f : Nat → Nat → Nat → Byte) (s : State) : (storeDest i f s).raced = s.raced := rfl
@[simp] theorem storeDest_draws (i : Instr) (f : Nat → Nat → Nat → Byte) (s : State) : (storeDest i f s).draws = s.draws := rfl
@[simp] theorem storeDest_host (i : Instr) (f : Nat → Nat → Nat → Byte) (s : State) : (storeDest i f s).host = s.host := rfl
@[simp] theorem storeDest_agenda (i : Instr) (f : Nat → Nat → Nat → Byte) (s : State) : (storeDest i f s).agenda = s.agenda := rfl
@[simp] theorem storeDest_W (i : Instr) (f : Nat → Nat → Nat → Byte) (s : State) : (storeDest i f s).W = s.W := rfl
@[simp] theorem storeDest_H (i : Instr) (f : Nat → Nat → Nat → Byte) (s : State) : (storeDest i f s).H = s.H := rfl
@[simp] theorem storeDest_C (i : Instr) (f : Nat → Nat → Nat → Byte) (s : State) : (storeDest i f s).C = s.C := rfl
@[simp] theorem storeDest_NL (i : Instr) (f : Nat → Nat → Nat → Byte) (s : State) : (storeDest i f s).NL = s.NL := rfl

/-! ## freeDest -/

@[simp] theorem freeDest_cfg (i : Instr) (s : State) : (freeDest i s).cfg = s.cfg := rfl
@[simp] theorem freeDest_cmd (i : Instr) (s : State) : (freeDest i s).cmd = s.cmd := rfl
@[simp] theorem freeDest_width (i : Instr) (s : State) : (freeDest i s).width = s.width := rfl
@[simp] theorem freeDest_height (i : Instr) (s : State) : (freeDest i s).height = s.height := rfl
@[simp] theorem freeDest_channels (i : Instr) (s : State) : (freeDest i s).channels = s.channels := rfl
@[simp] theorem freeDest_srcBase (i : Instr) (s : State) : (freeDest i s).srcBase = s.srcBase := rfl
@[simp] theorem freeDest_dstBase (i : Instr) (s : State) : (freeDest i s).dstBase = s.dstBase := rfl
@[simp] theorem freeDest_levelCount (i : Instr) (s : State) : (freeDest i s).levelCount = s.levelCount := rfl
@[simp] theorem freeDest_level (i : Instr) (s : State) : (freeDest i s).level = s.level := rfl
@[simp] theorem freeDest_done (i : Instr) (s : State) : (freeDest i s).done = s.done := rfl
@[simp] theorem freeDest_err (i : Instr) (s : State) : (freeDest i s).err = s.err := rfl
@[simp] theorem freeDest_errcode (i : Instr) (s : State) : (freeDest i s).errcode = s.errcode := rfl
@[simp] theorem freeDest_phase (i : Instr) (s : State) : (freeDest i s).phase = s.phase := rfl
@[simp] theorem freeDest_scan (i : Instr) (s : State) : (freeDest i s).scan = s.scan := rfl
@[simp] theorem freeDest_mem (i : Instr) (s : State) : (freeDest i s).mem = storeRaster s.cfg s.W s.H s.dstBase.toNat (destChannels i s) (freeSample s (destChannels i s)) s.mem := rfl
@[simp] theorem freeDest_raced (i : Instr) (s : State) : (freeDest i s).raced = s.raced := rfl
@[simp] theorem freeDest_draws (i : Instr) (s : State) : (freeDest i s).draws = s.draws + (dstRegion i s).len := rfl
@[simp] theorem freeDest_host (i : Instr) (s : State) : (freeDest i s).host = s.host := rfl
@[simp] theorem freeDest_agenda (i : Instr) (s : State) : (freeDest i s).agenda = s.agenda := rfl
@[simp] theorem freeDest_W (i : Instr) (s : State) : (freeDest i s).W = s.W := rfl
@[simp] theorem freeDest_H (i : Instr) (s : State) : (freeDest i s).H = s.H := rfl
@[simp] theorem freeDest_C (i : Instr) (s : State) : (freeDest i s).C = s.C := rfl
@[simp] theorem freeDest_NL (i : Instr) (s : State) : (freeDest i s).NL = s.NL := rfl

/-! ## accept -/

@[simp] theorem accept_cfg (i : Instr) (s : State) : (accept i s).cfg = s.cfg := rfl
@[simp] theorem accept_cmd (i : Instr) (s : State) : (accept i s).cmd = s.cmd := rfl
@[simp] theorem accept_width (i : Instr) (s : State) : (accept i s).width = s.width := rfl
@[simp] theorem accept_height (i : Instr) (s : State) : (accept i s).height = s.height := rfl
@[simp] theorem accept_channels (i : Instr) (s : State) : (accept i s).channels = s.channels := rfl
@[simp] theorem accept_srcBase (i : Instr) (s : State) : (accept i s).srcBase = s.srcBase := rfl
@[simp] theorem accept_dstBase (i : Instr) (s : State) : (accept i s).dstBase = s.dstBase := rfl
@[simp] theorem accept_levelCount (i : Instr) (s : State) : (accept i s).levelCount = s.levelCount := rfl
@[simp] theorem accept_level (i : Instr) (s : State) : (accept i s).level = s.level := rfl
@[simp] theorem accept_done (i : Instr) (s : State) : (accept i s).done = false := rfl
@[simp] theorem accept_err (i : Instr) (s : State) : (accept i s).err = false := rfl
@[simp] theorem accept_errcode (i : Instr) (s : State) : (accept i s).errcode = 0 := rfl
@[simp] theorem accept_phase (i : Instr) (s : State) : (accept i s).phase = .running := rfl
@[simp] theorem accept_scan (i : Instr) (s : State) : (accept i s).scan = startScan i s := rfl
@[simp] theorem accept_mem (i : Instr) (s : State) : (accept i s).mem = s.mem := rfl
@[simp] theorem accept_raced (i : Instr) (s : State) : (accept i s).raced = false := rfl
@[simp] theorem accept_draws (i : Instr) (s : State) : (accept i s).draws = s.draws + startDraws i s := rfl
@[simp] theorem accept_host (i : Instr) (s : State) : (accept i s).host = s.host := rfl
@[simp] theorem accept_agenda (i : Instr) (s : State) : (accept i s).agenda = s.agenda := rfl
@[simp] theorem accept_W (i : Instr) (s : State) : (accept i s).W = s.W := rfl
@[simp] theorem accept_H (i : Instr) (s : State) : (accept i s).H = s.H := rfl
@[simp] theorem accept_C (i : Instr) (s : State) : (accept i s).C = s.C := rfl
@[simp] theorem accept_NL (i : Instr) (s : State) : (accept i s).NL = s.NL := rfl

/-! ## reject -/

@[simp] theorem reject_cfg (code : BitVec 4) (s : State) : (reject code s).cfg = s.cfg := rfl
@[simp] theorem reject_cmd (code : BitVec 4) (s : State) : (reject code s).cmd = s.cmd := rfl
@[simp] theorem reject_width (code : BitVec 4) (s : State) : (reject code s).width = s.width := rfl
@[simp] theorem reject_height (code : BitVec 4) (s : State) : (reject code s).height = s.height := rfl
@[simp] theorem reject_channels (code : BitVec 4) (s : State) : (reject code s).channels = s.channels := rfl
@[simp] theorem reject_srcBase (code : BitVec 4) (s : State) : (reject code s).srcBase = s.srcBase := rfl
@[simp] theorem reject_dstBase (code : BitVec 4) (s : State) : (reject code s).dstBase = s.dstBase := rfl
@[simp] theorem reject_levelCount (code : BitVec 4) (s : State) : (reject code s).levelCount = s.levelCount := rfl
@[simp] theorem reject_level (code : BitVec 4) (s : State) : (reject code s).level = s.level := rfl
@[simp] theorem reject_done (code : BitVec 4) (s : State) : (reject code s).done = false := rfl
@[simp] theorem reject_err (code : BitVec 4) (s : State) : (reject code s).err = true := rfl
@[simp] theorem reject_errcode (code : BitVec 4) (s : State) : (reject code s).errcode = code := rfl
@[simp] theorem reject_phase (code : BitVec 4) (s : State) : (reject code s).phase = s.phase := rfl
@[simp] theorem reject_scan (code : BitVec 4) (s : State) : (reject code s).scan = s.scan := rfl
@[simp] theorem reject_mem (code : BitVec 4) (s : State) : (reject code s).mem = s.mem := rfl
@[simp] theorem reject_raced (code : BitVec 4) (s : State) : (reject code s).raced = s.raced := rfl
@[simp] theorem reject_draws (code : BitVec 4) (s : State) : (reject code s).draws = s.draws := rfl
@[simp] theorem reject_host (code : BitVec 4) (s : State) : (reject code s).host = s.host := rfl
@[simp] theorem reject_agenda (code : BitVec 4) (s : State) : (reject code s).agenda = s.agenda := rfl
@[simp] theorem reject_W (code : BitVec 4) (s : State) : (reject code s).W = s.W := rfl
@[simp] theorem reject_H (code : BitVec 4) (s : State) : (reject code s).H = s.H := rfl
@[simp] theorem reject_C (code : BitVec 4) (s : State) : (reject code s).C = s.C := rfl
@[simp] theorem reject_NL (code : BitVec 4) (s : State) : (reject code s).NL = s.NL := rfl

/-! ## setT -/

@[simp] theorem setT_cfg (v : Word) (s : State) : (setT v s).cfg = s.cfg := rfl
@[simp] theorem setT_cmd (v : Word) (s : State) : (setT v s).cmd = s.cmd := rfl
@[simp] theorem setT_width (v : Word) (s : State) : (setT v s).width = s.width := rfl
@[simp] theorem setT_height (v : Word) (s : State) : (setT v s).height = s.height := rfl
@[simp] theorem setT_channels (v : Word) (s : State) : (setT v s).channels = s.channels := rfl
@[simp] theorem setT_srcBase (v : Word) (s : State) : (setT v s).srcBase = s.srcBase := rfl
@[simp] theorem setT_dstBase (v : Word) (s : State) : (setT v s).dstBase = s.dstBase := rfl
@[simp] theorem setT_levelCount (v : Word) (s : State) : (setT v s).levelCount = s.levelCount := rfl
@[simp] theorem setT_level (v : Word) (s : State) : (setT v s).level = s.level := rfl
@[simp] theorem setT_done (v : Word) (s : State) : (setT v s).done = s.done := rfl
@[simp] theorem setT_err (v : Word) (s : State) : (setT v s).err = s.err := rfl
@[simp] theorem setT_errcode (v : Word) (s : State) : (setT v s).errcode = s.errcode := rfl
@[simp] theorem setT_phase (v : Word) (s : State) : (setT v s).phase = s.phase := rfl
@[simp] theorem setT_scan (v : Word) (s : State) : (setT v s).scan = s.scan := rfl
@[simp] theorem setT_mem (v : Word) (s : State) : (setT v s).mem = s.mem := rfl
@[simp] theorem setT_raced (v : Word) (s : State) : (setT v s).raced = s.raced := rfl
@[simp] theorem setT_draws (v : Word) (s : State) : (setT v s).draws = s.draws := rfl
@[simp] theorem setT_host (v : Word) (s : State) : (setT v s).host = { s.host with t := v } := rfl
@[simp] theorem setT_agenda (v : Word) (s : State) : (setT v s).agenda = s.agenda := rfl
@[simp] theorem setT_W (v : Word) (s : State) : (setT v s).W = s.W := rfl
@[simp] theorem setT_H (v : Word) (s : State) : (setT v s).H = s.H := rfl
@[simp] theorem setT_C (v : Word) (s : State) : (setT v s).C = s.C := rfl
@[simp] theorem setT_NL (v : Word) (s : State) : (setT v s).NL = s.NL := rfl

/-! ## gotoStmt -/

@[simp] theorem gotoStmt_cfg (p : Nat) (s : State) : (gotoStmt p s).cfg = s.cfg := rfl
@[simp] theorem gotoStmt_cmd (p : Nat) (s : State) : (gotoStmt p s).cmd = s.cmd := rfl
@[simp] theorem gotoStmt_width (p : Nat) (s : State) : (gotoStmt p s).width = s.width := rfl
@[simp] theorem gotoStmt_height (p : Nat) (s : State) : (gotoStmt p s).height = s.height := rfl
@[simp] theorem gotoStmt_channels (p : Nat) (s : State) : (gotoStmt p s).channels = s.channels := rfl
@[simp] theorem gotoStmt_srcBase (p : Nat) (s : State) : (gotoStmt p s).srcBase = s.srcBase := rfl
@[simp] theorem gotoStmt_dstBase (p : Nat) (s : State) : (gotoStmt p s).dstBase = s.dstBase := rfl
@[simp] theorem gotoStmt_levelCount (p : Nat) (s : State) : (gotoStmt p s).levelCount = s.levelCount := rfl
@[simp] theorem gotoStmt_level (p : Nat) (s : State) : (gotoStmt p s).level = s.level := rfl
@[simp] theorem gotoStmt_done (p : Nat) (s : State) : (gotoStmt p s).done = s.done := rfl
@[simp] theorem gotoStmt_err (p : Nat) (s : State) : (gotoStmt p s).err = s.err := rfl
@[simp] theorem gotoStmt_errcode (p : Nat) (s : State) : (gotoStmt p s).errcode = s.errcode := rfl
@[simp] theorem gotoStmt_phase (p : Nat) (s : State) : (gotoStmt p s).phase = s.phase := rfl
@[simp] theorem gotoStmt_scan (p : Nat) (s : State) : (gotoStmt p s).scan = s.scan := rfl
@[simp] theorem gotoStmt_mem (p : Nat) (s : State) : (gotoStmt p s).mem = s.mem := rfl
@[simp] theorem gotoStmt_raced (p : Nat) (s : State) : (gotoStmt p s).raced = s.raced := rfl
@[simp] theorem gotoStmt_draws (p : Nat) (s : State) : (gotoStmt p s).draws = s.draws := rfl
@[simp] theorem gotoStmt_host (p : Nat) (s : State) : (gotoStmt p s).host = { s.host with pos := p } := rfl
@[simp] theorem gotoStmt_agenda (p : Nat) (s : State) : (gotoStmt p s).agenda = s.agenda := rfl
@[simp] theorem gotoStmt_W (p : Nat) (s : State) : (gotoStmt p s).W = s.W := rfl
@[simp] theorem gotoStmt_H (p : Nat) (s : State) : (gotoStmt p s).H = s.H := rfl
@[simp] theorem gotoStmt_C (p : Nat) (s : State) : (gotoStmt p s).C = s.C := rfl
@[simp] theorem gotoStmt_NL (p : Nat) (s : State) : (gotoStmt p s).NL = s.NL := rfl

/-! ## visitPixel -/

@[simp] theorem visitPixel_cfg (e : Scan) (s : State) : (visitPixel e s).cfg = s.cfg := rfl
@[simp] theorem visitPixel_cmd (e : Scan) (s : State) : (visitPixel e s).cmd = s.cmd := rfl
@[simp] theorem visitPixel_width (e : Scan) (s : State) : (visitPixel e s).width = s.width := rfl
@[simp] theorem visitPixel_height (e : Scan) (s : State) : (visitPixel e s).height = s.height := rfl
@[simp] theorem visitPixel_channels (e : Scan) (s : State) : (visitPixel e s).channels = s.channels := rfl
@[simp] theorem visitPixel_srcBase (e : Scan) (s : State) : (visitPixel e s).srcBase = s.srcBase := rfl
@[simp] theorem visitPixel_dstBase (e : Scan) (s : State) : (visitPixel e s).dstBase = s.dstBase := rfl
@[simp] theorem visitPixel_levelCount (e : Scan) (s : State) : (visitPixel e s).levelCount = s.levelCount := rfl
@[simp] theorem visitPixel_level (e : Scan) (s : State) : (visitPixel e s).level = s.level := rfl
@[simp] theorem visitPixel_done (e : Scan) (s : State) : (visitPixel e s).done = s.done := rfl
@[simp] theorem visitPixel_err (e : Scan) (s : State) : (visitPixel e s).err = s.err := rfl
@[simp] theorem visitPixel_errcode (e : Scan) (s : State) : (visitPixel e s).errcode = s.errcode := rfl
@[simp] theorem visitPixel_phase (e : Scan) (s : State) : (visitPixel e s).phase = s.phase := rfl
@[simp] theorem visitPixel_scan (e : Scan) (s : State) : (visitPixel e s).scan = some (nextScan s e) := rfl
@[simp] theorem visitPixel_mem (e : Scan) (s : State) : (visitPixel e s).mem = storeByte s.cfg s.mem (dstAddr .eddither s e.y e.x 0) (BitVec.ofNat 8 (pixelLevel s e)) := rfl
@[simp] theorem visitPixel_raced (e : Scan) (s : State) : (visitPixel e s).raced = s.raced := rfl
@[simp] theorem visitPixel_draws (e : Scan) (s : State) : (visitPixel e s).draws = s.draws := rfl
@[simp] theorem visitPixel_host (e : Scan) (s : State) : (visitPixel e s).host = s.host := rfl
@[simp] theorem visitPixel_agenda (e : Scan) (s : State) : (visitPixel e s).agenda = s.agenda := rfl
@[simp] theorem visitPixel_W (e : Scan) (s : State) : (visitPixel e s).W = s.W := rfl
@[simp] theorem visitPixel_H (e : Scan) (s : State) : (visitPixel e s).H = s.H := rfl
@[simp] theorem visitPixel_C (e : Scan) (s : State) : (visitPixel e s).C = s.C := rfl
@[simp] theorem visitPixel_NL (e : Scan) (s : State) : (visitPixel e s).NL = s.NL := rfl

end Sys2Proof.Machine
end

