-- ==== Sys2Proof/Laws/Command.lean ====
section
/-!
SUPPORT. The life of a command, said once: what `Validate` answers, what START does, what a completion does;
and that every command is these two transitions with its own sample rule.
-/

namespace Sys2Proof.Machine

/-! ## Validate -/

/-- `Validate` answers one of its three codes. -/
theorem validate_range (op : Option Instr) (s : State) :
    validate op s = 0 ∨ validate op s = invalidInput ∨ validate op s = invalidConfiguration := by
  unfold validate
  cases op with
  | none => dsimp only; split_ifs <;> first | exact .inr (.inl rfl) | exact .inr (.inr rfl)
  | some i =>
    dsimp only
    split_ifs <;> first | exact .inr (.inr rfl) | exact .inr (.inl rfl) | exact .inl rfl

/-- A word that is no command is never accepted. -/
theorem validate_none_ne_zero (s : State) : validate none s ≠ 0 := by
  unfold validate
  dsimp only
  split_ifs <;> decide

/-- What an accepted command may rely on (60_exceptions.md R80). -/
structure Validated (i : Instr) (s : State) : Prop where
  width    : 0 < s.W
  height   : 0 < s.H
  channels : s.C = 1 ∨ s.C = 3
  srcEnd   : s.srcBase.toNat + s.W * s.H * s.C ≤ 2 ^ 32
  kernel   : kernelLegal i = true
  levels   : usesLevels i = true → 1 ≤ s.NL ∧ s.NL ≤ 16
  dstEnd   : s.dstBase.toNat + s.W * s.H * destChannels i s ≤ 2 ^ 32
  apart    : ∀ a, (srcRegion s).has a = true → (dstRegion i s).has a = false

theorem validate_eq_zero_iff {i : Instr} {s : State} : validate (some i) s = 0 ↔ Validated i s := by
  have hm : (srcRegion s).meets (dstRegion i s) = true ↔
      ¬ ∀ a, (srcRegion s).has a = true → (dstRegion i s).has a = false := by
    rw [Region.meets_iff]; simp
  constructor
  · intro h
    unfold validate at h
    split at h <;> [exact absurd h (by decide); skip]
    split at h <;> [exact absurd h (by decide); skip]
    split at h <;> [exact absurd h (by decide); skip]
    simp only at h
    split at h <;> [exact absurd h (by decide); skip]
    split at h <;> [exact absurd h (by decide); skip]
    split at h <;> [exact absurd h (by decide); skip]
    split at h <;> [exact absurd h (by decide); skip]
    rename_i h₁ h₂ h₃ h₄ h₅ h₆ h₇
    rw [Region.pastEnd_iff] at h₃ h₆
    simp only [srcRegion, dstRegion] at h₃ h₆
    have hc : s.C = 1 ∨ s.C = 3 := by
      simp only [Config.legalChannels, List.mem_cons, List.not_mem_nil, or_false, not_not] at h₂
      exact h₂
    rw [hm, not_not] at h₇
    refine ⟨by omega, by omega, hc, by omega, by simpa using h₄, fun hu => ?_, by omega, h₇⟩
    simp only [hu, true_and, Config.levelsMax] at h₅
    omega
  · intro h
    have hs : (srcRegion s).pastEnd = false := by
      rw [← Bool.not_eq_true, Region.pastEnd_iff]
      exact Nat.not_lt.2 h.srcEnd
    have hd : (dstRegion i s).pastEnd = false := by
      rw [← Bool.not_eq_true, Region.pastEnd_iff]
      exact Nat.not_lt.2 h.dstEnd
    have hmeets : (srcRegion s).meets (dstRegion i s) = false := by
      rw [← Bool.not_eq_true, hm, not_not]; exact h.apart
    have hl : ¬ (usesLevels i = true ∧ (s.NL = 0 ∨ Config.levelsMax < s.NL)) := by
      rintro ⟨hu, hn⟩
      have := h.levels hu
      simp only [Config.levelsMax] at hn
      omega
    have hw := h.width
    have hh := h.height
    have hc : s.C ∈ Config.legalChannels := by
      simp only [Config.legalChannels, List.mem_cons, List.not_mem_nil, or_false]
      exact h.channels
    unfold validate
    rw [if_neg (by omega), if_neg (not_not.2 hc), if_neg (by simp [hs])]
    simp only
    rw [if_neg (by simp [h.kernel]), if_neg hl, if_neg (by simp [hd]), if_neg (by simp [hmeets])]

/-- `Validate` looks at registers only, and at none of STATUS. -/
theorem validate_congr {op : Option Instr} {s t : State} (hw : t.width = s.width) (hh : t.height = s.height)
    (hc : t.channels = s.channels) (hs : t.srcBase = s.srcBase) (hd : t.dstBase = s.dstBase)
    (hl : t.levelCount = s.levelCount) : validate op t = validate op s := by
  have hW : t.W = s.W := by rw [State.W, State.W, hw]
  have hH : t.H = s.H := by rw [State.H, State.H, hh]
  have hC : t.C = s.C := by rw [State.C, State.C, hc]
  have hNL : t.NL = s.NL := by rw [State.NL, State.NL, hl]
  have hsr : srcRegion t = srcRegion s := by rw [srcRegion, srcRegion, hW, hH, hC, hs]
  have hdr : ∀ i, dstRegion i t = dstRegion i s := fun i => by
    cases i <;> simp only [dstRegion, destChannels, hW, hH, hC, hd]
  unfold validate
  rw [hW, hH, hC, hNL, hsr]
  cases op with
  | none => rfl
  | some i => simp only [hdr]

/-! ## Every command is its START and its completion -/

/-- The sample rule of each command. -/
def resultSample (i : Instr) (s : State) : Nat → Nat → Nat → Byte :=
  match i with
  | .quant => quantSample s
  | .blur k => blurSample s k
  | .odither2x2 => ditherSample s matrix2
  | .odither4x4 => ditherSample s matrix4
  | .eddither => edSample s (s.scan.getD (loadScan s))
  | .kuwahara k => kuwaharaSample s k

theorem exec_eq_commandStep (i : Instr) (s : State) : exec i s = commandStep i (resultSample i s) s := by
  cases i <;> rfl

/-- While IDLE a command is its START. -/
theorem exec_idle {s : State} (i : Instr) (h : s.phase = .idle) : exec i s = .next (onStart (some i) s) := by
  rw [exec_eq_commandStep, commandStep, h]

/-- While RUNNING a command is its completion. -/
theorem exec_running {s : State} (i : Instr) (h : s.phase = .running) :
    exec i s = .next (complete i (resultSample i s) s) := by
  rw [exec_eq_commandStep, commandStep, h]

/-- A rejected START. -/
theorem onStart_reject {op : Option Instr} {s : State} (h : validate op s ≠ 0) :
    onStart op s = reject (validate op s) s := by
  unfold onStart
  exact if_pos h

/-- An accepted START. -/
theorem onStart_accept {i : Instr} {s : State} (h : validate (some i) s = 0) :
    onStart (some i) s = accept i s := by
  unfold onStart
  exact if_neg (not_not.2 h)

/-- A START is a rejection or an acceptance. -/
theorem onStart_cases (op : Option Instr) (s : State) :
    (validate op s ≠ 0 ∧ onStart op s = reject (validate op s) s) ∨
    (∃ i, op = some i ∧ validate (some i) s = 0 ∧ onStart op s = accept i s) := by
  by_cases h : validate op s = 0
  · cases op with
    | none => exact absurd h (validate_none_ne_zero s)
    | some i => exact .inr ⟨i, rfl, h, onStart_accept h⟩
  · exact .inl ⟨h, onStart_reject h⟩

/-! ## Completion -/

/-- A completion is one of three: stuck, racing, or with the rule's values. -/
theorem complete_cases (i : Instr) (f : Nat → Nat → Nat → Byte) (s : State) :
    (regionsAdmitted i s = false ∧ complete i f s = s) ∨
    (regionsAdmitted i s = true ∧ s.raced = true ∧ complete i f s = endRun (freeDest i s)) ∨
    (regionsAdmitted i s = true ∧ s.raced = false ∧ complete i f s = endRun (storeDest i f s)) := by
  unfold complete
  cases h : regionsAdmitted i s <;> cases hr : s.raced <;> simp

/-- A running command on unbacked bytes has no completing step (20_memory.md R31). -/
theorem exec_unbacked {i : Instr} {s : State} (hp : s.phase = .running) (ha : regionsAdmitted i s = false) :
    exec i s = .next s := by
  rw [exec_running i hp, complete, ha]
  rfl

/-- Every sample of the destination lies in its region. -/
theorem dstAddr_has {i : Instr} {s : State} {y x c : Nat} (h : inDest i s y x c) :
    (dstRegion i s).has (dstAddr i s y x c) = true :=
  Region.has_iff.2 (rasterAddr_bounds h.1 h.2.1 h.2.2)

/-- Every sample of the source lies in its region. -/
theorem srcAddr_has {s : State} {y x c : Nat} (hy : y < s.H) (hx : x < s.W) (hc : c < s.C) :
    (srcRegion s).has (rasterAddr s.W s.srcBase.toNat s.C y x c) = true :=
  Region.has_iff.2 (rasterAddr_bounds hy hx hc)

theorem regionsAdmitted_dst {i : Instr} {s : State} (h : regionsAdmitted i s = true) {a : Nat}
    (ha : (dstRegion i s).has a = true) : admits s.cfg a = true := by
  simp only [regionsAdmitted, Bool.and_eq_true] at h
  exact Region.admitted_iff.1 h.2 a ha

theorem regionsAdmitted_src {i : Instr} {s : State} (h : regionsAdmitted i s = true) {a : Nat}
    (ha : (srcRegion s).has a = true) : admits s.cfg a = true := by
  simp only [regionsAdmitted, Bool.and_eq_true] at h
  exact Region.admitted_iff.1 h.1 a ha

/-- What the destination reads after it was written whole on backed bytes. -/
theorem storeDest_read {i : Instr} {s : State} (f : Nat → Nat → Nat → Byte) (hm : Memory.wf s.mem = true)
    (ha : regionsAdmitted i s = true) {y x c : Nat} (h : inDest i s y x c) :
    (storeDest i f s).mem.read (dstAddr i s y x c) = f y x c :=
  storeRaster_read s.cfg f hm h.1 h.2.1 h.2.2 (regionsAdmitted_dst ha (dstAddr_has h))

/-- Every byte outside the destination reads as before. -/
theorem storeDest_read_other {i : Instr} {s : State} (f : Nat → Nat → Nat → Byte) (hm : Memory.wf s.mem = true)
    {a : Nat} (ha : (dstRegion i s).has a = false) : (storeDest i f s).mem.read a = s.mem.read a :=
  storeRaster_read_other s.cfg f hm (Region.not_has_iff.1 ha)

theorem storeDest_wf {i : Instr} {s : State} (f : Nat → Nat → Nat → Byte) (hm : Memory.wf s.mem = true) :
    Memory.wf (storeDest i f s).mem = true := storeRaster_wf _ _ _ _ _ _ hm

/-- The completion of a command that runs alone. -/
theorem complete_completedWith {i : Instr} {s : State} (f : Nat → Nat → Nat → Byte) (hm : Memory.wf s.mem = true)
    (h : s.runsAlone i) : completedWith i s f (complete i f s) := by
  obtain ⟨⟨-, -, ha⟩, hr⟩ := h
  rcases complete_cases i f s with ⟨h₁, -⟩ | ⟨-, h₁, -⟩ | ⟨-, -, he⟩
  · rw [ha] at h₁; exact absurd h₁ (by decide)
  · rw [hr] at h₁; exact absurd h₁ (by decide)
  · rw [he]
    exact ⟨⟨rfl, fun a h => storeDest_read_other f hm h⟩, fun y x c h => storeDest_read f hm ha h⟩

/-- Each command, running alone, completes with its sample rule. -/
theorem exec_completedWith {i : Instr} {s : State} (hm : Memory.wf s.mem = true) (h : s.runsAlone i) :
    ∃ t, exec i s = .next t ∧ completedWith i s (resultSample i s) t :=
  ⟨_, exec_running i h.1.1, complete_completedWith _ hm h⟩

/-- The registers a completion may change, whatever its case. -/
theorem complete_frame (i : Instr) (f : Nat → Nat → Nat → Byte) (s : State) :
    ∃ m ph sc r d dn, complete i f s = { s with mem := m, phase := ph, scan := sc, raced := r, draws := d, done := dn } := by
  rcases complete_cases i f s with ⟨-, he⟩ | ⟨-, -, he⟩ | ⟨-, -, he⟩
  · exact ⟨s.mem, s.phase, s.scan, s.raced, s.draws, s.done, he⟩
  · exact ⟨_, _, _, _, _, _, he⟩
  · exact ⟨_, _, _, _, s.draws, _, he⟩

end Sys2Proof.Machine
end

