-- ==== Sys2Proof/Laws/Decode.lean ====
section
/-!
SUPPORT. The fields of a command word as arithmetic on its number (30_encoding.md R38), for the decoder and the
encoder alike.
-/

namespace Sys2Proof

theorem opField_eq (w : Word) : opField w = w.toNat % 16 := by simp [opField, BitVec.extractLsb'_toNat]

theorem varField_eq (w : Word) : varField w = w.toNat / 2 ^ 8 % 4 := by
  simp [varField, BitVec.extractLsb'_toNat, Nat.shiftRight_eq_div_pow]

theorem kField_eq (w : Word) : kField w = w.toNat / 2 ^ 16 % 256 := by
  simp [kField, BitVec.extractLsb'_toNat, Nat.shiftRight_eq_div_pow]

/-- The K field of a word is a kernel size the format holds. -/
theorem kField_lt (w : Word) : kField w < 256 := by rw [kField_eq]; omega

/-- The reserved fields are 0 (30_encoding.md R43). -/
theorem reservedZero_iff (w : Word) :
    reservedZero w = true ↔ w.toNat / 2 ^ 24 = 0 ∧ w.toNat / 2 ^ 10 % 64 = 0 ∧ w.toNat / 2 ^ 4 % 16 = 0 := by
  have hw := w.isLt
  have high : w.extractLsb' 24 8 = 0#8 ↔ w.toNat / 2 ^ 24 = 0 := by
    rw [← BitVec.toNat_inj]
    simp [BitVec.extractLsb'_toNat, Nat.shiftRight_eq_div_pow]
    omega
  have middle : w.extractLsb' 10 6 = 0#6 ↔ w.toNat / 2 ^ 10 % 64 = 0 := by
    rw [← BitVec.toNat_inj]
    simp [BitVec.extractLsb'_toNat, Nat.shiftRight_eq_div_pow]
  have low : w.extractLsb' 4 4 = 0#4 ↔ w.toNat / 2 ^ 4 % 16 = 0 := by
    rw [← BitVec.toNat_inj]
    simp [BitVec.extractLsb'_toNat, Nat.shiftRight_eq_div_pow]
  simp only [reservedZero, Bool.and_eq_true, beq_iff_eq, high, middle, low, and_assoc]

/-- An encoded word as a number (30_encoding.md R38). -/
theorem commandWord_toNat (op : BitVec 4) (var : BitVec 2) (k : BitVec 8) :
    (commandWord op var k).toNat = op.toNat + 2 ^ 8 * var.toNat + 2 ^ 16 * k.toNat := by
  have ho := op.isLt
  have hv := var.isLt
  have hk := k.isLt
  have join : ∀ a b n : Nat, b < 2 ^ n → a * 2 ^ n ||| b = a * 2 ^ n + b := by
    intro a b n h
    rw [Nat.mul_comm, Nat.two_pow_add_eq_or_of_lt h]
  simp only [commandWord, BitVec.toNat_append, Nat.shiftLeft_eq]
  rw [join _ _ 4 ho, join _ _ 4 (by decide), join _ _ 2 hv, join _ _ 6 (by decide), join _ _ 8 hk]
  simp
  omega

theorem decode?_eq_some {w : Word} {i : Instr} : decode? w = some i ↔ decode w = .ok i := by
  unfold decode?
  split <;> rename_i h <;> simp [h]

theorem decode?_eq_none {w : Word} : decode? w = none ↔ ∃ e, decode w = .error e := by
  unfold decode?
  split <;> rename_i h <;> simp [h]

end Sys2Proof
end

