-- ==== Sys2Proof/Laws/Numbers.lean ====
section
/-!
SUPPORT. The numbers of the working buffer as rationals (43_error_diffusion.md R61): lowest terms keep the value, an
exact sum is the sum, and a rounding depends on the value alone.
-/

namespace Sys2Proof

open Machine

/-- Lowest terms are lowest terms. -/
theorem WbNum.numReduced_reduce (neg : Bool) (mag scale : Nat) : numReduced (WbNum.reduce neg mag scale) := by
  induction scale generalizing mag with
  | zero => exact .inl rfl
  | succ scale ih =>
    unfold WbNum.reduce
    split
    · exact ih _
    · exact .inr (by omega)

/-- Lowest terms keep the value. -/
theorem WbNum.numValue_reduce (neg : Bool) (mag scale : Nat) :
    numValue (WbNum.reduce neg mag scale) = numValue (.fin neg mag scale) := by
  induction scale generalizing mag with
  | zero => rfl
  | succ scale ih =>
    unfold WbNum.reduce
    split
    · rename_i h
      rw [ih]
      have hm : mag = 2 * (mag / 2) := by omega
      have hq : (mag : ℚ) = 2 * ((mag / 2 : Nat) : ℚ) := by exact_mod_cast hm
      simp only [numValue]
      rw [hq, pow_succ]
      cases neg <;> simp <;> field_simp
    · rfl

/-- A number in lowest terms is its own reduction. -/
theorem WbNum.reduce_of_numReduced {neg : Bool} {mag scale : Nat} (h : numReduced (.fin neg mag scale)) :
    WbNum.reduce neg mag scale = .fin neg mag scale := by
  cases scale with
  | zero => rfl
  | succ scale =>
    rcases h with h | h
    · omega
    · rw [WbNum.reduce, if_neg (by omega)]

/-- Lowest terms do not depend on the scale a magnitude is written at. -/
theorem WbNum.reduce_mul_two_pow (neg : Bool) (mag scale j : Nat) :
    WbNum.reduce neg (mag * 2 ^ j) (scale + j) = WbNum.reduce neg mag scale := by
  induction j with
  | zero => simp
  | succ j ih =>
    rw [← Nat.add_assoc, WbNum.reduce, if_pos (by rw [Nat.pow_succ, ← Nat.mul_assoc]; omega), Nat.pow_succ,
      ← Nat.mul_assoc, Nat.mul_div_cancel _ (by decide), ih]

/-- The sum over the common scale is the sum. -/
theorem exactSum_eq (s₁ : Bool) (m₁ e₁ : Nat) (s₂ : Bool) (m₂ e₂ : Nat) :
    (exactSum s₁ m₁ e₁ s₂ m₂ e₂ : ℚ) / 2 ^ max e₁ e₂ = numValue (.fin s₁ m₁ e₁) + numValue (.fin s₂ m₂ e₂) := by
  have h₁ : (2 : ℚ) ^ max e₁ e₂ = 2 ^ e₁ * 2 ^ (max e₁ e₂ - e₁) := by
    rw [← pow_add]
    congr 1
    omega
  have h₂ : (2 : ℚ) ^ max e₁ e₂ = 2 ^ e₂ * 2 ^ (max e₁ e₂ - e₂) := by
    rw [← pow_add]
    congr 1
    omega
  have part : ∀ (neg : Bool) (m e j : Nat),
      ((signedInt neg (m * 2 ^ j) : Int) : ℚ) / (2 ^ e * 2 ^ j) = numValue (.fin neg m e) := by
    intro neg m e j
    cases neg <;> simp [signedInt, numValue] <;> field_simp
  unfold exactSum
  rw [Int.cast_add, add_div]
  nth_rewrite 1 [h₁]
  nth_rewrite 1 [h₂]
  rw [part, part]

/-- An integer's number has its value. -/
@[simp] theorem WbNum.numValue_ofNat (n : Nat) : numValue (WbNum.ofNat n) = n := by simp [WbNum.ofNat, numValue]

/-- The four weights are written in lowest terms (43_error_diffusion.md R67). -/
theorem WbNum.sixteenths_odd {w : Nat} (h : w % 2 = 1) : WbNum.sixteenths w = .fin false w 4 :=
  WbNum.reduce_of_numReduced (.inr h)

/-! ## Rounding into a format -/

/-- A fraction's rounding does not depend on how it is written. -/
theorem roundDiv_scale (a b k : Nat) (hk : 0 < k) :
    roundDiv (a * k) (b * k) .halfEven = roundDiv a b .halfEven := by
  unfold roundDiv
  simp only
  rw [Nat.mul_div_mul_right _ _ hk, Nat.mul_mod_mul_right, ← Nat.mul_assoc]
  have h1 : b * k < 2 * (a % b) * k ↔ b < 2 * (a % b) := Nat.mul_lt_mul_right hk
  have h2 : 2 * (a % b) * k < b * k ↔ 2 * (a % b) < b := Nat.mul_lt_mul_right hk
  simp only [h1, h2]

/-- A whole quotient is its own rounding. -/
theorem roundDiv_exact (a b : Nat) (hb : 0 < b) : roundDiv (a * b) b .halfEven = a := by
  unfold roundDiv
  simp [hb]

/-- A factor `2^k` adds `k` bits. -/
theorem log2_mul_pow (m k : Nat) (hm : m ≠ 0) : Nat.log2 (m * 2 ^ k) = Nat.log2 m + k := by
  induction k with
  | zero => simp
  | succ k ih =>
    rw [Nat.pow_succ, ← Nat.mul_assoc, Nat.mul_comm _ 2, Nat.log2_two_mul (by positivity), ih]; omega

/-- Zero rounds to the zero of its sign. -/
theorem roundFinite_zero (f : Format) (neg : Bool) (s : Nat) : roundFinite f neg 0 s = .fin neg 0 0 := by
  have h0 : ∀ d, roundDiv 0 (2 ^ d) .halfEven * 2 ^ d = 0 := by intro d; simp [roundDiv]
  have hr : WbNum.reduce neg 0 s = .fin neg 0 0 := by
    induction s with
    | zero => rfl
    | succ s ih => rw [WbNum.reduce]; simpa using ih
  unfold roundFinite
  simp only [h0]
  rw [if_neg (Nat.not_le.2 (by positivity)), hr]

/-- The rounding into a format depends on the value alone, not on the scale it is written at. -/
theorem roundFinite_scale (f : Format) (neg : Bool) (m s k : Nat) :
    roundFinite f neg (m * 2 ^ k) (s + k) = roundFinite f neg m s := by
  rcases Nat.eq_zero_or_pos m with rfl | hm
  · rw [Nat.zero_mul, roundFinite_zero, roundFinite_zero]
  have key : roundDiv (m * 2 ^ k) (2 ^ droppedBits f (m * 2 ^ k) (s + k)) .halfEven *
        2 ^ droppedBits f (m * 2 ^ k) (s + k) =
      roundDiv m (2 ^ droppedBits f m s) .halfEven * 2 ^ droppedBits f m s * 2 ^ k := by
    have hd : droppedBits f (m * 2 ^ k) (s + k) = droppedBits f m s + k ∨
        droppedBits f (m * 2 ^ k) (s + k) ≤ k ∧ droppedBits f m s = 0 := by
      unfold droppedBits
      rw [log2_mul_pow _ _ (by omega)]
      omega
    rcases hd with h2 | ⟨h1, h2⟩
    · rw [h2, Nat.pow_add, roundDiv_scale _ _ _ (by positivity), Nat.mul_assoc]
    · rw [h2]
      have : m * 2 ^ k = m * 2 ^ (k - droppedBits f (m * 2 ^ k) (s + k)) * 2 ^ droppedBits f (m * 2 ^ k) (s + k) := by
        rw [Nat.mul_assoc, ← Nat.pow_add, Nat.sub_add_cancel h1]
      generalize droppedBits f (m * 2 ^ k) (s + k) = d at *
      have h3 := roundDiv_exact (m * 2 ^ (k - d)) (2 ^ d) (by positivity)
      rw [← this] at h3
      rw [h3, ← this]
      have h4 := roundDiv_exact m 1 (by decide)
      simp only [Nat.mul_one] at h4
      rw [Nat.pow_zero, h4, Nat.mul_one]
  unfold roundFinite
  simp only [key]
  rw [Nat.pow_add, ← Nat.mul_assoc, WbNum.reduce_mul_two_pow]
  simp only [Nat.mul_le_mul_right_iff (show 0 < 2 ^ k by positivity)]

/-- Lowest terms round as the number they come from. -/
theorem roundedTo_reduce (f : Format) (neg : Bool) (m s : Nat) :
    roundedTo f (WbNum.reduce neg m s) = roundFinite f neg m s := by
  induction s generalizing m with
  | zero => rfl
  | succ s ih =>
    rw [WbNum.reduce]
    split
    · rename_i h
      rw [ih]
      have := roundFinite_scale f neg (m / 2) s 1
      rw [show m / 2 * 2 ^ 1 = m by omega] at this
      exact this.symm
    · rfl

end Sys2Proof
end

