-- ==== Sys2Proof/Laws/PerInstr.lean ====
section
/-!
SUPPORT. Statements about every command as syntax, one lemma per constructor.
-/

/-! ## The family EncodeMatches: a well-formed command's word lies in its own row of the opcode table -/

namespace Sys2Proof.Laws.EncodeMatches

open Sys2Proof.Machine

/-- The row of spec/opcode_table.json of a command. -/
def row : Instr → Nat
  | .quant => 0
  | .blur _ => 1
  | .odither2x2 => 2
  | .odither4x4 => 3
  | .eddither => 4
  | .kuwahara _ => 5

/-- The word of a well-formed command matches its row, and the row's K field is its operand (30_encoding.md R45). -/
def Statement (i : Instr) : Prop :=
  i.wf = true → ∃ r, opcodeTable[row i]? = some r ∧ r.matches (encode i) ∧ r.instr ((encode i).toNat / 2 ^ 16 % 2 ^ 8) = i

theorem quant : Statement .quant := fun _ => ⟨_, rfl, by unfold OpRow.matches; decide, rfl⟩

theorem odither2x2 : Statement .odither2x2 := fun _ => ⟨_, rfl, by unfold OpRow.matches; decide, rfl⟩

theorem odither4x4 : Statement .odither4x4 := fun _ => ⟨_, rfl, by unfold OpRow.matches; decide, rfl⟩

theorem eddither : Statement .eddither := fun _ => ⟨_, rfl, by unfold OpRow.matches; decide, rfl⟩

/-- A K field byte stands in bits 23:16 of a word whose other bits are the row's. -/
theorem kernel_word (op : BitVec 4) (k : BitVec 8) :
    commandWord op 0 k &&& 0xFF00FFFF#32 = commandWord op 0 0 ∧ (commandWord op 0 k).toNat / 2 ^ 16 % 2 ^ 8 = k.toNat := by
  constructor
  · ext j hj
    simp only [commandWord, BitVec.getElem_and, BitVec.getElem_append]
    have : ∀ j (hj : j < 32), (0xFF00FFFF#32)[j] = (decide (j < 16) || decide (24 ≤ j)) := by decide
    rw [this j hj]
    by_cases h₁ : j < 16
    · simp [h₁]
      grind
    · by_cases h₂ : 24 ≤ j
      · simp [h₁, h₂]
        grind
      · simp [h₁, h₂]
        grind
  · have h := BitVec.extractLsb'_toNat 16 8 (commandWord op 0 k)
    have hk : (commandWord op 0 k).extractLsb' 16 8 = k := by
      ext j hj
      simp only [commandWord, BitVec.getElem_extractLsb', BitVec.getLsbD_append]
      grind
    rw [hk] at h
    rw [h, Nat.shiftRight_eq_div_pow]

theorem blur (k : Nat) : Statement (.blur k) := by
  intro h
  have hk : k < 256 := by simpa [Instr.wf] using h
  obtain ⟨hm, hf⟩ := kernel_word 0x2 (BitVec.ofNat 8 k)
  refine ⟨_, rfl, hm.trans (by decide), congrArg Instr.blur (hf.trans ?_)⟩
  simpa using hk

theorem kuwahara (k : Nat) : Statement (.kuwahara k) := by
  intro h
  have hk : k < 256 := by simpa [Instr.wf] using h
  obtain ⟨hm, hf⟩ := kernel_word 0x5 (BitVec.ofNat 8 k)
  refine ⟨_, rfl, hm.trans (by decide), congrArg Instr.kuwahara (hf.trans ?_)⟩
  simpa using hk

end Sys2Proof.Laws.EncodeMatches
end

