-- ==== Sys2Proof/Laws/Registers.lean ====
section
/-!
SUPPORT. The register window (10_state.md section 3): every register is found at its offset, and an aligned 32-bit
access of the window is an access of its slot.
-/

namespace Sys2Proof.Machine

/-- A register is found at its offset. -/
@[simp] theorem regAt_offset (r : Reg) : regAt r.offset = some r := by
  cases r with
  | level i => revert i; decide
  | _ => rfl

/-- A register's offset is a word slot of the window. -/
theorem Reg.offset_lt (r : Reg) : r.offset < 256 := by
  cases r with
  | level i => have := i.isLt; simp only [Reg.offset]; omega
  | _ => decide

theorem Reg.offset_aligned (r : Reg) : r.offset % 4 = 0 := by
  cases r with
  | level i => simp only [Reg.offset]; omega
  | _ => rfl

/-- The slots of the two reserved ranges name no register (10_state.md R7). -/
theorem regAt_reserved {off : Nat} (h : (0x24 ≤ off ∧ off < 0x40) ∨ (0x80 ≤ off ∧ off < 0x100)) : regAt off = none := by
  unfold regAt
  simp only [show ¬ off = 0x00 by omega, show ¬ off = 0x04 by omega, show ¬ off = 0x08 by omega,
    show ¬ off = 0x0C by omega, show ¬ off = 0x10 by omega, show ¬ off = 0x14 by omega, show ¬ off = 0x18 by omega,
    show ¬ off = 0x1C by omega, show ¬ off = 0x20 by omega, if_false]
  rw [if_neg (by omega)]

/-- An aligned 32-bit access of the window has its offset (20_memory.md R27). -/
theorem windowOffset_eq (s : State) {off : Nat} (h : off < 256) (h' : off % 4 = 0) :
    windowOffset s (s.cfg.regBase + off) 4 = .ok off := by
  unfold windowOffset
  rw [if_neg (by omega), if_neg (by omega)]
  congr 1
  omega

theorem busWrite_eq (s : State) {off : Nat} (v : Word) (h : off < 256) (h' : off % 4 = 0) :
    busWrite (s.cfg.regBase + off) 4 v s = writeSlot off v s := by
  rw [busWrite, windowOffset_eq s h h']

theorem busRead_eq (s : State) {off : Nat} (h : off < 256) (h' : off % 4 = 0) :
    busRead (s.cfg.regBase + off) 4 s = .next (setT (readSlot off s) s) := by
  rw [busRead, windowOffset_eq s h h']

/-- A write while RUNNING is ignored (10_state.md R18). -/
theorem writeSlot_running {s : State} (off : Nat) (v : Word) (h : s.phase = .running) : writeSlot off v s = .next s := by
  rw [writeSlot, h]

/-- A write of a register other than CTRL while IDLE stores. -/
theorem writeSlot_reg {s : State} {r : Reg} (v : Word) (h : s.phase = .idle) (hr : r ≠ .ctrl) :
    writeSlot r.offset v s = .next (writeReg r v s) := by
  unfold writeSlot
  rw [h, regAt_offset]
  cases r <;> first | rfl | exact absurd rfl hr

/-- One level entry of the table after a write of another or the same. -/
theorem level_set (l : Vector Byte 16) (i j : Fin 16) (v : Byte) :
    (l.set i.val v i.isLt)[j] = if i = j then v else l[j] := by
  have h := Vector.getElem_set (xs := l) (x := v) i.isLt j.isLt
  simp only [Fin.getElem_fin, h, Fin.ext_iff]

end Sys2Proof.Machine
end

