-- ==== Sys2Proof/Laws/Samples.lean ====
section
/-!
SUPPORT. The sums, levels and thresholds behind the sample rules, in the closed forms the statements use.
-/

namespace Sys2Proof.Machine

/-- A source sample is a byte. -/
theorem src_le (s : State) (y x c : Nat) : s.src y x c ≤ 255 := by
  have := (s.mem.read (rasterAddr s.W s.srcBase.toNat s.C y x c)).isLt
  unfold State.src
  omega

/-! ## Levels (10_state.md R16, R17) -/

theorem levelSeq_length {s : State} (h : s.NL ≤ 16) : (levelSeq s).length = s.NL := by
  simp [levelSeq]
  omega

theorem levelSeq_getElem? {s : State} (h : s.NL ≤ 16) {j : Nat} (hj : j < s.NL) :
    (levelSeq s)[j]? = some (s.level.toList.getD j 0).toNat := by
  have h16 : j < s.level.toList.length := by simp; omega
  simp only [levelSeq, List.getElem?_map, List.getElem?_take, hj, if_true, List.getD]
  rw [List.getElem?_eq_getElem h16]
  rfl

/-- Every level of the sequence is a byte. -/
theorem levelSeq_le {s : State} {v : Nat} (h : v ∈ levelSeq s) : v ≤ 255 := by
  simp only [levelSeq, List.mem_map] at h
  obtain ⟨b, -, rfl⟩ := h
  have := b.isLt
  omega

/-- `Nearest` answers a level. -/
theorem nearest_mem {v : Nat} {ls : List Nat} (h : ls ≠ []) : nearest v ls ∈ ls := by
  cases ls with
  | nil => exact absurd rfl h
  | cons l rest =>
    exact firstMin_mem (fun a b => decide (a < b)) (fun lv => absDiff lv v) l rest

/-! ## Sums of a neighbourhood -/

theorem list_sum_range (n : Nat) (f : Nat → Nat) : ((List.range n).map f).sum = ∑ i ∈ Finset.range n, f i := by
  induction n with
  | zero => simp
  | succ n ih => rw [List.range_succ, List.map_append, List.sum_append, ih, Finset.sum_range_succ]; simp

theorem list_sum_range_int (n : Nat) (f : Nat → Int) : ((List.range n).map f).sum = ∑ i ∈ Finset.range n, f i := by
  induction n with
  | zero => simp
  | succ n ih => rw [List.range_succ, List.map_append, List.sum_append, ih, Finset.sum_range_succ]; simp

/-- The blur's sum is that of the window centred on the pixel (41_blur.md R54). -/
theorem blurSum_eq_windowSum (s : State) (k y x c : Nat) :
    blurSum s k y x c =
      windowSum s s.cfg.blurBorder k ((y : Int) - ((k - 1) / 2 : Nat)) ((x : Int) - ((k - 1) / 2 : Nat)) c id := by
  unfold blurSum windowSum kernelOffsets
  rw [List.map_map, list_sum_range]
  refine Finset.sum_congr rfl fun i _ => ?_
  simp only [Function.comp, List.map_map, list_sum_range]
  refine Finset.sum_congr rfl fun j _ => ?_
  rw [id, show (y : Int) + ((i : Int) - ((k - 1) / 2 : Nat)) = (y : Int) - ((k - 1) / 2 : Nat) + i by ring,
    show (x : Int) + ((j : Int) - ((k - 1) / 2 : Nat)) = (x : Int) - ((k - 1) / 2 : Nat) + j by ring]

/-- A window of bytes sums to at most `255 * k²` (41_blur.md R54). -/
theorem windowSum_le (s : State) (mode : Config.Border) (k : Nat) (r₀ c₀ : Int) (c : Nat) :
    windowSum s mode k r₀ c₀ c id ≤ k * k * 255 := by
  unfold windowSum
  refine (Finset.sum_le_card_nsmul _ _ (k * 255) fun i _ => ?_).trans ?_
  · refine (Finset.sum_le_card_nsmul _ _ 255 fun j _ => src_le s _ _ _).trans ?_
    simp
  · simp [Nat.mul_assoc]

/-! ## Thresholds (42_ordered_dither.md R57) -/

theorem threshold_matrix2 (y x : Nat) : threshold matrix2 y x = [0, 8, 12, 4].getD (y % 2 * 2 + x % 2) 0 := by
  have h : ∀ a b : Fin 2, (matrix2.getD a []).getD b 0 = [0, 8, 12, 4].getD (a.val * 2 + b.val) 0 := by decide
  exact h ⟨y % 2, by omega⟩ ⟨x % 2, by omega⟩

theorem threshold_matrix4 (y x : Nat) :
    threshold matrix4 y x = [0, 8, 2, 10, 12, 4, 14, 6, 3, 11, 1, 9, 15, 7, 13, 5].getD (y % 4 * 4 + x % 4) 0 := by
  have h : ∀ a b : Fin 4, (matrix4.getD a []).getD b 0 =
      [0, 8, 2, 10, 12, 4, 14, 6, 3, 11, 1, 9, 15, 7, 13, 5].getD (a.val * 4 + b.val) 0 := by decide
  exact h ⟨y % 4, by omega⟩ ⟨x % 4, by omega⟩

/-! ## Quadrants (44_kuwahara.md R72, R73) -/

/-- The quadrant of an evaluation index. -/
def quadrantOf : Fin 4 → Quadrant
  | 0 => .topLeft
  | 1 => .topRight
  | 2 => .bottomLeft
  | 3 => .bottomRight

theorem quadrantSamples_sum (s : State) (k y x c : Nat) (r : Fin 4) (f : Nat → Nat) :
    ((quadrantSamples s k y x (quadrantOf r) c).map f).sum =
      windowSum s .replicate k (corner k y x r).1 (corner k y x r).2 c f := by
  unfold quadrantSamples windowSum
  rw [List.map_flatMap, List.flatMap_def, List.sum_flatten, List.map_map, list_sum_range]
  refine Finset.sum_congr rfl fun i _ => ?_
  simp only [Function.comp, List.map_map, list_sum_range]
  refine Finset.sum_congr rfl fun j _ => ?_
  match r with
  | 0 => rfl
  | 1 => rfl
  | 2 => rfl
  | 3 => rfl

theorem sum1_eq_windowSum (s : State) (k y x c : Nat) (r : Fin 4) :
    sum1 s k y x (quadrantOf r) c = windowSum s .replicate k (corner k y x r).1 (corner k y x r).2 c id := by
  rw [← quadrantSamples_sum]
  simp [sum1]

theorem varianceKey_eq_cornerKey (s : State) (k y x : Nat) (r : Fin 4) :
    varianceKey s k y x (quadrantOf r) = cornerKey s k y x r := by
  unfold varianceKey cornerKey
  rw [list_sum_range_int]
  refine Finset.sum_congr rfl fun c _ => ?_
  rw [sum1_eq_windowSum, sum2, quadrantSamples_sum]
  push_cast
  ring

end Sys2Proof.Machine
end

