-- ==== Sys2Proof/Laws/Scan.lean ====
section
/-!
SUPPORT. The scan of `EDDITHER` (43_error_diffusion.md R62 to R69): its buffer keeps its length, its position is the
raster position of the pixel count, its levels are listed one pixel at a time, and it reads no raster memory once its
buffer is loaded.
-/

namespace Sys2Proof.Machine

/-! ## The working buffer -/

theorem sampleCoords_length (W H Cn : Nat) : (sampleCoords W H Cn).length = W * H * Cn := by
  simp [sampleCoords, List.length_flatMap, Nat.mul_comm, Nat.mul_left_comm]

@[simp] theorem addShare_length (s : State) (err : List WbNum) (ty tx w : Nat) (wb : List WbNum) :
    (addShare s err ty tx w wb).length = wb.length := by
  unfold addShare
  generalize List.range s.C = l
  induction l generalizing wb with
  | nil => rfl
  | cons c l ih => rw [List.foldl_cons, ih, List.length_set]

@[simp] theorem diffuse_length (s : State) (err : List WbNum) (y x : Nat) (wb : List WbNum) :
    (diffuse s err y x wb).length = wb.length := by
  unfold diffuse
  generalize forwardNeighbours y x = l
  induction l generalizing wb with
  | nil => rfl
  | cons t l ih =>
    rw [List.foldl_cons, ih]
    split
    · exact addShare_length ..
    · rfl

@[simp] theorem nextScan_wb_length (s : State) (e : Scan) : (nextScan s e).wb.length = e.wb.length := diffuse_length ..

/-- A visited pixel leaves the scan at a pixel or at the end. -/
theorem nextScan_inRange {s : State} {e : Scan} (hW : 0 < s.W) (h : scanInRange s e) (hy : e.y < s.H) :
    scanInRange s (nextScan s e) := by
  obtain ⟨hl, hp⟩ := h
  refine ⟨by rw [nextScan_wb_length, hl], ?_⟩
  simp only [nextScan]
  split <;> omega

/-- A loaded scan is in range. -/
theorem loadScan_inRange {s : State} (hW : 0 < s.W) (hH : 0 < s.H) : scanInRange s (loadScan s) :=
  ⟨by simp [loadScan, sampleCoords_length], .inl ⟨hH, hW⟩⟩

/-- A visited pixel adds one to the count. -/
theorem visited_nextScan {s : State} {e : Scan} (hx : e.x < s.W) : visited s (nextScan s e) = visited s e + 1 := by
  simp only [visited, nextScan]
  split
  · omega
  · rw [Nat.add_mul]
    omega

/-! ## After a number of pixels -/

@[simp] theorem scanAfter_zero (s : State) (e : Scan) : scanAfter s 0 e = e := rfl

theorem scanAfter_succ (s : State) (n : Nat) (e : Scan) : scanAfter s (n + 1) e = nextScan s (scanAfter s n e) := by
  induction n generalizing e with
  | zero => rfl
  | succ n ih => exact ih (nextScan s e)

theorem scanAfter_add (s : State) (m n : Nat) (e : Scan) : scanAfter s (m + n) e = scanAfter s n (scanAfter s m e) := by
  induction m generalizing e with
  | zero => rw [Nat.zero_add]; rfl
  | succ m ih =>
    rw [Nat.succ_add]
    exact ih (nextScan s e)

@[simp] theorem scanLevels_length (s : State) (n : Nat) (e : Scan) : (scanLevels s n e).length = n := by
  induction n generalizing e with
  | zero => rfl
  | succ n ih => exact congrArg (· + 1) (ih _)

/-- The listed levels are those of the pixels in order. -/
theorem scanLevels_getD {s : State} {n j : Nat} (h : j < n) (e : Scan) :
    (scanLevels s n e).getD j 0 = pixelLevel s (scanAfter s j e) := by
  induction n generalizing j e with
  | zero => omega
  | succ n ih =>
    cases j with
    | zero => rfl
    | succ j => exact ih (by omega) (nextScan s e)

/-! ## What a scan reads -/

/-- The level of a pixel is a byte. -/
theorem pixelLevel_le (s : State) (e : Scan) : pixelLevel s e ≤ 255 := by
  unfold pixelLevel
  cases hl : levelSeq s with
  | nil => exact Nat.zero_le _
  | cons l rest =>
    have h := firstMin_mem WbNum.lt (levelDistance s.cfg.edArith (pixelVector s e)) l rest
    rw [← hl] at h
    have := levelSeq_le h
    simpa [selectLevel] using this

/-- The registers and parameters a scan reads are alike: everything but STATUS, the bases and raster memory. -/
structure SameScanInputs (s t : State) : Prop where
  cfg        : t.cfg = s.cfg
  width      : t.width = s.width
  height     : t.height = s.height
  channels   : t.channels = s.channels
  levelCount : t.levelCount = s.levelCount
  level      : t.level = s.level

theorem SameScanInputs.W {s t : State} (h : SameScanInputs s t) : t.W = s.W := congrArg BitVec.toNat h.width
theorem SameScanInputs.H {s t : State} (h : SameScanInputs s t) : t.H = s.H := congrArg BitVec.toNat h.height
theorem SameScanInputs.C {s t : State} (h : SameScanInputs s t) : t.C = s.C := congrArg BitVec.toNat h.channels

theorem SameScanInputs.levelSeq {s t : State} (h : SameScanInputs s t) : levelSeq t = levelSeq s := by
  simp only [Machine.levelSeq, State.NL, h.levelCount, h.level]

theorem SameScanInputs.pixelVector {s t : State} (h : SameScanInputs s t) (e : Scan) :
    pixelVector t e = pixelVector s e := by
  have hw : wbAt t = wbAt s := by
    funext wb y x c
    simp only [wbAt, wbIndex, h.W, h.C]
  simp only [Machine.pixelVector, hw, h.C]

theorem SameScanInputs.pixelLevel {s t : State} (h : SameScanInputs s t) (e : Scan) :
    pixelLevel t e = pixelLevel s e := by
  simp only [Machine.pixelLevel, h.cfg, h.pixelVector, h.levelSeq]

theorem SameScanInputs.nextScan {s t : State} (h : SameScanInputs s t) (e : Scan) :
    nextScan t e = nextScan s e := by
  have hw : wbAt t = wbAt s := by
    funext wb y x c
    simp only [wbAt, wbIndex, h.W, h.C]
  have hi : wbIndex t = wbIndex s := by
    funext y x c
    simp only [wbIndex, h.W, h.C]
  have hr : insideRaster t = insideRaster s := by
    funext y x
    simp only [insideRaster, h.W, h.H]
  have ha : addShare t = addShare s := by
    funext err ty tx w wb
    simp only [addShare, hw, hi, h.C, h.cfg]
  have hd : diffuse t = diffuse s := by
    funext err y x wb
    simp only [diffuse, hr, ha]
  simp only [Machine.nextScan, hd, h.W, h.cfg, h.pixelVector, h.pixelLevel]

theorem SameScanInputs.scanAfter {s t : State} (h : SameScanInputs s t) (n : Nat) (e : Scan) :
    scanAfter t n e = scanAfter s n e := by
  induction n generalizing e with
  | zero => rfl
  | succ n ih =>
    show Machine.scanAfter t n (Machine.nextScan t e) = Machine.scanAfter s n (Machine.nextScan s e)
    rw [h.nextScan, ih]

theorem SameScanInputs.scanLevels {s t : State} (h : SameScanInputs s t) (n : Nat) (e : Scan) :
    scanLevels t n e = scanLevels s n e := by
  induction n generalizing e with
  | zero => rfl
  | succ n ih =>
    show Machine.pixelLevel t e :: Machine.scanLevels t n (Machine.nextScan t e) = _
    rw [h.pixelLevel, h.nextScan, ih]
    rfl

/-- On a backed source the load reads the source. -/
theorem loadSample_admitted {s : State} (ha : (srcRegion s).admitted s.cfg = true) {y x c : Nat} (hy : y < s.H)
    (hx : x < s.W) (hc : c < s.C) : (loadSample s y x c).toNat = s.src y x c := by
  rw [loadSample, if_pos (Region.admitted_iff.1 ha _ (srcAddr_has hy hx hc))]
  rfl

/-- A START on a backed source draws nothing. -/
theorem startDraws_admitted (i : Instr) {s : State} (ha : (srcRegion s).admitted s.cfg = true) : startDraws i s = 0 := by
  cases i <;> simp [startDraws, ha]

/-- A load of the same backed source bytes is the same scan, whatever has been drawn. -/
theorem loadScan_congr {s t : State} (h : SameScanInputs s t) (hb : t.srcBase = s.srcBase)
    (ha : (srcRegion s).admitted s.cfg = true)
    (hm : ∀ a, (srcRegion s).has a = true → t.mem.read a = s.mem.read a) : loadScan t = loadScan s := by
  unfold loadScan
  rw [h.W, h.H, h.C]
  congr 1
  refine List.map_congr_left ?_
  rintro ⟨y, x, c⟩ hq
  obtain ⟨hy, hx, hc⟩ := mem_sampleCoords.1 hq
  have hs := srcAddr_has hy hx hc
  simp only [loadSample, h.W, h.C, hb, h.cfg, if_pos (Region.admitted_iff.1 ha _ hs)]
  rw [hm _ hs]

end Sys2Proof.Machine
end

