-- ==== Sys2Proof/Laws/Step.lean ====
section
/-!
SUPPORT. What one step can do, said once: whose turn it is, and the few forms of change each agent's move has.
-/

namespace Sys2Proof.Machine

/-! ## Whose turn -/

theorem step_cons {s : State} {t : Turn} {rest : List Turn} (h : s.agenda = t :: rest) :
    step s = takeTurn t { s with agenda := rest } := by
  unfold step; rw [h]

theorem step_nil {s : State} (h : s.agenda = []) : step s = takeTurn (defaultTurn s) s := by
  unfold step; rw [h]

/-- A step is one move, from the state with the agenda popped. -/
theorem step_takes_turn (s : State) :
    ∃ turn rest, step s = takeTurn turn { s with agenda := rest } ∧
      (s.agenda = turn :: rest ∨ (s.agenda = [] ∧ rest = [] ∧ turn = defaultTurn s)) := by
  cases h : s.agenda with
  | nil => exact ⟨defaultTurn s, [], by rw [step_nil h, ← h], .inr ⟨rfl, rfl, rfl⟩⟩
  | cons t rest => exact ⟨t, rest, step_cons h, .inl rfl⟩

/-- A run whose first step goes on is a step and a shorter run. -/
theorem core_run_of_step {s t : State} (k : Nat) (h : step s = .next t) :
    Sys2Proof.core.run (k + 1) s = Sys2Proof.core.run k t := by
  have h' : Sys2Proof.core.step s = .next t := h
  simp only [Host.Core.run, h']

/-- The host's turn runs its next statement, the position past it. -/
theorem step_host {s : State} {st : HostStmt} {rest : List Turn} (h : s.agenda = .host :: rest)
    (hs : s.host.prog[s.host.pos]? = some st) :
    step s = runStmt st (gotoStmt (s.host.pos + 1) { s with agenda := rest }) := by
  rw [step_cons h]
  show hostMove _ = _
  unfold hostMove
  simp only [hs]

/-! ## The host's move -/

/-- The forms of change a host move can have: the host alone; a draw; a register write while IDLE; a START while
IDLE; a byte write. -/
theorem runStmt_cases {st : HostStmt} {s t : State} (h : runStmt st s = .next t) :
    (∃ hs, t = { s with host := hs }) ∨
    (∃ hs, t = { s with host := hs, draws := s.draws + 1 }) ∨
    (s.phase = .idle ∧ ∃ r v, t = writeReg r v s) ∨
    (s.phase = .idle ∧ t = onStart (decode? s.cmd) s) ∨
    (∃ a v, st = .sb a v ∧ admits s.cfg a.toNat = true ∧
      t = { s with mem := s.mem.write a.toNat v, raced := s.raced || inRunningRegions s a.toNat }) := by
  have same : ∀ {u : State}, u = s → ∃ hs, u = { s with host := hs } := fun h => ⟨s.host, h⟩
  have slot : ∀ {off v}, writeSlot off v s = .next t →
      (∃ hs, t = { s with host := hs }) ∨ (s.phase = .idle ∧ ∃ r v, t = writeReg r v s) ∨
      (s.phase = .idle ∧ t = onStart (decode? s.cmd) s) := by
    intro off v h
    unfold writeSlot at h
    split at h
    · cases h; exact .inl (same rfl)
    · rename_i hp
      split at h
      · split at h
        · unfold startCommand at h
          split at h
          · rename_i i hd
            rw [exec_idle i hp] at h
            cases h
            exact .inr (.inr ⟨hp, by rw [hd]⟩)
          · rename_i hd
            cases h
            exact .inr (.inr ⟨hp, by rw [hd]⟩)
        · cases h; exact .inl (same rfl)
      · cases h; exact .inr (.inl ⟨hp, _, _, rfl⟩)
      · cases h; exact .inl (same rfl)
  have write : ∀ {addr width v}, busWrite addr width v s = .next t →
      (∃ hs, t = { s with host := hs }) ∨ (s.phase = .idle ∧ ∃ r v, t = writeReg r v s) ∨
      (s.phase = .idle ∧ t = onStart (decode? s.cmd) s) := by
    intro addr width v h
    unfold busWrite at h
    split at h
    · exact slot h
    · cases h
  have read : ∀ {addr width}, busRead addr width s = .next t → ∃ hs, t = { s with host := hs } := by
    intro addr width h
    unfold busRead at h
    split at h
    · cases h; exact ⟨_, rfl⟩
    · cases h
  cases st with
  | wr r v =>
    rcases write h with h | h | h
    · exact .inl h
    · exact .inr (.inr (.inl h))
    · exact .inr (.inr (.inr (.inl h)))
  | busWrite addr width v =>
    rcases write h with h | h | h
    · exact .inl h
    · exact .inr (.inr (.inl h))
    · exact .inr (.inr (.inr (.inl h)))
  | rd r => exact .inl (read h)
  | busRead addr width => exact .inl (read h)
  | label l => cases h; exact .inl (same rfl)
  | bnz bit l =>
    have h' : branch bit l s = .next t := h
    unfold branch at h'
    split at h'
    · split at h'
      · cases h'; exact .inl ⟨_, rfl⟩
      · cases h'
    · cases h'; exact .inl (same rfl)
  | lb a =>
    have h' : hostLoad a s = .next t := h
    unfold hostLoad at h'
    split at h'
    · cases h'
    · split at h'
      · cases h'; exact .inr (.inl ⟨_, rfl⟩)
      · cases h'; exact .inl ⟨_, rfl⟩
  | sb a v =>
    have h' : hostStore a v s = .next t := h
    unfold hostStore at h'
    split at h'
    · cases h'
    · rename_i ha
      cases h'
      exact .inr (.inr (.inr (.inr ⟨a, v, rfl, by simpa using ha, rfl⟩)))

/-- A host move does nothing, or it is its statement's effect after the position has moved on. -/
theorem hostMove_cases {s t : State} (h : hostMove s = .next t) :
    t = s ∨ ∃ st, s.host.prog[s.host.pos]? = some st ∧ runStmt st (gotoStmt (s.host.pos + 1) s) = .next t := by
  unfold hostMove at h
  split at h
  · exact .inr ⟨_, by assumption, h⟩
  · cases h; exact .inl rfl

/-! ## The engine's moves and the reset -/

/-- An engine move does nothing, or it is the completion of the running command. -/
theorem engineMove_cases {s t : State} (h : engineMove s = .next t) :
    t = s ∨ (s.phase = .running ∧ ∃ i, decode? s.cmd = some i ∧ t = complete i (resultSample i s) s) := by
  unfold engineMove at h
  split at h
  · rename_i i hp hd
    rw [exec_running i hp] at h
    cases h
    exact .inr ⟨hp, i, hd, rfl⟩
  · cases h; exact .inl rfl
  · cases h; exact .inl rfl

/-- A scan move does nothing, or it visits a pixel. -/
theorem scanMove_cases (s : State) :
    scanMove s = s ∨
    (s.phase = .running ∧ ∃ e, s.scan = some e ∧ e.y < s.H ∧ scanMove s = visitPixel e s) := by
  unfold scanMove
  split
  · rename_i e hp he
    split
    · rename_i hy
      exact .inr ⟨hp, e, he, hy, rfl⟩
    · exact .inl rfl
  · exact .inl rfl
  · exact .inl rfl

/-- A reset abandons a running command's destination or touches no byte. -/
theorem abandonRun_cases (s : State) :
    abandonRun s = s ∨ (s.phase = .running ∧ ∃ i, decode? s.cmd = some i ∧ abandonRun s = freeDest i s) := by
  unfold abandonRun
  split
  · rename_i i hp hd
    exact .inr ⟨hp, i, hd, rfl⟩
  · exact .inl rfl
  · exact .inl rfl

end Sys2Proof.Machine
end

