-- ==== Sys2Proof/Tests/Slice0.lean ====
section
/-!
SUPPORT. The model's own tests. Expected results are those of 95_test_vectors.md (the sections named) or worked out
by hand from the rule named; a theorem `witness_X` shows concrete operands that meet the hypotheses of obligation `X`.
-/

namespace Sys2Proof.Tests

-- one theorem at a time, so that the kernel evaluations of this file do not each hold a thread
set_option Elab.async false

open Sys2Proof.Machine

/-! ## Small states -/

/-- A memory of `bytes` from address `base` up. -/
def bytesAt (base : Nat) : List Nat → Memory
  | [] => []
  | b :: rest => Memory.write (bytesAt (base + 1) rest) base (BitVec.ofNat 8 b)

/-- An IDLE block with `i` in CMD, a `w × h × c` source raster at 0x1000 and the destination at 0x2000. -/
def ready (cfg : Config.Params) (i : Instr) (w h c : Nat) (bytes : List Nat) : State :=
  { State.resetWith cfg (bytesAt 0x1000 bytes) with
    cmd := encode i, width := BitVec.ofNat 16 w, height := BitVec.ofNat 16 h, channels := BitVec.ofNat 2 c,
    srcBase := 0x1000, dstBase := 0x2000 }

/-- The same with its START accepted. -/
def started (cfg : Config.Params) (i : Instr) (w h c : Nat) (bytes : List Nat) : State :=
  accept i (ready cfg i w h c bytes)

/-- The state a step answers; the given one where it stops. -/
def nextOr (s : State) (o : Host.Outcome State Fault Refusal) : State :=
  match o with
  | .next t => t
  | .fault _ | .refused _ => s

/-- The outcome is a next state. -/
def goesOn (o : Host.Outcome State Fault Refusal) : Bool :=
  match o with
  | .next _ => true
  | .fault _ | .refused _ => false

theorem eq_next {s : State} {o : Host.Outcome State Fault Refusal} (h : goesOn o = true) : o = .next (nextOr s o) := by
  cases o with
  | next t => rfl
  | fault r => cases h
  | refused r => cases h

/-- The first `n` destination bytes of an outcome. -/
def dest (n : Nat) (o : Host.Outcome State Fault Refusal) : Option (List Nat) :=
  match o with
  | .next t => some ((List.range n).map fun j => (t.mem.read (0x2000 + j)).toNat)
  | .fault _ | .refused _ => none

/-- The STATUS word of an outcome. -/
def statusOf (o : Host.Outcome State Fault Refusal) : Option Word :=
  match o with
  | .next t => some (readReg .status t)
  | .fault _ | .refused _ => none

/-- The parameters of every default, and of the other readings. -/
abbrev std : Config.Params := Config.Params.default

abbrev floors : Config.Params :=
  { std with blurBorder := .reflect101, blurRound := .floor, odRound := .floor, kuwRound := .halfUp }

/-- Only the first 0x1800 raster addresses are backed. -/
abbrev small : Config.Params := { std with memAdmit := [(0, 0x1800)] }

/-- Only the first 0x1004 raster addresses are backed. -/
abbrev smaller : Config.Params := { std with memAdmit := [(0, 0x1004)] }

/-! ## WellFormed refuses what the formats cannot hold -/

theorem test_wf_refuses_blur_256 : (Instr.blur 256).wf = false := by decide
theorem test_wf_refuses_kuwahara_256 : (Instr.kuwahara 256).wf = false := by decide
theorem test_wf_accepts_255 : (Instr.blur 255).wf = true ∧ (Instr.kuwahara 0).wf = true := by decide
theorem test_params_wf_refuses_past_end : Config.Params.wf { std with memAdmit := [(1, 2 ^ 32)] } = false := by decide
theorem test_params_wf_default : std.wf = true := by decide
theorem test_progWf_refuses_unset_label : progWf [.bnz 0 7] = false := by decide
theorem test_progWf_refuses_bit_32 : progWf [.label 7, .bnz 32 7] = false := by decide
theorem test_progWf_refuses_label_twice : progWf [.label 7, .label 7] = false := by decide
theorem test_progWf_poll : progWf (pollStmts 7) = true := by decide

/-! ## Decode: words written out from 30_encoding.md R38 and R39 -/

theorem test_decode_quant : decode 0b00000000000000000000000000000001#32 = .ok .quant := by decide
theorem test_decode_blur : decode 0b00000000111111110000000000000010#32 = .ok (.blur 255) := by decide
theorem test_decode_odither2x2 : decode 0b00000000000000000000000000000011#32 = .ok .odither2x2 := by decide
theorem test_decode_odither4x4 : decode 0b00000000000000000000000100000011#32 = .ok .odither4x4 := by decide
theorem test_decode_eddither : decode 0b00000000000000000000000000000100#32 = .ok .eddither := by decide
theorem test_decode_kuwahara : decode 0b00000000100000000000000000000101#32 = .ok (.kuwahara 128) := by decide

/-- 95_test_vectors.md section 3, the words that decode to Invalid. -/
theorem test_decode_invalid :
    [0x00000203#32, 0x00000303#32, 0x00010003#32, 0x00000104#32, 0x00000100#32, 0x00000000#32, 0x00000006#32,
      0x0000000F#32, 0x00000011#32, 0x00030402#32, 0x01030002#32, 0x80000001#32].map decode? = List.replicate 12 none := by
  decide

theorem test_decodeTableWord :
    decodeTableWord 32 0x00030002 = some (.blur 3) ∧ decodeTableWord 64 0x00030002 = none ∧
    decodeTableWord 32 (2 ^ 32 + 1) = none := by decide +kernel

/-! ## Every table row runs as the first command after reset -/

theorem test_first_command :
    ∀ w ∈ [0x00000001, 0x00030002, 0x00000003, 0x00000103, 0x00000004, 0x00020005],
      statusOf (step (State.reset.withFetchWord 32 w)) = some 2 := by decide +kernel

/-- `BLUR 0` and `KUWAHARA 0` reach START and are rejected there (R55, R77): STATUS 0x24. -/
theorem test_first_command_rejected :
    ∀ w ∈ [0x00000002, 0x00000005], statusOf (step (State.reset.withFetchWord 32 w)) = some 0x24 := by decide +kernel

/-! ## Results: 95_test_vectors.md sections 4 to 8 -/

theorem test_quant :
    dest 6 (exec .quant (started std .quant 2 1 3 [130, 25, 230, 76, 77, 255])) = some [153, 0, 255, 51, 102, 255] := by
  decide +kernel

/-- `[10, 0]`, sample 5: a tie that the first index wins. -/
theorem test_quant_tie :
    dest 1 (exec .quant (accept .quant
      { ready std .quant 1 1 1 [5] with levelCount := 2, level := #v[10, 0, 0, 0, 0, 0, 0, 0, 0, 0, 0, 0, 0, 0, 0, 0] }))
      = some [10] := by decide +kernel

theorem test_blur :
    dest 4 (exec (.blur 3) (started std (.blur 3) 4 1 1 [0, 40, 80, 120])) = some [13, 40, 80, 107] := by decide +kernel

theorem test_blur_reflect101_floor :
    dest 4 (exec (.blur 3) (started floors (.blur 3) 4 1 1 [0, 40, 80, 120])) = some [26, 40, 80, 93] := by decide +kernel

theorem test_odither2x2 :
    dest 6 (exec .odither2x2 (started std .odither2x2 2 1 3 [0, 100, 255, 1, 127, 128])) =
      some [0, 100, 255, 128, 254, 255] := by decide +kernel

theorem test_odither2x2_floor :
    dest 4 (exec .odither2x2 (started floors .odither2x2 2 2 1 [0, 0, 0, 0])) = some [0, 127, 191, 63] := by decide +kernel

theorem test_odither4x4 :
    dest 16 (exec .odither4x4 (started std .odither4x4 4 4 1 (List.replicate 16 100))) =
      some [100, 228, 132, 255, 255, 164, 255, 196, 148, 255, 116, 243, 255, 212, 255, 180] := by decide +kernel

theorem test_odither4x4_floor :
    dest 16 (exec .odither4x4 (started floors .odither4x4 4 4 1 (List.replicate 16 0))) =
      some [0, 127, 31, 159, 191, 63, 223, 95, 47, 175, 15, 143, 239, 111, 207, 79] := by decide +kernel

theorem test_eddither_rgb :
    dest 4 (exec .eddither (started std .eddither 2 2 3 [255, 0, 0, 0, 255, 0, 0, 0, 255, 255, 255, 255])) =
      some [0, 102, 102, 255] := by decide +kernel

theorem test_eddither_gray :
    dest 6 (exec .eddither (started std .eddither 3 2 1 (List.replicate 6 30))) = some [51, 0, 51, 51, 0, 51] := by
  decide +kernel

theorem test_kuwahara_tie :
    dest 5 (exec (.kuwahara 3) (started std (.kuwahara 3) 5 1 1 [0, 10, 20, 30, 40])) = some [0, 3, 10, 37, 40] := by
  decide +kernel

theorem test_kuwahara_half_up :
    dest 9 (exec (.kuwahara 2) (started floors (.kuwahara 2) 3 3 1 [0, 1, 0, 1, 0, 1, 0, 1, 0])) =
      some [0, 1, 0, 1, 1, 1, 0, 1, 0] := by decide +kernel

/-! ## START: 95_test_vectors.md section 3 -/

theorem test_start_from_reset : statusOf (startCommand State.reset) = some 0x14 := by decide

theorem test_start_even_kernel : statusOf (startCommand (ready std (.blur 2) 4 1 1 [])) = some 0x24 := by decide

theorem test_start_two_channels : statusOf (startCommand (ready std .quant 4 1 2 [])) = some 0x14 := by decide

theorem test_start_source_ends_at_top :
    statusOf (startCommand { ready std (.blur 3) 2 1 1 [] with srcBase := 0xFFFFFFFE, dstBase := 0 }) = some 1 ∧
    statusOf (startCommand { ready std (.blur 3) 2 1 1 [] with srcBase := 0xFFFFFFFF, dstBase := 0 }) = some 0x14 := by
  decide

theorem test_start_eddither_regions :
    statusOf (startCommand { ready std .eddither 4 1 3 [] with dstBase := 0x0FFD }) = some 0x24 ∧
    statusOf (startCommand { ready std .eddither 4 1 3 [] with dstBase := 0x0FFC }) = some 1 := by decide +kernel

theorem test_start_levels :
    statusOf (startCommand { ready std .quant 4 1 1 [] with levelCount := 0 }) = some 0x24 ∧
    statusOf (startCommand { ready std .eddither 4 1 1 [] with levelCount := 17 }) = some 0x24 ∧
    statusOf (startCommand { ready std (.blur 3) 4 1 1 [] with levelCount := 0 }) = some 1 := by decide

/-! ## Registers: 95_test_vectors.md section 3 -/

theorem test_register_fields :
    readReg .width (writeReg .width 0x12345678 State.reset) = 0x5678 ∧
    readReg .channels (writeReg .channels 0xFFFFFFFF State.reset) = 3 ∧
    readReg .levelCount (writeReg .levelCount 0x3F State.reset) = 0x1F ∧
    readReg (.level 0) (writeReg (.level 0) 0x1FF State.reset) = 0xFF ∧
    readReg .status (writeReg .status 0xFFFFFFFF State.reset) = 0 := by decide

/-- A misaligned or narrow access of the window is refused by name (20_memory.md R27). -/
theorem test_access_refused :
    busRead 0x06 4 State.reset = .refused (.accessNotAdmitted 0x06 4) ∧
    busWrite 0x04 2 0 State.reset = .refused (.accessNotAdmitted 0x04 2) ∧
    busRead 0x100 4 State.reset = .refused (.outsideWindow 0x100) := ⟨rfl, rfl, rfl⟩

/-! ## Arithmetic: 95_test_vectors.md section 2 -/

theorem test_round :
    (roundDiv 5 2 .floor, roundDiv 5 2 .halfUp, roundDiv 5 2 .halfEven) = (2, 3, 2) ∧
    (roundDiv 7 2 .floor, roundDiv 7 2 .halfUp, roundDiv 7 2 .halfEven) = (3, 4, 4) ∧
    (roundDiv 2216 16 .floor, roundDiv 2216 16 .halfUp, roundDiv 2216 16 .halfEven) = (138, 139, 138) := by decide

theorem test_border :
    [-3, -2, -1, 0, 1, 2, 3, 4, 5, 6].map (fun i => border .reflect101 i 4) = [3, 2, 1, 0, 1, 2, 3, 2, 1, 0] ∧
    [-3, -2, -1, 0, 1, 2, 3, 4, 5, 6].map (fun i => border .reflect i 4) = [2, 1, 0, 0, 1, 2, 3, 3, 2, 1] := by decide

/-- `1 ⊕ 2^-53` in binary64 is a tie that goes to the even 1; `1 ⊕ 3·2^-54` rounds up (IEEE 754, by hand). -/
theorem test_binary64_ties_to_even :
    WbNum.add .binary64 (.ofNat 1) (.fin false 1 53) = .ofNat 1 ∧
    WbNum.add .binary64 (.ofNat 1) (.fin false 3 54) = .fin false (2 ^ 52 + 1) 52 := by decide +kernel

/-- An operation is rounded whatever the sign: `-1 ⊖ 3·2^-54` and `-3·2^-54 ⊗ 2^0` (IEEE 754, by hand). -/
theorem test_binary64_negative :
    WbNum.sub .binary64 (.fin true 1 0) (.fin false 3 54) = .fin true (2 ^ 52 + 1) 52 ∧
    WbNum.mul .binary64 (.fin true (2 ^ 53 + 1) 53) (.ofNat 1) = .fin true 1 0 := by decide +kernel

/-- The working buffer exists while an `EDDITHER` runs on an unbacked destination, and its scan goes on, without a
completion (10_state.md R20, 20_memory.md R31). -/
theorem test_eddither_unbacked :
    let s := started small .eddither 3 2 1 (List.replicate 6 30)
    s.scan.isSome = true ∧ (scanMove s).scan ≠ s.scan ∧ (scanMove s).mem = s.mem ∧
    exec .eddither (scanMove s) = .next (scanMove s) := by
  exact ⟨rfl, by decide +kernel, by decide +kernel, exec_unbacked (by decide +kernel) (by decide +kernel)⟩

/-! ## Witnesses: the hypotheses of the obligations are met -/

/-- An IDLE block on a 4 × 1 gray raster. -/
abbrev idleDemo : State := ready std (.blur 3) 4 1 1 [0, 40, 80, 120]

/-- The same with `BLUR 3` running. -/
abbrev blurDemo : State := started std (.blur 3) 4 1 1 [0, 40, 80, 120]

/-- A running `EDDITHER` on a 3 × 2 gray raster. -/
abbrev edDemo : State := started std .eddither 3 2 1 (List.replicate 6 30)

/-- A running `EDDITHER` whose source is backed and whose destination is not. -/
abbrev edUnbacked : State := started small .eddither 3 2 1 (List.replicate 6 30)

/-- The scan of `edDemo` after one pixel, at `(0, 1)`. -/
abbrev edScan : Scan := nextScan edDemo (loadScan edDemo)

/-- Listed bytes are backed where every raster address is. -/
theorem memOk_of_listed {s : State} (h : Memory.wf s.mem = true)
    (h' : (s.mem.all fun q => decide (q.1 < 2 ^ 32) && admits s.cfg q.1) = true) : s.memOk := by
  refine ⟨h, fun q hq => ?_⟩
  have := List.all_eq_true.1 h' q hq
  simpa [Config.addressSpace] using this

/-- An IDLE state without a scan meets the invariant once STATUS and memory do. -/
theorem inv_of_idle {s : State} (hp : s.phase = .idle) (hs : s.scan = none) (hr : s.raced = false)
    (h₁ : s.statusOk) (h₂ : s.memOk) : s.Inv := by
  refine ⟨h₁, h₂, ⟨fun h => ?_, fun _ => hr⟩, fun e h => ?_, fun h => ?_⟩
  · rw [hp] at h; cases h
  · rw [hs] at h; cases h
  · rw [hp] at h; cases h

/-- A command just started meets the invariant. -/
theorem inv_of_accept {s : State} {i : Instr} (hd : decode? s.cmd = some i) (hv : validate (some i) s = 0)
    (h₂ : s.memOk) : (accept i s).Inv := by
  have hV := validate_eq_zero_iff.1 hv
  refine ⟨⟨fun _ => rfl, fun h => ?_, fun _ => rfl, fun _ => ⟨rfl, rfl⟩⟩, h₂, ⟨fun _ => ⟨i, hd, hv⟩, fun h => ?_⟩,
    fun e he => ?_, fun _ hd' => ?_⟩
  · cases h
  · cases h
  · have he' : startScan i s = some e := he
    cases i with
    | eddither =>
      cases he'
      exact ⟨rfl, hd, loadScan_inRange hV.width hV.height⟩
    | _ => cases he'
  · have hi : some i = some .eddither := hd.symm.trans hd'
    cases hi
    rfl

/-- A scan just started is where the reference scan is after no pixel. -/
theorem scanFaithful_of_accept {s : State} : (accept .eddither s).scanFaithful := by
  intro e he _ ha
  have he' : startScan .eddither s = some e := he
  cases he'
  exact ⟨0, Nat.zero_le _, (loadScan_congr (s := s) (t := accept .eddither s) ⟨rfl, rfl, rfl, rfl, rfl, rfl⟩ rfl ha fun _ _ => rfl).symm,
    fun j hj => absurd hj (Nat.not_lt_zero j)⟩

theorem idleDemo_inv : idleDemo.Inv :=
  inv_of_idle rfl rfl rfl ⟨fun _ => rfl, fun h => absurd h (by decide), fun _ => rfl, fun h => absurd h (by decide)⟩
    (memOk_of_listed (by decide +kernel) (by decide +kernel))

theorem blurDemo_inv : blurDemo.Inv :=
  inv_of_accept (by decide) (by decide +kernel) (memOk_of_listed (by decide +kernel) (by decide +kernel))

theorem edDemo_inv : edDemo.Inv :=
  inv_of_accept (by decide) (by decide +kernel) (memOk_of_listed (by decide +kernel) (by decide +kernel))

theorem edUnbacked_inv : edUnbacked.Inv :=
  inv_of_accept (by decide) (by decide +kernel) (memOk_of_listed (by decide +kernel) (by decide +kernel))

/-- A command of `started` runs alone. -/
theorem alone {cfg : Config.Params} {i : Instr} {w h c : Nat} {bytes : List Nat}
    (hv : validate (some i) (started cfg i w h c bytes) = 0)
    (ha : regionsAdmitted i (started cfg i w h c bytes) = true) : (started cfg i w h c bytes).runsAlone i :=
  ⟨⟨rfl, hv, ha⟩, rfl⟩

/-! ### Encoding -/

theorem witness_DecodeOfEncodeIsTheCommand : (Instr.blur 255).wf = true ∧ (Instr.kuwahara 0).wf = true := by decide

theorem witness_EncodeOfDecodeIsTheWord : decode 0x00FF0005 = .ok (.kuwahara 255) := by decide

theorem witness_DecodeAgreesWithTheOpcodeTable :
    (∃ r ∈ opcodeTable, r.matches 0x00FF0002) ∧ (∀ r ∈ opcodeTable, ¬ r.matches 0x00000203) ∧
    (∃ (j k : Nat) (r q : OpRow), opcodeTable[j]? = some r ∧ opcodeTable[k]? = some q ∧ r.matches 0x00000103 ∧ q.matches 0x00000103) := by
  unfold OpRow.matches
  refine ⟨⟨_, .tail _ (.head _), by decide⟩, by decide, 3, 3, _, _, rfl, rfl, by decide, by decide⟩

theorem witness_AssemblerGivesTheCommandWords : 0 ≤ 255 ∧ 255 ≤ 255 ∧ 255 < 256 := by decide

/-- One IDLE state for each kind of illegal word, with the source raster legal, and one without a raster. -/
theorem witness_ReservedEncodingsAreRejectedAtStart :
    (∀ w : Word, w ∈ [0x00000000, 0x00000006, 0x01030002, 0x00030402, 0x00000011, 0x00000104, 0x00010003, 0x00000203, 0x00000303] →
      ({ idleDemo with cmd := w } : State).phase = .idle ∧ ¬ badInput { idleDemo with cmd := w } ∧
      (w.toNat % 16 = 0 ∨ 6 ≤ w.toNat % 16 ∨ w.toNat / 2 ^ 24 ≠ 0 ∨ w.toNat / 2 ^ 10 % 2 ^ 6 ≠ 0 ∨
        w.toNat / 2 ^ 4 % 2 ^ 4 ≠ 0 ∨ (w.toNat % 16 ≠ 3 ∧ w.toNat / 2 ^ 8 % 2 ^ 2 ≠ 0) ∨
        (w.toNat % 16 = 3 ∧ 2 ≤ w.toNat / 2 ^ 8 % 2 ^ 2) ∨
        (w.toNat % 16 ≠ 2 ∧ w.toNat % 16 ≠ 5 ∧ w.toNat / 2 ^ 16 % 2 ^ 8 ≠ 0))) ∧
    State.reset.phase = .idle ∧ badInput State.reset ∧ State.reset.cmd.toNat % 16 = 0 := by
  refine ⟨fun w hw => ?_, rfl, by unfold badInput; decide, by decide⟩
  simp only [List.mem_cons, List.not_mem_nil, or_false] at hw
  rcases hw with rfl | rfl | rfl | rfl | rfl | rfl | rfl | rfl | rfl <;> unfold badInput <;> decide +kernel

/-! ### Registers -/

theorem witness_RegisterWriteStoresItsField : idleDemo.phase = .idle ∧ Reg.level 15 ≠ .ctrl ∧ Reg.status ≠ .ctrl := by
  decide

theorem witness_ReservedSlotsReadZeroAndIgnoreWrites :
    ∀ off ∈ [0x24, 0x3C, 0x80, 0xFC], off % 4 = 0 ∧ ((0x24 ≤ off ∧ off < 0x40) ∨ (0x80 ≤ off ∧ off < 0x100)) := by decide

theorem witness_CtrlStartsOnlyWithBitZeroWhileIdle :
    (0xFFFFFFFE#32).getLsbD 0 = false ∧ blurDemo.phase = .running ∧ idleDemo.phase = .idle ∧
    (0xFFFFFFFF#32).getLsbD 0 = true := by decide

theorem witness_StatusWordHasItsFields : blurDemo.Inv ∧ blurDemo.phase = .running ∧ idleDemo.Inv ∧ idleDemo.err = false :=
  ⟨blurDemo_inv, rfl, idleDemo_inv, rfl⟩

theorem witness_RegistersHoldWhileRunning :
    blurDemo.phase = .running ∧ (∃ t, step blurDemo = .next t) ∧ blurDemo.agenda.head? ≠ some .reset ∧
    0 < 256 ∧ 252 < 256 ∧ 252 % 4 = 0 :=
  ⟨rfl, ⟨_, eq_next (s := blurDemo) (by decide +kernel)⟩, by decide, by decide, by decide, by decide⟩

/-- The first and the last byte of the window, a narrow access and an aligned word. -/
theorem witness_OnlyAlignedWordAccessesHaveAStep :
    (std.regBase ≤ 0 ∧ 0 < std.regBase + 256 ∧ (2 ≠ 4 ∨ (0 - std.regBase) % 4 ≠ 0)) ∧
    (std.regBase ≤ 255 ∧ 255 < std.regBase + 256 ∧ (4 ≠ 4 ∨ (255 - std.regBase) % 4 ≠ 0)) ∧
    (std.regBase ≤ 252 ∧ 252 < std.regBase + 256 ∧ 4 = 4 ∧ (252 - std.regBase) % 4 = 0) := by decide

/-! ### START -/

theorem witness_InvalidConfigurationExactlyWhen : ¬ badInput idleDemo := by
  unfold badInput
  decide +kernel

theorem witness_InvalidInputHasPriority :
    badInput State.reset ∧ ¬ badInput idleDemo ∧ badConfiguration (.blur 2) idleDemo ∧
    ¬ badInput { idleDemo with srcBase := 0xFFFFFFFC } ∧ badInput { idleDemo with srcBase := 0xFFFFFFFD } := by
  unfold badInput
  exact ⟨by decide, by decide +kernel, .inl ⟨2, rfl, by decide⟩, by decide +kernel, by decide +kernel⟩

/-- A command with no error condition at all (the last clause of priority). -/
theorem witness_InvalidInputHasPriority_legal : ¬ badInput idleDemo ∧ ¬ badConfiguration (.blur 3) idleDemo := by
  refine ⟨by unfold badInput; decide +kernel, ?_⟩
  have hV := validate_eq_zero_iff.1 (show validate (some (.blur 3)) idleDemo = 0 by decide +kernel)
  rintro (⟨k, h, hk⟩ | ⟨k, h, -⟩ | ⟨h | h, -⟩ | h | ⟨a, h₁, h₂⟩)
  · cases h; omega
  · cases h
  · cases h
  · cases h
  · exact absurd hV.dstEnd (Nat.not_le.2 h)
  · rw [hV.apart a h₁] at h₂; cases h₂

theorem witness_RejectedStartChangesOnlyStatus :
    idleDemo.phase = .idle ∧ validate (some (.blur 2)) idleDemo ≠ 0 ∧
    State.reset.phase = .idle ∧ decode? State.reset.cmd = none := by decide +kernel

/-- An `EDDITHER` on backed bytes, one whose destination alone is unbacked, one whose source bytes from 0x1004 on are
unbacked, and another command. -/
theorem witness_AcceptedStartBeginsTheRun :
    ((ready std .eddither 3 2 1 []).phase = .idle ∧ validate (some .eddither) (ready std .eddither 3 2 1 []) = 0 ∧
      (srcRegion (ready std .eddither 3 2 1 [])).admitted std = true) ∧
    ((ready small .eddither 3 2 1 []).phase = .idle ∧ validate (some .eddither) (ready small .eddither 3 2 1 []) = 0 ∧
      (srcRegion (ready small .eddither 3 2 1 [])).admitted small = true ∧
      regionsAdmitted .eddither (ready small .eddither 3 2 1 []) = false) ∧
    (let s := ready smaller .eddither 3 2 1 []
     s.phase = .idle ∧ validate (some .eddither) s = 0 ∧ (srcRegion s).admitted s.cfg = false ∧
     admits s.cfg (rasterAddr s.W s.srcBase.toNat s.C 1 0 0) = true ∧
     admits s.cfg (rasterAddr s.W s.srcBase.toNat s.C 1 1 0) = false ∧ 1 < s.H ∧ 1 < s.W ∧ 0 < s.C) ∧
    idleDemo.phase = .idle ∧ validate (some (.blur 3)) idleDemo = 0 := by decide +kernel

theorem witness_BlurRejectsZeroAndEvenKernels :
    idleDemo.phase = .idle ∧ ¬ badInput idleDemo ∧ badInput State.reset ∧ State.reset.phase = .idle ∧
    (0 = 0 ∨ 0 % 2 = 0) ∧ (254 = 0 ∨ 254 % 2 = 0) ∧ 255 < 256 := by
  unfold badInput
  decide +kernel

theorem witness_KuwaharaRejectsOnlyKernelsBelowTwo :
    idleDemo.phase = .idle ∧ 1 < 2 ∧ 2 ≤ 2 ∧ 255 ≤ 255 ∧ ¬ badInput idleDemo ∧
    idleDemo.dstBase.toNat + idleDemo.W * idleDemo.H * idleDemo.C ≤ 2 ^ 32 ∧
    (∀ a, (srcRegion idleDemo).has a = true → (dstRegion (.kuwahara 2) idleDemo).has a = false) := by
  have hV := validate_eq_zero_iff.1 (show validate (some (.kuwahara 2)) idleDemo = 0 by decide +kernel)
  exact ⟨rfl, by decide, by decide, by decide, by unfold badInput; decide +kernel, hV.dstEnd, hV.apart⟩

/-- Regions that touch but do not meet, that meet in one byte, and the two past-the-end cases by one byte. -/
theorem witness_AcceptedRegionsAreInsideAndApart :
    validate (some (.blur 3)) { idleDemo with dstBase := 0x1004 } = 0 ∧
    (¬ badInput { idleDemo with dstBase := 0x1003 } ∧ (srcRegion idleDemo).has 0x1003 = true ∧
      (dstRegion (.blur 3) { idleDemo with dstBase := 0x1003 }).has 0x1003 = true) ∧
    2 ^ 32 < (0xFFFFFFFD#32).toNat + idleDemo.W * idleDemo.H * idleDemo.C ∧
    (¬ badInput { idleDemo with dstBase := 0xFFFFFFFD } ∧
      2 ^ 32 < (0xFFFFFFFD#32).toNat + idleDemo.W * idleDemo.H * destChannels (.blur 3) idleDemo) := by
  unfold badInput
  decide +kernel

/-! ### Commands -/

theorem witness_QuantWritesTheFirstNearestLevel :
    Memory.wf (started std .quant 1 1 1 [130]).mem = true ∧ (started std .quant 1 1 1 [130]).runsAlone .quant :=
  ⟨by decide +kernel, alone (by decide +kernel) (by decide +kernel)⟩

theorem witness_BlurWritesTheRoundedMean : Memory.wf blurDemo.mem = true ∧ blurDemo.runsAlone (.blur 3) :=
  ⟨by decide +kernel, alone (by decide +kernel) (by decide +kernel)⟩

theorem witness_Odither2x2AddsItsThreshold :
    Memory.wf (started std .odither2x2 1 1 1 [10]).mem = true ∧ (started std .odither2x2 1 1 1 [10]).runsAlone .odither2x2 :=
  ⟨by decide +kernel, alone (by decide +kernel) (by decide +kernel)⟩

theorem witness_Odither4x4AddsItsThreshold :
    Memory.wf (started std .odither4x4 1 1 3 [7, 8, 9]).mem = true ∧
    (started std .odither4x4 1 1 3 [7, 8, 9]).runsAlone .odither4x4 :=
  ⟨by decide +kernel, alone (by decide +kernel) (by decide +kernel)⟩

theorem witness_EdditherWritesTheScanLevels :
    edDemo.Inv ∧ edDemo.scanFaithful ∧ decode? edDemo.cmd = some .eddither ∧ edDemo.runsAlone .eddither :=
  ⟨edDemo_inv, scanFaithful_of_accept, by decide, alone (by decide +kernel) (by decide +kernel)⟩

theorem witness_KuwaharaWritesTheLeastVarianceMean :
    Memory.wf (started std (.kuwahara 2) 2 2 1 [0, 100, 50, 200]).mem = true ∧
    (started std (.kuwahara 2) 2 2 1 [0, 100, 50, 200]).runsAlone (.kuwahara 2) :=
  ⟨by decide +kernel, alone (by decide +kernel) (by decide +kernel)⟩

theorem witness_RunningCommandsWriteOnlyTheirDestination :
    edDemo.phase = .running ∧ Memory.wf edDemo.mem = true ∧ validate (some .eddither) edDemo = 0 := by decide +kernel

/-- A running command whose source byte 0x1000 and destination byte 0x2000 the host may write, and a marked run. -/
theorem witness_RacedRunsCompleteWithAnyValue :
    (blurDemo.phase = .running ∧ decode? blurDemo.cmd = some (.blur 3) ∧ admits blurDemo.cfg 0x1000 = true ∧
      (srcRegion blurDemo).has 0x1000 = true ∧ (dstRegion (.blur 3) blurDemo).has 0x2003 = true) ∧
    (let s : State := { blurDemo with raced := true, agenda := [.host] }
     step s = .next (nextOr s (step s)) ∧ (nextOr s (step s)).phase = .running) ∧
    (Memory.wf ({ blurDemo with raced := true } : State).mem = true ∧ ({ blurDemo with raced := true } : State).runs (.blur 3)) :=
  ⟨by decide +kernel, ⟨eq_next (by decide +kernel), by decide +kernel⟩, by decide +kernel, rfl, by decide +kernel,
    by decide +kernel⟩

theorem witness_UnbackedRunsStayBusyUntilReset :
    (started small (.blur 3) 4 1 1 []).phase = .running ∧
    decode? (started small (.blur 3) 4 1 1 []).cmd = some (.blur 3) ∧
    regionsAdmitted (.blur 3) (started small (.blur 3) 4 1 1 []) = false ∧
    (let s : State := { started small (.blur 3) 4 1 1 [] with agenda := [.engine] }
     step s = .next (nextOr s (step s))) :=
  ⟨rfl, by decide, by decide +kernel, eq_next (by decide +kernel)⟩

/-- An engine named to move, and one that moves because nobody is named. -/
theorem witness_ReadyEngineCompletesItsRun :
    (let s : State := accept (.blur 3) { idleDemo with agenda := [.engine, .host] }
     s.Inv ∧ s.phase = .running ∧ decode? s.cmd = some (.blur 3) ∧ regionsAdmitted (.blur 3) s = true ∧
     s.agenda.head? = some .engine) ∧
    blurDemo.Inv ∧ blurDemo.phase = .running ∧ decode? blurDemo.cmd = some (.blur 3) ∧
    regionsAdmitted (.blur 3) blurDemo = true ∧ blurDemo.agenda = [] :=
  ⟨⟨inv_of_accept (by decide) (by decide +kernel) (memOk_of_listed (by decide +kernel) (by decide +kernel)), rfl,
      by decide, by decide +kernel, rfl⟩,
    blurDemo_inv, rfl, by decide, by decide +kernel, rfl⟩

theorem witness_StepRunsTheDecodedCommand :
    decode? blurDemo.cmd = some (.blur 3) ∧ blurDemo.phase = .running ∧ regionsAdmitted (.blur 3) blurDemo = true ∧
    ({ blurDemo with agenda := [.engine] } : State).agenda = .engine :: [] ∧
    (let s : State := { idleDemo with agenda := [.host], host := { prog := [.wr .ctrl 1], pos := 0, t := 0 } }
     decode? s.cmd = some (.blur 3) ∧ s.phase = .idle ∧ s.agenda = .host :: [] ∧
     s.host.prog[s.host.pos]? = some (.wr .ctrl 1) ∧ (1#32).getLsbD 0 = true) := by
  decide +kernel

/-! ### Arithmetic and properties -/

/-- A remainder below, at and above the half, and an odd divisor. -/
theorem witness_RoundFollowsItsThreeModes :
    0 < 4 ∧ 2 * (5 % 4) < 4 ∧ 2 * (6 % 4) = 4 ∧ 4 < 2 * (7 % 4) ∧ 4 ≤ 2 * (6 % 4) ∧ 9 % 2 = 1 := by decide

theorem witness_BorderModesExtendTheDimension : 1 ≤ 1 ∧ (-1 : Int) < 0 ∧ (0 : Int) ≤ 0 ∧ (0 : Int) < (1 : Nat) ∧ ((1 : Nat) : Int) ≤ 1 := by
  decide

/-- Two runs of `QUANT`, the second over the first's result. -/
theorem witness_QuantIsIdempotent :
    let s := started std .quant 2 1 1 [130, 25]
    let t := nextOr s (exec .quant s)
    let u := accept .quant { t with srcBase := t.dstBase, dstBase := 0x3000 }
    Memory.wf s.mem = true ∧ Memory.wf u.mem = true ∧ s.runsAlone .quant ∧ exec .quant s = .next t ∧ u.runsAlone .quant ∧
    u.width = s.width ∧ u.height = s.height ∧ u.channels = s.channels ∧ u.srcBase = s.dstBase ∧
    u.levelCount = s.levelCount ∧ u.level = s.level ∧ u.mem = t.mem ∧ exec .quant u = .next (nextOr u (exec .quant u)) :=
  ⟨by decide +kernel, by decide +kernel, alone (by decide +kernel) (by decide +kernel),
    eq_next (by decide +kernel), ⟨⟨rfl, by decide +kernel, by decide +kernel⟩, rfl⟩, by decide +kernel, by decide +kernel,
    by decide +kernel, by decide +kernel, by decide +kernel, by decide +kernel, by decide +kernel,
    eq_next (by decide +kernel)⟩

/-- A raster whose channel 1 is flat and whose channel 0 is not. -/
theorem witness_BlurKeepsFlatChannels :
    let s := started std (.blur 5) 2 1 3 [1, 77, 3, 4, 77, 6]
    Memory.wf s.mem = true ∧ s.runsAlone (.blur 5) ∧ exec (.blur 5) s = .next (nextOr s (exec (.blur 5) s)) ∧ 1 < s.C ∧
    ∀ y, y < s.H → ∀ x, x < s.W → s.src y x 1 = 77 :=
  ⟨by decide +kernel, alone (by decide +kernel) (by decide +kernel), eq_next (by decide +kernel), by decide,
    by decide +kernel⟩

theorem witness_OditherNeverDarkens :
    let s := started std .odither4x4 2 1 1 [250, 0]
    Memory.wf s.mem = true ∧ s.runsAlone .odither4x4 ∧ exec .odither4x4 s = .next (nextOr s (exec .odither4x4 s)) :=
  ⟨by decide +kernel, alone (by decide +kernel) (by decide +kernel), eq_next (by decide +kernel)⟩

/-- Two flat halves, the edge after column 1. -/
theorem witness_KuwaharaKeepsFlatAndSplitRasters :
    let s := started std (.kuwahara 3) 4 2 1 [0, 0, 255, 255, 0, 0, 255, 255]
    Memory.wf s.mem = true ∧ s.runsAlone (.kuwahara 3) ∧ exec (.kuwahara 3) s = .next (nextOr s (exec (.kuwahara 3) s)) ∧
    ∀ y, y < s.H → ∀ x, x < s.W → ∀ c, c < s.C → s.src y x c = if x < 2 then 0 else 255 :=
  ⟨by decide +kernel, alone (by decide +kernel) (by decide +kernel), eq_next (by decide +kernel),
    by decide +kernel⟩

/-! ### Error diffusion -/

/-- One level and sixteen levels, a one-channel and a three-channel pixel vector. -/
theorem witness_ScanSelectsTheFirstMinimum :
    (1 ≤ edDemo.NL ∧ edDemo.NL ≤ 16 ∧ pixelVector edDemo (loadScan edDemo) = [.ofNat 30] ∧ 0 < edDemo.C) ∧
    (let s : State := { started std .eddither 1 1 3 [10, 200, 90] with levelCount := 16 }
     1 ≤ s.NL ∧ s.NL ≤ 16 ∧ pixelVector s (loadScan s) = [.ofNat 10, .ofNat 200, .ofNat 90] ∧ 2 < s.C) ∧
    (1 ≤ ({ edDemo with levelCount := 1 } : State).NL ∧ ({ edDemo with levelCount := 1 } : State).NL ≤ 16) := by
  decide +kernel

/-- At `(0, 1)` of a 3 × 2 raster every neighbour lies inside; each clause has its pixel, and `(0, 0)` is none. -/
theorem witness_ScanSpreadsTheErrorForward :
    scanInRange edDemo edScan ∧ edScan.y < edDemo.H ∧ edScan.x < edDemo.W ∧ (edScan.y, edScan.x) = (0, 1) ∧
    (0 < edDemo.H ∧ 2 < edDemo.W) ∧ (1 < edDemo.H ∧ 0 < edDemo.W) ∧ 0 < edDemo.C := by
  unfold scanInRange
  decide +kernel

theorem witness_ScanVisitsEachPixelInRasterOrder : 0 < edDemo.W ∧ 0 < edDemo.W * edDemo.H ∧ 5 < edDemo.W * edDemo.H := by
  decide +kernel

/-- A scan whose pixel is backed, and one whose destination is not. -/
theorem witness_ScanMoveWritesOnePixel :
    (edDemo.Inv ∧ edDemo.scan = some (loadScan edDemo) ∧ (loadScan edDemo).y < edDemo.H ∧
      admits edDemo.cfg (edDemo.dstBase.toNat + 0) = true) ∧
    (edUnbacked.Inv ∧ edUnbacked.scan = some (loadScan edUnbacked) ∧ (loadScan edUnbacked).y < edUnbacked.H ∧
      admits edUnbacked.cfg (edUnbacked.dstBase.toNat + 0) = false) :=
  ⟨⟨edDemo_inv, by decide +kernel, by decide +kernel, by decide +kernel⟩,
    ⟨edUnbacked_inv, by decide +kernel, by decide +kernel, by decide +kernel⟩⟩

theorem witness_ScanMovesDoNotChangeTheResult :
    (edDemo.Inv ∧ edDemo.phase = .running ∧ decode? edDemo.cmd = some .eddither ∧
      regionsAdmitted .eddither edDemo = true) ∧
    (edUnbacked.Inv ∧ edUnbacked.phase = .running ∧ decode? edUnbacked.cmd = some .eddither ∧
      regionsAdmitted .eddither edUnbacked = false) :=
  ⟨⟨edDemo_inv, rfl, by decide, by decide +kernel⟩, ⟨edUnbacked_inv, rfl, by decide, by decide +kernel⟩⟩

theorem witness_ErrorSharesSumToTheError : numReduced (.fin true 255 0) ∧ numReduced (.fin false 3 4) :=
  ⟨.inl rfl, .inr (by decide)⟩

/-- A sum that rounds up (`1 + 3·2^-54`), of either sign; a tie (`1 + 2^-53`), whose other neighbour `1 + 2^-52` is as
close; and the first magnitude that is infinite in binary32. -/
theorem witness_BinaryRoundingIsToTheNearest :
    (∃ f, formatOf .binary64 = some f ∧ roundFinite f false (2 ^ 54 + 3) 54 = .fin false (2 ^ 52 + 1) 52 ∧
      roundFinite f true (2 ^ 54 + 3) 54 = .fin true (2 ^ 52 + 1) 52 ∧
      roundFinite f true (2 ^ 53 + 1) 53 = .fin true 1 0 ∧
      formatHolds f (((2 ^ 52 + 1 : Nat) : ℚ) / 2 ^ 52) ∧ ((2 ^ 52 + 1 : Nat) : ℚ) / 2 ^ 52 ≠ ((1 : Nat) : ℚ) / 2 ^ 0 ∧
      |((2 ^ 53 + 1 : Nat) : ℚ) / 2 ^ 53 - ((1 : Nat) : ℚ) / 2 ^ 0| =
        |((2 ^ 53 + 1 : Nat) : ℚ) / 2 ^ 53 - ((2 ^ 52 + 1 : Nat) : ℚ) / 2 ^ 52|) ∧
    ∃ f, formatOf .binary32 = some f ∧ roundFinite f true (2 ^ 128 - 2 ^ 103) 0 = .inf true ∧
      formatHolds f (((1 : Nat) : ℚ) / 2 ^ 0) ∧ ((1 : Nat) : ℚ) / 2 ^ 0 < 2 ^ f.maxExp := by
  refine ⟨⟨_, rfl, by decide +kernel, by decide +kernel, by decide +kernel, ⟨2 ^ 52 + 1, 1022, by decide, ?_⟩, ?_, ?_⟩,
    ⟨_, rfl, by decide +kernel, ⟨1, 149, by decide, ?_⟩, ?_⟩⟩
  · rw [show (1074 : Nat) = 52 + 1022 by decide, pow_add (2 : ℚ) 52 1022]
    exact (mul_div_mul_right _ _ (by positivity)).symm
  · norm_num
  · norm_num [abs_of_nonneg, abs_of_nonpos]
  · rw [pow_zero, div_one, Nat.cast_one, one_mul, div_self (by positivity)]
  · rw [pow_zero, div_one, Nat.cast_one]
    exact one_lt_pow₀ (by norm_num) (by decide)

/-! ### The whole machine -/

theorem witness_StepKeepsTheInvariant : blurDemo.Inv ∧ step blurDemo = .next (nextOr blurDemo (step blurDemo)) :=
  ⟨blurDemo_inv, eq_next (by decide +kernel)⟩

theorem witness_ResetMeetsTheInvariant :
    Memory.wf idleDemo.mem = true ∧ ∀ q ∈ idleDemo.mem, q.1 < 2 ^ 32 ∧ admits std q.1 = true := by decide +kernel

theorem witness_StepKeepsTheScanFaithful :
    let s : State := accept .eddither { ready std .eddither 3 2 1 (List.replicate 6 30) with agenda := [.scan] }
    s.Inv ∧ s.scanFaithful ∧ step s = .next (nextOr s (step s)) ∧ s.scan = some (loadScan s) ∧ s.raced = false := by
  exact ⟨inv_of_accept (by decide) (by decide +kernel) (memOk_of_listed (by decide +kernel) (by decide +kernel)),
    scanFaithful_of_accept, eq_next (by decide +kernel), by decide +kernel, rfl⟩

theorem witness_StepKeepsTheParameters : step blurDemo = .next (nextOr blurDemo (step blurDemo)) :=
  eq_next (by decide +kernel)

/-- The engine writes a destination byte; a host writes another. -/
theorem witness_MemoryChangesOnlyByItsWriters :
    (blurDemo.Inv ∧ step blurDemo = .next (nextOr blurDemo (step blurDemo)) ∧
      (nextOr blurDemo (step blurDemo)).mem.read 0x2000 ≠ blurDemo.mem.read 0x2000) ∧
    (let s : State := { idleDemo with host := { prog := [.sb 0x3000 7], pos := 0, t := 0 } }
     s.Inv ∧ step s = .next (nextOr s (step s)) ∧ (nextOr s (step s)).mem.read 0x3000 ≠ s.mem.read 0x3000) :=
  ⟨⟨blurDemo_inv, eq_next (by decide +kernel), by decide +kernel⟩,
    ⟨inv_of_idle rfl rfl rfl idleDemo_inv.status (memOk_of_listed (by decide +kernel) (by decide +kernel)),
      eq_next (by decide +kernel), by decide +kernel⟩⟩

/-- A destination byte of a running command and the byte just past its region. -/
theorem witness_HostByteAccesses :
    admits blurDemo.cfg (0x2003#32).toNat = true ∧ Memory.wf blurDemo.mem = true ∧
    inRunningDst blurDemo (0x2003#32).toNat = true ∧ inRunningDst blurDemo (0x2004#32).toNat = false := by decide +kernel

theorem witness_ResetPutsTheTableValues : regAt 0x24 = none ∧ regAt 0x02 = none ∧ idleDemo.phase = .idle := by decide

theorem witness_ResetAbandonsARunningCommand :
    (blurDemo.phase = .running ∧ decode? blurDemo.cmd = some (.blur 3) ∧ Memory.wf blurDemo.mem = true ∧
      inDest (.blur 3) blurDemo 0 3 0 ∧ admits blurDemo.cfg (dstAddr (.blur 3) blurDemo 0 3 0) = true ∧
      (dstRegion (.blur 3) blurDemo).has 0x2004 = false ∧ validate (some (.blur 3)) blurDemo = 0 ∧
      (srcRegion blurDemo).has 0x1003 = true) ∧
    (step blurDemo = .next (nextOr blurDemo (step blurDemo)) ∧ blurDemo.agenda.head? ≠ some .reset ∧
      (nextOr blurDemo (step blurDemo)).phase = .idle) := by
  unfold inDest
  exact ⟨by decide +kernel, eq_next (by decide +kernel), by decide, by decide +kernel⟩

/-- Two runs of `EDDITHER` whose memories differ outside the source. -/
theorem witness_ResultDependsOnlyOnRegistersAndSource :
    let s := edDemo
    let u : State := { edDemo with mem := Memory.write edDemo.mem 0x5000 9 }
    Memory.wf s.mem = true ∧ Memory.wf u.mem = true ∧ s.runsAlone .eddither ∧ u.runsAlone .eddither ∧ u.cfg = s.cfg ∧
    u.mem ≠ s.mem ∧ (∀ a, (srcRegion s).has a = true → u.mem.read a = s.mem.read a) ∧
    (s.scan = some (loadScan s) ∧ u.scan = some (loadScan u)) ∧
    exec .eddither s = .next (nextOr s (exec .eddither s)) ∧ exec .eddither u = .next (nextOr u (exec .eddither u)) := by
  refine ⟨by decide +kernel, by decide +kernel, alone (by decide +kernel) (by decide +kernel),
    ⟨⟨rfl, by decide +kernel, by decide +kernel⟩, rfl⟩, rfl, by decide +kernel, ?_, ⟨by decide +kernel, by decide +kernel⟩,
    eq_next (by decide +kernel), eq_next (by decide +kernel)⟩
  intro a ha
  have h := (Region.has_iff.1 ha).2
  have hlen : (srcRegion edDemo).base + (srcRegion edDemo).len = 0x1006 := by decide +kernel
  rw [Memory.read_write (by decide +kernel), if_neg (by omega)]

theorem witness_StartThenEngineRunsTheCommand :
    let s : State := { idleDemo with agenda := [.host, .engine], host := { prog := [.wr .ctrl 1], pos := 0, t := 0 } }
    s.Inv ∧ s.phase = .idle ∧ (Instr.blur 3).wf = true ∧ s.cmd = encode (.blur 3) ∧ validate (some (.blur 3)) s = 0 ∧
    regionsAdmitted (.blur 3) s = true ∧ s.agenda = .host :: .engine :: [] ∧
    s.host.prog[s.host.pos]? = some (.wr .ctrl 1) :=
  ⟨inv_of_idle rfl rfl rfl idleDemo_inv.status (memOk_of_listed (by decide +kernel) (by decide +kernel)), rfl, by decide,
    rfl, by decide +kernel, by decide +kernel, rfl, rfl⟩

/-- The loop at the start of a program, while RUNNING and while IDLE. -/
theorem witness_PollLeavesAtTheFirstNotBusy :
    ∀ b ∈ [blurDemo, idleDemo],
      let s : State := { b with agenda := [.host, .host, .host], host := { prog := pollStmts 7, pos := 0, t := 0 } }
      s.agenda = .host :: .host :: .host :: [] ∧ (∀ j, j < 3 → s.host.prog[s.host.pos + j]? = (pollStmts 7)[j]?) ∧
      labelPos s.host.prog 7 = some s.host.pos := by decide +kernel

/-- A running block whose next turn is a reset, and an idle one. -/
theorem witness_ResetTurnResetsTheBlock :
    (let s : State := { blurDemo with agenda := [.reset, .host] }
     s.agenda = .reset :: [.host] ∧ s.phase = .running ∧ decode? s.cmd = some (.blur 3)) ∧
    (let s : State := { idleDemo with agenda := [.reset] }
     s.agenda = .reset :: [] ∧ s.phase = .idle) := by decide

/-- `1` and `-1` in both binary formats: their sum is an exact zero. -/
theorem witness_BinaryOperationsRoundTheExactResult :
    (∃ f, formatOf .binary64 = some f) ∧ (∃ f, formatOf .binary32 = some f) ∧
    numValue (.fin false 1 0) + numValue (.fin true 1 0) = 0 :=
  ⟨⟨_, rfl⟩, ⟨_, rfl⟩, by norm_num [numValue]⟩

theorem witness_ImageSetsTheGeometry :
    let s : State := { State.reset with host := { prog := imageStmts 4 1 1 0x1000 0x2000, pos := 0, t := 0 } }
    s.phase = .idle ∧ s.agenda = [] ∧
    ∀ j, j < 5 → s.host.prog[s.host.pos + j]? = (imageStmts 4 1 1 0x1000 0x2000)[j]? := by decide +kernel

end Sys2Proof.Tests
end

section
/-!
PROOFS. `Round` is its three formulas (00_scope.md R3): what each conversion answers below, at and above the half.
-/

namespace Sys2Proof.Machine

/-! ## Round -/

theorem roundDiv_halfUp_of_ge {num den : Nat} (h : den ≤ 2 * (num % den)) : roundDiv num den .halfUp = num / den + 1 := by
  rw [roundDiv, if_pos h]

theorem roundDiv_halfUp_of_lt {num den : Nat} (h : 2 * (num % den) < den) : roundDiv num den .halfUp = num / den := by
  rw [roundDiv, if_neg (Nat.not_le.2 h), Nat.add_zero]

theorem roundDiv_halfEven_of_gt {num den : Nat} (h : den < 2 * (num % den)) :
    roundDiv num den .halfEven = num / den + 1 := by
  rw [roundDiv, if_pos h]

theorem roundDiv_halfEven_of_lt {num den : Nat} (h : 2 * (num % den) < den) :
    roundDiv num den .halfEven = num / den := by
  rw [roundDiv, if_neg (Nat.lt_asymm h), if_pos h]

theorem roundDiv_halfEven_of_eq {num den : Nat} (h : 2 * (num % den) = den) :
    roundDiv num den .halfEven = num / den + num / den % 2 := by
  rw [roundDiv, if_neg h.symm.not_lt, if_neg h.not_lt]

/-- An exact half goes to the even one of the two neighbours. -/
theorem roundDiv_halfEven_even {num den : Nat} (h : 2 * (num % den) = den) : roundDiv num den .halfEven % 2 = 0 := by
  rw [roundDiv_halfEven_of_eq h]
  omega

/-- An odd denominator has no exact half, the one remainder on which the two conversions differ. -/
theorem roundDiv_halfUp_eq_halfEven {num den : Nat} (hodd : den % 2 = 1) :
    roundDiv num den .halfUp = roundDiv num den .halfEven := by
  have hne : 2 * (num % den) ≠ den := by omega
  rcases Nat.lt_or_gt_of_ne hne with h | h
  · rw [roundDiv_halfUp_of_lt h, roundDiv_halfEven_of_lt h]
  · rw [roundDiv_halfUp_of_ge h.le, roundDiv_halfEven_of_gt h]

/-- Settles O32: one lemma per conversion and side of the half. -/
theorem roundFollowsItsThreeModes : Obligations.RoundFollowsItsThreeModes := by
  intro num den _
  exact ⟨rfl, roundDiv_halfUp_of_ge, roundDiv_halfUp_of_lt, roundDiv_halfEven_of_gt, roundDiv_halfEven_of_lt,
    fun h => ⟨roundDiv_halfEven_even h, roundDiv_cases num den .halfEven⟩, roundDiv_halfUp_eq_halfEven⟩

end Sys2Proof.Machine
end

section
/-!
PROOFS. The parameters of the instantiation are constants of a run (00_scope.md R2): no register write, START,
completion or reset changes them, so no agent's move does.
-/

namespace Sys2Proof.Machine

/-! ## What leaves the parameters unchanged -/

@[simp] theorem writeReg_cfg (r : Reg) (v : Word) (s : State) : (writeReg r v s).cfg = s.cfg := by
  cases r <;> rfl

@[simp] theorem onStart_cfg (op : Option Instr) (s : State) : (onStart op s).cfg = s.cfg := by
  rcases onStart_cases op s with ⟨-, he⟩ | ⟨i, -, -, he⟩
  · rw [he, reject_cfg]
  · rw [he, accept_cfg]

@[simp] theorem complete_cfg (i : Instr) (f : Nat → Nat → Nat → Byte) (s : State) : (complete i f s).cfg = s.cfg := by
  obtain ⟨_, _, _, _, _, _, he⟩ := complete_frame i f s
  rw [he]

@[simp] theorem scanMove_cfg (s : State) : (scanMove s).cfg = s.cfg := by
  rcases scanMove_cases s with he | ⟨-, e, -, -, he⟩
  · rw [he]
  · rw [he, visitPixel_cfg]

/-- A reset puts the block back and keeps the platform's parameters. -/
@[simp] theorem resetBlock_cfg (s : State) : (resetBlock s).cfg = s.cfg := rfl

theorem runStmt_cfg {st : HostStmt} {s t : State} (h : runStmt st s = .next t) : t.cfg = s.cfg := by
  rcases runStmt_cases h with ⟨_, rfl⟩ | ⟨_, rfl⟩ | ⟨-, r, v, rfl⟩ | ⟨-, rfl⟩ | ⟨a, v, -, -, rfl⟩
  · rfl
  · rfl
  · exact writeReg_cfg r v s
  · exact onStart_cfg _ s
  · rfl

theorem hostMove_cfg {s t : State} (h : hostMove s = .next t) : t.cfg = s.cfg := by
  rcases hostMove_cases h with rfl | ⟨_, -, hst⟩
  · rfl
  · exact (runStmt_cfg hst).trans (gotoStmt_cfg _ s)

theorem engineMove_cfg {s t : State} (h : engineMove s = .next t) : t.cfg = s.cfg := by
  rcases engineMove_cases h with rfl | ⟨-, i, -, rfl⟩
  · rfl
  · exact complete_cfg i _ s

theorem takeTurn_cfg {turn : Turn} {s t : State} (h : takeTurn turn s = .next t) : t.cfg = s.cfg := by
  cases turn with
  | host => exact hostMove_cfg h
  | engine => exact engineMove_cfg h
  | scan => cases h; exact scanMove_cfg s
  | reset => cases h; exact resetBlock_cfg s

/-- Settles O49: a step is one agent's move, and popping the agenda is no change of the parameters. -/
theorem stepKeepsTheParameters : Obligations.StepKeepsTheParameters := by
  intro s t h
  obtain ⟨_, rest, hturn, -⟩ := step_takes_turn s
  rw [hturn] at h
  calc t.cfg = { s with agenda := rest }.cfg := takeTurn_cfg h
    _ = s.cfg := rfl

end Sys2Proof.Machine
end

section
/-!
PROOFS. The invariant of the machine, step by step (10_state.md R9, R20; 20_memory.md R22; 60_exceptions.md R79, R86):
what it says of an IDLE and of a RUNNING state, and that each agent's move keeps it.
-/

namespace Sys2Proof.Machine

/-! ## What the invariant says in each phase -/

/-- While IDLE the invariant speaks of STATUS and raster memory alone: there is no scan and no race. -/
theorem State.inv_iff_of_idle {s : State} (hp : s.phase = .idle) :
    s.Inv ↔ s.statusOk ∧ s.memOk ∧ s.raced = false ∧ s.scan = none := by
  have hnr : s.phase ≠ .running := by rw [hp]; decide
  constructor
  · rintro ⟨hst, hm, ⟨-, hraced⟩, hscan, -⟩
    exact ⟨hst, hm, hraced hp, Option.eq_none_iff_forall_ne_some.2 fun e he => hnr (hscan e he).1⟩
  · rintro ⟨hst, hm, hraced, hscan⟩
    refine ⟨hst, hm, ⟨fun h => absurd h hnr, fun _ => hraced⟩, fun e he => ?_, fun h => absurd h hnr⟩
    exact absurd (hscan.symm.trans he) (by simp)

/-- While RUNNING the command in CMD has passed `Validate`. -/
theorem State.Inv.validated {s : State} {i : Instr} (h : s.Inv) (hp : s.phase = .running)
    (hd : decode? s.cmd = some i) : Validated i s := by
  obtain ⟨j, hj, hv⟩ := h.run.1 hp
  obtain rfl : j = i := Option.some.inj (hj.symm.trans hd)
  exact validate_eq_zero_iff.1 hv

/-- While RUNNING neither DONE nor ERR is set, and ERRCODE is 0. -/
theorem State.Inv.status_of_running {s : State} (h : s.Inv) (hp : s.phase = .running) :
    s.done = false ∧ s.err = false ∧ s.errcode = 0 := by
  obtain ⟨hcode, -, -, hrun⟩ := h.status
  obtain ⟨hdone, herr⟩ := hrun hp
  exact ⟨hdone, herr, hcode herr⟩

/-- A scan's next pixel lies in the raster. -/
theorem scanInRange.x_lt {s : State} {e : Scan} (h : scanInRange s e) (hy : e.y < s.H) : e.x < s.W := by
  rcases h.2 with ⟨-, hx⟩ | ⟨he, -⟩
  · exact hx
  · omega

/-! ## Raster memory -/

/-- Raster memory stays canonical and backed when every newly listed byte is backed. -/
theorem State.memOk.of_listed {s t : State} (h : s.memOk) (hcfg : t.cfg = s.cfg) (hwf : Memory.wf t.mem = true)
    (hnew : ∀ q ∈ t.mem, q ∈ s.mem ∨ (q.1 < Config.addressSpace ∧ admits s.cfg q.1 = true)) : t.memOk := by
  refine ⟨hwf, fun q hq => ?_⟩
  rw [hcfg]
  exact (hnew q hq).elim (h.2 q) id

/-- The engine's writes of a validated command's destination stay in the address space. -/
theorem storeDest_memOk {i : Instr} {s : State} (f : Nat → Nat → Nat → Byte) (h : s.memOk) (hv : Validated i s) :
    (storeDest i f s).memOk := by
  refine h.of_listed rfl (storeDest_wf f h.1) fun q hq => ?_
  rcases storeRaster_mem hq with hq | ⟨hlt, ha⟩
  · exact .inl hq
  · exact .inr ⟨hlt.trans_le hv.dstEnd, ha⟩

theorem freeDest_memOk {i : Instr} {s : State} (h : s.memOk) (hv : Validated i s) : (freeDest i s).memOk :=
  storeDest_memOk (freeSample s (destChannels i s)) h hv

theorem visitPixel_memOk {e : Scan} {s : State} (h : s.memOk) (hv : Validated .eddither s) (hr : scanInRange s e)
    (hy : e.y < s.H) : (visitPixel e s).memOk := by
  refine h.of_listed rfl (storeByte_wf _ _ _ h.1) fun q hq => ?_
  rcases storeByte_mem hq with hq | ⟨hqa, ha⟩
  · exact .inl hq
  · have hdst := (Region.has_iff.1 (dstAddr_has (i := .eddither) ⟨hy, hr.x_lt hy, Nat.zero_lt_one⟩)).2
    exact .inr (hqa ▸ ⟨hdst.trans_le hv.dstEnd, ha⟩)

/-- A host byte write at a backed address keeps raster memory canonical and backed. -/
theorem hostWrite_memOk {s t : State} {a : BitVec 32} {v : Byte} (h : s.memOk) (ha : admits s.cfg a.toNat = true)
    (hcfg : t.cfg = s.cfg) (hmem : t.mem = s.mem.write a.toNat v) : t.memOk := by
  refine h.of_listed hcfg (hmem ▸ Memory.wf_write _ _ h.1) fun q hq => ?_
  rw [hmem] at hq
  rcases Memory.mem_write hq with hq | rfl
  · exact .inl hq
  · exact .inr ⟨a.isLt, ha⟩

/-! ## START, completion, scan and reset -/

theorem reject_inv {op : Option Instr} {s : State} (h : s.Inv) (hp : s.phase = .idle) (hv : validate op s ≠ 0) :
    (reject (validate op s) s).Inv := by
  obtain ⟨-, hm, hraced, hscan⟩ := (State.inv_iff_of_idle hp).1 h
  refine (State.inv_iff_of_idle (s := reject _ s) hp).2
    ⟨⟨fun he => ?_, fun _ => ?_, fun _ => rfl, fun hr => ?_⟩, hm, hraced, hscan⟩
  · exact absurd he (by simp)
  · exact (validate_range op s).resolve_left hv
  · exact absurd (hp.symm.trans hr) (by decide)

/-- The working buffer a START creates, and for which command. -/
theorem startScan_eq_some {i : Instr} {s : State} {e : Scan} (h : startScan i s = some e) :
    i = .eddither ∧ e = loadScan s := by
  cases i with
  | eddither => exact ⟨rfl, (Option.some.inj h).symm⟩
  | _ => cases h

theorem accept_inv {i : Instr} {s : State} (hm : s.memOk) (hd : decode? s.cmd = some i)
    (hv : validate (some i) s = 0) : (accept i s).Inv where
  status := ⟨fun _ => rfl, fun h => absurd h (by simp), fun _ => rfl, fun _ => ⟨rfl, rfl⟩⟩
  mem := hm
  run := ⟨fun _ => ⟨i, hd, hv⟩, fun _ => rfl⟩
  scan := by
    have hvalid := validate_eq_zero_iff.1 hv
    refine ⟨fun e he => ?_, fun _ hed => ?_⟩
    · obtain ⟨rfl, rfl⟩ := startScan_eq_some he
      exact ⟨rfl, hd, loadScan_inRange hvalid.width hvalid.height⟩
    · obtain rfl : i = .eddither := Option.some.inj (hd.symm.trans hed)
      rfl

theorem onStart_inv {s : State} (h : s.Inv) (hp : s.phase = .idle) : (onStart (decode? s.cmd) s).Inv := by
  rcases onStart_cases (decode? s.cmd) s with ⟨hv, he⟩ | ⟨i, hd, hv, he⟩
  · rw [he]; exact reject_inv h hp hv
  · rw [he]; exact accept_inv h.mem hd hv

/-- The end of a run whose STATUS was that of a RUNNING block. -/
theorem endRun_inv {s : State} (hm : s.memOk) (herr : s.err = false) (hcode : s.errcode = 0) : (endRun s).Inv := by
  refine (State.inv_iff_of_idle rfl).2 ⟨⟨fun _ => hcode, fun he => ?_, fun he => ?_, fun hr => ?_⟩, hm, rfl, rfl⟩
  · exact absurd (herr.symm.trans he) (by decide)
  · exact absurd (herr.symm.trans he) (by decide)
  · exact absurd hr (by simp [endRun])

theorem complete_inv {i : Instr} (f : Nat → Nat → Nat → Byte) {s : State} (h : s.Inv) (hp : s.phase = .running)
    (hd : decode? s.cmd = some i) : (complete i f s).Inv := by
  have hv := h.validated hp hd
  obtain ⟨-, herr, hcode⟩ := h.status_of_running hp
  rcases complete_cases i f s with ⟨-, he⟩ | ⟨-, -, he⟩ | ⟨-, -, he⟩
  · rwa [he]
  · rw [he]; exact endRun_inv (freeDest_memOk h.mem hv) herr hcode
  · rw [he]; exact endRun_inv (storeDest_memOk f h.mem hv) herr hcode

theorem visitPixel_inv {e : Scan} {s : State} (h : s.Inv) (he : s.scan = some e) (hy : e.y < s.H) :
    (visitPixel e s).Inv := by
  obtain ⟨hp, hd, hr⟩ := h.scan.1 e he
  have hv := h.validated hp hd
  refine ⟨h.status, visitPixel_memOk h.mem hv hr hy, h.run, fun e' he' => ?_, fun _ _ => rfl⟩
  obtain rfl : nextScan s e = e' := Option.some.inj he'
  exact ⟨hp, hd, nextScan_inRange hv.width hr hy⟩

theorem abandonRun_memOk {s : State} (h : s.Inv) : (abandonRun s).memOk := by
  rcases abandonRun_cases s with he | ⟨hp, i, hd, he⟩
  · rw [he]; exact h.mem
  · rw [he]; exact freeDest_memOk h.mem (h.validated hp hd)

@[simp] theorem abandonRun_cfg (s : State) : (abandonRun s).cfg = s.cfg := by
  rcases abandonRun_cases s with he | ⟨-, i, -, he⟩
  · rw [he]
  · rw [he, freeDest_cfg]

theorem resetBlock_inv {s : State} (h : s.Inv) : (resetBlock s).Inv := by
  have ha := abandonRun_memOk h
  have hm : (resetBlock s).memOk := ha.of_listed (abandonRun_cfg s).symm ha.1 fun q hq => .inl hq
  refine (State.inv_iff_of_idle rfl).2 ⟨⟨fun _ => rfl, fun he => ?_, fun _ => rfl, fun hr => ?_⟩, hm, rfl, rfl⟩
  · exact absurd he (by simp [resetBlock, State.resetWith])
  · exact absurd hr (by simp [resetBlock, State.resetWith])

/-! ## The host's statements -/

@[simp] theorem writeReg_phase (r : Reg) (v : Word) (s : State) : (writeReg r v s).phase = s.phase := by
  cases r <;> rfl

theorem writeReg_inv {r : Reg} {v : Word} {s : State} (h : s.Inv) (hp : s.phase = .idle) : (writeReg r v s).Inv := by
  have hidle := (State.inv_iff_of_idle hp).1 h
  refine (State.inv_iff_of_idle ((writeReg_phase r v s).trans hp)).2 ?_
  cases r <;> exact hidle

theorem inRunningRegions_of_idle {s : State} (hp : s.phase = .idle) (a : Nat) : inRunningRegions s a = false := by
  simp [inRunningRegions, inRunningDst, hp]

/-- A change of the host agent and of the count of draws is none of the invariant's. -/
theorem State.Inv.with_host_draws {s : State} (h : s.Inv) (hs : HostState) (n : Nat) :
    { s with host := hs, draws := n }.Inv := ⟨h.status, h.mem, h.run, h.scan⟩

theorem runStmt_inv {st : HostStmt} {s t : State} (h : s.Inv) (ht : runStmt st s = .next t) : t.Inv := by
  rcases runStmt_cases ht with ⟨hs, rfl⟩ | ⟨hs, rfl⟩ | ⟨hp, r, v, rfl⟩ | ⟨hp, rfl⟩ | ⟨a, v, -, ha, rfl⟩
  · exact h.with_host_draws hs s.draws
  · exact h.with_host_draws hs (s.draws + 1)
  · exact writeReg_inv h hp
  · exact onStart_inv h hp
  · refine ⟨h.status, hostWrite_memOk h.mem ha rfl rfl, ⟨h.run.1, fun (hp : s.phase = .idle) => ?_⟩, h.scan⟩
    show (s.raced || inRunningRegions s a.toNat) = false
    rw [h.run.2 hp, inRunningRegions_of_idle hp, Bool.or_false]

/-! ## Every move -/

theorem hostMove_inv {s t : State} (h : s.Inv) (ht : hostMove s = .next t) : t.Inv := by
  rcases hostMove_cases ht with rfl | ⟨st, -, hst⟩
  · exact h
  · exact runStmt_inv (h.with_host_draws { s.host with pos := s.host.pos + 1 } s.draws) hst

theorem engineMove_inv {s t : State} (h : s.Inv) (ht : engineMove s = .next t) : t.Inv := by
  rcases engineMove_cases ht with rfl | ⟨hp, i, hd, rfl⟩
  · exact h
  · exact complete_inv _ h hp hd

theorem scanMove_inv {s : State} (h : s.Inv) : (scanMove s).Inv := by
  rcases scanMove_cases s with he | ⟨-, e, hscan, hy, he⟩
  · rwa [he]
  · rw [he]; exact visitPixel_inv h hscan hy

theorem takeTurn_inv {turn : Turn} {s t : State} (h : s.Inv) (ht : takeTurn turn s = .next t) : t.Inv := by
  cases turn with
  | host => exact hostMove_inv h ht
  | engine => exact engineMove_inv h ht
  | scan => cases ht; exact scanMove_inv h
  | reset => cases ht; exact resetBlock_inv h

/-- Settles O46: a step is one agent's move, each of which keeps the invariant, and the agenda is no part of it. -/
theorem stepKeepsTheInvariant : Obligations.StepKeepsTheInvariant := by
  intro s t h ht
  obtain ⟨turn, rest, hturn, -⟩ := step_takes_turn s
  have hpop : { s with agenda := rest }.Inv := ⟨h.status, h.mem, h.run, h.scan⟩
  exact takeTurn_inv hpop (hturn.symm.trans ht)

end Sys2Proof.Machine
end

section
/-!
PROOFS. The register window as the host sees it (10_state.md R7 to R18): one rule for a read, one for a write of each
kind of slot, and what a register reads after a write.
-/

namespace Sys2Proof.Machine

/-! ## Accesses of a slot -/

/-- A host read of a register, in either phase. -/
theorem busRead_reg (s : State) (r : Reg) :
    busRead (s.cfg.regBase + r.offset) 4 s = .next (setT (readReg r s) s) := by
  rw [busRead_eq s r.offset_lt r.offset_aligned, readSlot, regAt_offset]

/-- A host write of a register other than CTRL while IDLE. -/
theorem busWrite_reg {s : State} {r : Reg} (v : Word) (hp : s.phase = .idle) (hr : r ≠ .ctrl) :
    busWrite (s.cfg.regBase + r.offset) 4 v s = .next (writeReg r v s) := by
  rw [busWrite_eq s v r.offset_lt r.offset_aligned, writeSlot_reg v hp hr]

/-- A reserved slot ignores a write in either phase (10_state.md R7). -/
theorem writeSlot_reserved {s : State} {off : Nat} (v : Word) (h : regAt off = none) : writeSlot off v s = .next s := by
  cases hp : s.phase with
  | running => exact writeSlot_running off v hp
  | idle => simp only [writeSlot, hp, h]

/-- A START write while IDLE is `OnStart` of the word in CMD (60_exceptions.md R79). -/
theorem startCommand_idle {s : State} (hp : s.phase = .idle) : startCommand s = .next (onStart (decode? s.cmd) s) := by
  unfold startCommand
  cases decode? s.cmd with
  | none => rfl
  | some i => exact exec_idle i hp

/-- A write of CTRL acts only with START = 1 (10_state.md R8). -/
theorem writeSlot_ctrl {s : State} (v : Word) (hp : s.phase = .idle) :
    writeSlot 0 v s = if v.getLsbD 0 then .next (onStart (decode? s.cmd) s) else .next s := by
  rw [← startCommand_idle hp]
  simp only [writeSlot, hp]
  rfl

theorem busWrite_ctrl (s : State) (v : Word) : busWrite s.cfg.regBase 4 v s = writeSlot 0 v s :=
  busWrite_eq s (off := 0) v (by decide) rfl

/-! ## The field of a register -/

/-- A word stored into a field of `n` bits and read back keeps those bits. -/
theorem setWidth_setWidth_eq_and_mask {n : Nat} (hn : n ≤ 32) (v : Word) :
    (v.setWidth n).setWidth 32 = v &&& BitVec.ofNat 32 (2 ^ n - 1) := by
  have hm : 2 ^ n - 1 < 2 ^ 32 := by
    have := Nat.pow_le_pow_right (n := 2) (by decide) hn
    omega
  apply BitVec.eq_of_toNat_eq
  rw [BitVec.toNat_and, BitVec.toNat_setWidth, BitVec.toNat_setWidth, BitVec.toNat_ofNat, Nat.mod_eq_of_lt hm,
    Nat.and_two_pow_sub_one_eq_mod, Nat.mod_eq_of_lt ((Nat.mod_le _ _).trans_lt v.isLt)]

/-- A field of `n` bits, read as a word, has no other bit. -/
theorem setWidth_and_mask {n : Nat} (hn : n ≤ 32) (x : BitVec n) :
    x.setWidth 32 &&& BitVec.ofNat 32 (2 ^ n - 1) = x.setWidth 32 := by
  rw [← setWidth_setWidth_eq_and_mask hn, BitVec.setWidth_setWidth_of_le x hn, BitVec.setWidth_eq]

/-- Every register but STATUS reads 0 outside its field (10_state.md R7, R8). -/
theorem readReg_and_fieldMask {r : Reg} (s : State) (hr : r ≠ .status) : readReg r s &&& fieldMask r = readReg r s := by
  cases r with
  | status => exact absurd rfl hr
  | ctrl => exact BitVec.and_zero
  | cmd | srcBase | dstBase => exact BitVec.and_allOnes
  | width => exact setWidth_and_mask (by decide) s.width
  | height => exact setWidth_and_mask (by decide) s.height
  | channels => exact setWidth_and_mask (by decide) s.channels
  | levelCount => exact setWidth_and_mask (by decide) s.levelCount
  | level i => exact setWidth_and_mask (by decide) s.level[i]

/-- A written register reads the bits of its field. -/
theorem readReg_writeReg_same {r : Reg} (v : Word) (s : State) (hr : r ≠ .status) :
    readReg r (writeReg r v s) = v &&& fieldMask r := by
  cases r with
  | status => exact absurd rfl hr
  | ctrl => exact BitVec.and_zero.symm
  | cmd | srcBase | dstBase => exact BitVec.and_allOnes.symm
  | width | height => exact setWidth_setWidth_eq_and_mask (n := 16) (by decide) v
  | channels => exact setWidth_setWidth_eq_and_mask (n := 2) (by decide) v
  | levelCount => exact setWidth_setWidth_eq_and_mask (n := 5) (by decide) v
  | level i =>
    show ((s.level.set i.val (v.setWidth 8) i.isLt)[i]).setWidth 32 = _
    rw [level_set, if_pos rfl]
    exact setWidth_setWidth_eq_and_mask (n := 8) (by decide) v

/-- Every other register reads as before. -/
theorem readReg_writeReg_of_ne {q r : Reg} (v : Word) (s : State) (h : q ≠ r) :
    readReg q (writeReg r v s) = readReg q s := by
  cases r with
  | level i =>
    cases q with
    | level j =>
      have hij : i ≠ j := fun hij => h (congrArg Reg.level hij.symm)
      show ((s.level.set i.val (v.setWidth 8) i.isLt)[j]).setWidth 32 = _
      rw [level_set, if_neg hij]
      rfl
    | _ => rfl
  | _ => cases q <;> simp_all [readReg, writeReg, statusWord, State.busy]

/-- A register write changes registers alone. -/
theorem writeReg_frame (r : Reg) (v : Word) (s : State) :
    writeReg r v s =
      { s with cmd := (writeReg r v s).cmd, width := (writeReg r v s).width, height := (writeReg r v s).height
               channels := (writeReg r v s).channels, srcBase := (writeReg r v s).srcBase
               dstBase := (writeReg r v s).dstBase, levelCount := (writeReg r v s).levelCount
               level := (writeReg r v s).level } := by
  cases r <;> rfl

/-! ## Reads and writes -/

/-- Settles O58: a read answers the register, whose field is as wide as its value. -/
theorem registerReadsReturnTheRegister : Obligations.RegisterReadsReturnTheRegister := by
  intro s r
  have wide : ∀ {n : Nat} (x : BitVec n), n ≤ 32 → (x.setWidth 32).toNat = x.toNat := fun x hn =>
    BitVec.toNat_setWidth_of_le hn
  refine ⟨busRead_reg s r, readReg_and_fieldMask s, rfl, wide s.width (by decide), wide s.height (by decide),
    wide s.channels (by decide), rfl, rfl, wide s.levelCount (by decide), fun i => ?_⟩
  have hi : s.level.toList.getD i.val 0 = s.level[i] := by simp
  rw [hi]
  exact wide s.level[i] (by decide)

/-- Settles O7: the write stores through `writeReg`, and the read at the same address answers what it stored. -/
theorem registerWriteStoresItsField : Obligations.RegisterWriteStoresItsField := by
  intro s r v hp hr
  refine ⟨writeReg r v s, busWrite_reg v hp hr, fun hs => ?_, fun q hq => readReg_writeReg_of_ne v s hq, ?_,
    writeReg_frame r v s⟩
  · have hsame := readReg_writeReg_same v s hs
    have hread := busRead_reg (writeReg r v s) r
    rw [writeReg_cfg, hsame] at hread
    exact ⟨hsame, hread⟩
  · rintro rfl
    rfl

/-- Settles O8: no register stands at a reserved offset. -/
theorem reservedSlotsReadZeroAndIgnoreWrites : Obligations.ReservedSlotsReadZeroAndIgnoreWrites := by
  intro s off v halign hoff
  have hlt : off < 256 := by omega
  have hnone := regAt_reserved hoff
  constructor
  · rw [busRead_eq s hlt halign, readSlot, hnone]
  · rw [busWrite_eq s v hlt halign, writeSlot_reserved v hnone]

/-- Settles O9: by the phase and the START bit. -/
theorem ctrlStartsOnlyWithBitZeroWhileIdle : Obligations.CtrlStartsOnlyWithBitZeroWhileIdle := by
  refine ⟨fun _ _ => rfl, fun s v => ⟨rfl, fun hv => ?_, fun hp => ?_, fun hp hv => ?_⟩⟩
  · rw [busWrite_ctrl]
    cases hp : s.phase with
    | running => exact writeSlot_running 0 v hp
    | idle => rw [writeSlot_ctrl v hp, hv, if_neg Bool.false_ne_true]
  · rw [busWrite_ctrl, writeSlot_running 0 v hp]
  · rw [busWrite_ctrl, writeSlot_ctrl v hp, if_pos hv]

/-! ## STATUS -/

theorem toNat_append_eq_add {m n : Nat} (x : BitVec m) (y : BitVec n) :
    (x ++ y).toNat = x.toNat * 2 ^ n + y.toNat := by
  rw [BitVec.toNat_append, ← Nat.shiftLeft_add_eq_or_of_lt y.isLt, Nat.shiftLeft_eq]

/-- The STATUS word as a number: each field at its weight (10_state.md R9). -/
theorem statusWord_toNat (s : State) :
    (statusWord s).toNat = 16 * s.errcode.toNat + 4 * s.err.toNat + 2 * s.done.toNat + s.busy.toNat := by
  simp only [statusWord, toNat_append_eq_add, BitVec.toNat_ofBool, BitVec.toNat_ofNat]
  omega

/-- A bit of a word is that binary digit of its number. -/
theorem getLsbD_of_digit {w i : Nat} {x : BitVec w} {b : Bool} (h : x.toNat / 2 ^ i % 2 = b.toNat) : x.getLsbD i = b := by
  rw [← BitVec.testBit_toNat, Nat.testBit_eq_decide_div_mod_eq, h]
  cases b <;> rfl

/-- The exclusions of STATUS (10_state.md R9) and the codes it can show (60_exceptions.md R83). -/
theorem State.statusOk.exclusive {s : State} (h : s.statusOk) :
    (s.phase = .running → s.done = false ∧ s.err = false) ∧ (s.done = true → s.err = false) ∧
    (s.err = false → s.errcode = 0) ∧ s.errcode.toNat ≤ 2 := by
  obtain ⟨hcode, herr, hdone, hrun⟩ := h
  refine ⟨hrun, fun hd => Bool.eq_false_iff.2 fun he => ?_, hcode, ?_⟩
  · exact absurd (hd.symm.trans (hdone he)) (by decide)
  · cases he : s.err with
    | false => rw [hcode he]; decide
    | true => rcases herr he with hc | hc <;> rw [hc] <;> decide

/-- Settles O10: each bit is a digit of the word's number, and the invariant excludes the rest. -/
theorem statusWordHasItsFields : Obligations.StatusWordHasItsFields := by
  intro s
  have hword := statusWord_toNat s
  have hbusy := s.busy.toNat_lt
  have hdone := s.done.toNat_lt
  have herr := s.err.toNat_lt
  exact ⟨getLsbD_of_digit (b := s.busy) (by omega), getLsbD_of_digit (by omega), getLsbD_of_digit (by omega),
    getLsbD_of_digit (b := false) (by rw [Bool.toNat_false]; omega), by omega, fun h => h.status.exclusive⟩

/-! ## Registers hold while a command runs (10_state.md R18) -/

/-- In `t` the parameters and the registers a command reads are those of `s`. -/
structure HoldsRegisters (s t : State) : Prop extends SameScanInputs s t where
  cmd     : t.cmd = s.cmd
  srcBase : t.srcBase = s.srcBase
  dstBase : t.dstBase = s.dstBase

theorem HoldsRegisters.srcRegion {s t : State} (h : HoldsRegisters s t) : srcRegion t = srcRegion s := by
  simp only [Machine.srcRegion, h.W, h.H, h.C, h.srcBase]

theorem HoldsRegisters.dstRegion {s t : State} (h : HoldsRegisters s t) (i : Instr) : dstRegion i t = dstRegion i s := by
  cases i <;> simp only [Machine.dstRegion, destChannels, h.W, h.H, h.C, h.dstBase]

theorem HoldsRegisters.regionsAdmitted {s t : State} (h : HoldsRegisters s t) (i : Instr) :
    regionsAdmitted i t = regionsAdmitted i s := by
  simp only [Machine.regionsAdmitted, h.srcRegion, h.dstRegion, h.cfg]

theorem HoldsRegisters.validate {s t : State} (h : HoldsRegisters s t) (i : Instr) :
    validate (some i) t = validate (some i) s :=
  validate_congr h.width h.height h.channels h.srcBase h.dstBase h.levelCount

/-- What the moves of a run change is none of them a register. -/
theorem holdsRegisters_update (s : State) (m : Memory) (ph : Phase) (sc : Option Scan) (r : Bool) (n : Nat) (dn : Bool)
    (hs : HostState) (ag : List Turn) :
    HoldsRegisters s { s with mem := m, phase := ph, scan := sc, raced := r, draws := n, done := dn, host := hs
                              agenda := ag } :=
  ⟨⟨rfl, rfl, rfl, rfl, rfl, rfl⟩, rfl, rfl, rfl⟩

theorem hostMove_holdsRegisters {s t : State} (hp : s.phase = .running) (h : hostMove s = .next t) :
    HoldsRegisters s t := by
  have hbusy : s.phase ≠ .idle := by rw [hp]; decide
  rcases hostMove_cases h with rfl | ⟨st, -, hst⟩
  · exact holdsRegisters_update ..
  · rcases runStmt_cases hst with ⟨_, rfl⟩ | ⟨_, rfl⟩ | ⟨hidle, -⟩ | ⟨hidle, -⟩ | ⟨_, _, -, -, rfl⟩
    · exact holdsRegisters_update ..
    · exact holdsRegisters_update ..
    · exact absurd hidle hbusy
    · exact absurd hidle hbusy
    · exact holdsRegisters_update ..

theorem engineMove_holdsRegisters {s t : State} (h : engineMove s = .next t) : HoldsRegisters s t := by
  rcases engineMove_cases h with rfl | ⟨-, i, -, rfl⟩
  · exact holdsRegisters_update ..
  · obtain ⟨_, _, _, _, _, _, he⟩ := complete_frame i (resultSample i s) s
    rw [he]
    exact holdsRegisters_update ..

theorem scanMove_holdsRegisters (s : State) : HoldsRegisters s (scanMove s) := by
  rcases scanMove_cases s with he | ⟨-, e, -, -, he⟩
  · rw [he]; exact holdsRegisters_update ..
  · rw [he]; exact holdsRegisters_update ..

theorem takeTurn_holdsRegisters {turn : Turn} {s t : State} (hp : s.phase = .running) (hturn : turn ≠ .reset)
    (h : takeTurn turn s = .next t) : HoldsRegisters s t := by
  cases turn with
  | host => exact hostMove_holdsRegisters hp h
  | engine => exact engineMove_holdsRegisters h
  | scan => cases h; exact scanMove_holdsRegisters s
  | reset => exact absurd rfl hturn

theorem defaultTurn_ne_reset (s : State) : defaultTurn s ≠ .reset := by
  unfold defaultTurn
  cases engineReady s <;> decide

theorem step_holdsRegisters {s t : State} (hp : s.phase = .running) (h : step s = .next t)
    (hreset : s.agenda.head? ≠ some .reset) : HoldsRegisters s t := by
  obtain ⟨turn, rest, hstep, hwho⟩ := step_takes_turn s
  have hturn : turn ≠ .reset := by
    rintro rfl
    rcases hwho with hag | ⟨-, -, hdef⟩
    · exact hreset (by rw [hag]; rfl)
    · exact defaultTurn_ne_reset s hdef.symm
  obtain ⟨⟨hcfg, hw, hh, hc, hlc, hl⟩, hcmd, hsrc, hdst⟩ :=
    takeTurn_holdsRegisters (s := { s with agenda := rest }) hp hturn (hstep.symm.trans h)
  exact ⟨⟨hcfg, hw, hh, hc, hlc, hl⟩, hcmd, hsrc, hdst⟩

/-- Settles O11: the window ignores writes while RUNNING, and no agent's move but a reset changes a register. -/
theorem registersHoldWhileRunning : Obligations.RegistersHoldWhileRunning := by
  intro s hp
  refine ⟨fun off v hlt halign => ?_, busRead_reg s, fun t h hreset => ?_⟩
  · rw [busWrite_eq s v hlt halign, writeSlot_running off v hp]
  · have hold := step_holdsRegisters hp h hreset
    exact ⟨hold.cmd, hold.width, hold.height, hold.channels, hold.srcBase, hold.dstBase, hold.levelCount, hold.level⟩

end Sys2Proof.Machine
end

section
/-!
PROOFS. A result depends on the registers and the source bytes alone (10_state.md R21): each sample rule reads the
source at samples of the raster, and the scan of `EDDITHER` starts from a load of the same bytes.
-/

namespace Sys2Proof.Machine

/-- In `u` the registers that a sample rule reads and the bytes of the source are those of `s`. -/
structure SameSource (s u : State) : Prop extends SameScanInputs s u where
  srcBase : u.srcBase = s.srcBase
  bytes   : ∀ a, (srcRegion s).has a = true → u.mem.read a = s.mem.read a

section SameSource

variable {s u : State} (h : SameSource s u)
include h

theorem SameSource.src {y x c : Nat} (hy : y < s.H) (hx : x < s.W) (hc : c < s.C) : u.src y x c = s.src y x c := by
  unfold State.src
  rw [h.W, h.C, h.srcBase, h.bytes _ (srcAddr_has hy hx hc)]

/-- A border-extended sample lies in the raster (41_blur.md R53). -/
theorem SameSource.src_border (mode : Config.Border) (y x : Int) {c : Nat} (hH : 0 < s.H) (hW : 0 < s.W) (hc : c < s.C) :
    u.src (border mode y u.H) (border mode x u.W) c = s.src (border mode y s.H) (border mode x s.W) c := by
  rw [h.H, h.W]
  exact h.src (border_lt mode y hH) (border_lt mode x hW) hc

theorem SameSource.destChannels (i : Instr) : destChannels i u = destChannels i s := by
  cases i <;> simp only [Machine.destChannels, h.C]

theorem SameSource.blurSum (k y x : Nat) {c : Nat} (hH : 0 < s.H) (hW : 0 < s.W) (hc : c < s.C) :
    blurSum u k y x c = blurSum s k y x c := by
  simp only [Machine.blurSum, h.cfg, h.src_border _ _ _ hH hW hc]

theorem SameSource.quadrantSamples (k y x : Nat) (r : Quadrant) {c : Nat} (hH : 0 < s.H) (hW : 0 < s.W) (hc : c < s.C) :
    quadrantSamples u k y x r c = quadrantSamples s k y x r c := by
  simp only [Machine.quadrantSamples, h.src_border _ _ _ hH hW hc]

theorem SameSource.varianceKey (k y x : Nat) (hH : 0 < s.H) (hW : 0 < s.W) : varianceKey u k y x = varianceKey s k y x := by
  funext r
  unfold Machine.varianceKey
  rw [h.C]
  refine congrArg List.sum (List.map_congr_left fun c hc => ?_)
  simp only [sum1, sum2, h.quadrantSamples k y x r hH hW (List.mem_range.1 hc)]

/-- Both runs of an `EDDITHER` at their start write the levels of the same scan. -/
theorem SameSource.edSample_start (ha : (srcRegion s).admitted s.cfg = true) (y x c : Nat) :
    edSample u (loadScan u) y x c = edSample s (loadScan s) y x c := by
  have hload : loadScan u = loadScan s := loadScan_congr h.toSameScanInputs h.srcBase ha h.bytes
  have hstart : ∀ v : State, visited v (loadScan s) = 0 := fun v => by simp [visited, loadScan]
  simp only [edSample, hload, hstart, Nat.not_lt_zero, if_false, h.W, h.H, h.toSameScanInputs.scanLevels]

/-- The sample rule of a validated command on backed bytes reads nothing else. -/
theorem SameSource.resultSample {i : Instr} (hv : Validated i s) (ha : regionsAdmitted i s = true)
    (hs : i = .eddither → s.scan = some (loadScan s) ∧ u.scan = some (loadScan u)) {y x c : Nat}
    (hin : inDest i s y x c) : resultSample i u y x c = resultSample i s y x c := by
  obtain ⟨hy, hx, hc⟩ := hin
  have hH := hv.height
  have hW := hv.width
  cases i with
  | quant => simp only [Machine.resultSample, quantSample, h.src hy hx hc, h.toSameScanInputs.levelSeq]
  | blur k => simp only [Machine.resultSample, blurSample, h.blurSum k y x hH hW hc, h.cfg]
  | odither2x2 => simp only [Machine.resultSample, ditherSample, h.src hy hx hc, h.cfg]
  | odither4x4 => simp only [Machine.resultSample, ditherSample, h.src hy hx hc, h.cfg]
  | eddither =>
    obtain ⟨hscan, hscan'⟩ := hs rfl
    simp only [Machine.resultSample, hscan, hscan', Option.getD_some]
    exact h.edSample_start (Bool.and_eq_true_iff.1 ha).1 y x c
  | kuwahara k =>
    have hbest : bestQuadrant u k y x = bestQuadrant s k y x := by
      unfold bestQuadrant
      rw [h.varianceKey k y x hH hW]
    simp only [Machine.resultSample, kuwaharaSample, sum1, hbest, h.quadrantSamples k y x _ hH hW hc, h.cfg]

theorem SameSource.inDest_iff (i : Instr) (y x c : Nat) : inDest i u y x c ↔ inDest i s y x c := by
  simp only [inDest, h.H, h.W, h.destChannels]

end SameSource

/-- A command that runs alone writes its sample rule's values. -/
theorem destSample_of_exec {i : Instr} {s t : State} (hm : Memory.wf s.mem = true) (h : s.runsAlone i)
    (ht : exec i s = .next t) {y x c : Nat} (hin : inDest i s y x c) :
    destSample i s t y x c = resultSample i s y x c := by
  obtain ⟨t', ht', -, hvalue⟩ := exec_completedWith hm h
  obtain rfl : t' = t := Host.Outcome.next.inj (ht'.symm.trans ht)
  exact hvalue y x c hin

/-- Settles O54: both destinations hold the sample rule's values, and the rule reads the source alone. -/
theorem resultDependsOnlyOnRegistersAndSource : Obligations.ResultDependsOnlyOnRegistersAndSource := by
  intro s u t w i hms hmu hs hu hcfg hwidth hheight hch hsrc _ hlc hlevel hbytes hscan ht hw y x c hin
  have h : SameSource s u := ⟨⟨hcfg, hwidth, hheight, hch, hlc, hlevel⟩, hsrc, hbytes⟩
  have hv := validate_eq_zero_iff.1 hs.1.2.1
  calc destSample i u w y x c = resultSample i u y x c := destSample_of_exec hmu hu hw ((h.inDest_iff i y x c).2 hin)
    _ = resultSample i s y x c := h.resultSample hv hs.1.2.2 hscan hin
    _ = destSample i s t y x c := (destSample_of_exec hms hs ht hin).symm

end Sys2Proof.Machine
end

section
/-!
PROOFS. A command's word decodes to it (30_encoding.md R38 to R45), and from an IDLE block its START and the engine's
move run it to DONE (60_exceptions.md R79, R86).
-/

namespace Sys2Proof

/-! ## Decoding a command's word -/

section CommandWord

variable (op : BitVec 4) (var : BitVec 2) (k : BitVec 8)

@[simp] theorem opField_commandWord : opField (commandWord op var k) = op.toNat := by
  rw [opField_eq, commandWord_toNat]
  have := op.isLt
  omega

@[simp] theorem varField_commandWord : varField (commandWord op var k) = var.toNat := by
  rw [varField_eq, commandWord_toNat]
  have := op.isLt
  have := var.isLt
  omega

@[simp] theorem kField_commandWord : kField (commandWord op var k) = k.toNat := by
  rw [kField_eq, commandWord_toNat]
  have := op.isLt
  have := var.isLt
  have := k.isLt
  omega

@[simp] theorem reservedZero_commandWord : reservedZero (commandWord op var k) = true := by
  rw [reservedZero_iff, commandWord_toNat]
  have := op.isLt
  have := var.isLt
  have := k.isLt
  omega

end CommandWord

/-- Every command the format can hold decodes from its word (30_encoding.md R45). -/
theorem decode?_encode {i : Instr} (h : i.wf = true) : decode? (encode i) = some i := by
  rw [decode?_eq_some]
  cases i with
  | quant | odither2x2 | odither4x4 | eddither => simp [decode, encode]
  | blur k | kuwahara k =>
    have hk : k < 256 := of_decide_eq_true h
    simp [decode, encode, Nat.mod_eq_of_lt hk]

end Sys2Proof

namespace Sys2Proof.Machine

/-! ## START and the engine's move -/

/-- The START write, the position past it: the host's turn starts a valid command (10_state.md R8). -/
theorem runStmt_start {i : Instr} {s : State} (hp : s.phase = .idle) (hd : decode? s.cmd = some i)
    (hv : validate (some i) s = 0) : runStmt (.wr .ctrl 1) s = .next (accept i s) := by
  show busWrite s.cfg.regBase 4 1 s = _
  rw [busWrite_ctrl, writeSlot_ctrl 1 hp, if_pos (by decide), hd, onStart_accept hv]

/-- The engine's turn completes the running command. -/
theorem step_engine {i : Instr} {s : State} {rest : List Turn} (hag : s.agenda = .engine :: rest)
    (hp : s.phase = .running) (hd : decode? s.cmd = some i) :
    step s = exec i { s with agenda := rest } := by
  rw [step_cons hag]
  show engineMove _ = _
  simp only [engineMove, hp, hd]

/-- The block once the host's START was accepted and the engine's turn has come. -/
def startedState (i : Instr) (s : State) (rest : List Turn) : State :=
  { accept i (gotoStmt (s.host.pos + 1) s) with agenda := rest }

theorem startedState_holdsRegisters (i : Instr) (s : State) (rest : List Turn) :
    HoldsRegisters s (startedState i s rest) := ⟨⟨rfl, rfl, rfl, rfl, rfl, rfl⟩, rfl, rfl, rfl⟩

theorem startedState_runsAlone {i : Instr} {s : State} (rest : List Turn) (hv : validate (some i) s = 0)
    (ha : regionsAdmitted i s = true) : (startedState i s rest).runsAlone i := by
  have hold := startedState_holdsRegisters i s rest
  exact ⟨⟨rfl, (hold.validate i).trans hv, (hold.regionsAdmitted i).trans ha⟩, rfl⟩

/-- On a START write and an engine turn, two steps are the started command's completion. -/
theorem run_two_of_start {i : Instr} {s t : State} {rest : List Turn} (hp : s.phase = .idle)
    (hd : decode? s.cmd = some i) (hv : validate (some i) s = 0) (hag : s.agenda = .host :: .engine :: rest)
    (hst : s.host.prog[s.host.pos]? = some (.wr .ctrl 1)) (ht : exec i (startedState i s rest) = .next t) :
    Sys2Proof.core.run 2 s = .next t := by
  have hstart : step s = .next (startedState i s (.engine :: rest)) :=
    (step_host hag hst).trans (runStmt_start hp hd hv)
  have hrun : step (startedState i s (.engine :: rest)) = .next t :=
    (step_engine (s := startedState i s (.engine :: rest)) rfl rfl hd).trans ht
  rw [core_run_of_step 1 hstart, core_run_of_step 0 hrun]
  rfl

/-- The completed command's block, told from the IDLE block it was started in. -/
theorem completedFrame_startedState {i : Instr} {s t : State} {rest : List Turn} (hinv : s.Inv) (hp : s.phase = .idle)
    (ha : regionsAdmitted i s = true) (h : completedFrame i (startedState i s rest) t) :
    t = { s with mem := t.mem, done := true, err := false, errcode := 0, agenda := rest, scan := none
                 host := { s.host with pos := s.host.pos + 1 } } := by
  obtain ⟨-, -, hraced, -⟩ := (State.inv_iff_of_idle hp).1 hinv
  have hdraws : startDraws i (gotoStmt (s.host.pos + 1) s) = 0 :=
    startDraws_admitted i (s := gotoStmt _ s) (Bool.and_eq_true_iff.1 ha).1
  refine h.1.trans ?_
  simp [startedState, hdraws, hraced, hp]

/-- Settles O55: the START write accepts the command, and the engine's move completes it alone. -/
theorem startThenEngineRunsTheCommand : Obligations.StartThenEngineRunsTheCommand := by
  intro s i rest hinv hp hwf hcmd hv ha hag hst
  have hd : decode? s.cmd = some i := hcmd ▸ decode?_encode hwf
  obtain ⟨t, ht, hframe, -⟩ := exec_completedWith (s := startedState i s rest) hinv.mem.1
    (startedState_runsAlone rest hv ha)
  have hout : ∀ a, (dstRegion i s).has a = false → t.mem.read a = s.mem.read a := hframe.2
  exact ⟨t, run_two_of_start hp hd hv hag hst ht, completedFrame_startedState hinv hp ha hframe, hout,
    fun a hsrc => hout a ((validate_eq_zero_iff.1 hv).apart a hsrc)⟩

end Sys2Proof.Machine
end

section
/-!
PROOFS. Host accesses: which bus accesses of the window have a step (20_memory.md R27), and what a host byte access does
to raster memory and to `t` (R22, R29, R34, R35).
-/

namespace Sys2Proof.Machine

/-! ## Bus accesses of the window -/

/-- A narrow or misaligned access of the window is refused by name. -/
theorem windowOffset_not_admitted {s : State} {addr width : Nat} (hlo : s.cfg.regBase ≤ addr)
    (hhi : addr < s.cfg.regBase + 256) (h : width ≠ 4 ∨ (addr - s.cfg.regBase) % 4 ≠ 0) :
    windowOffset s addr width = .error (.accessNotAdmitted addr width) := by
  rw [windowOffset, if_neg (by omega), if_pos h]

/-- Every write of a word slot has a step. -/
theorem writeSlot_next (off : Nat) (v : Word) (s : State) : ∃ t, writeSlot off v s = .next t := by
  cases hp : s.phase with
  | running => exact ⟨s, writeSlot_running off v hp⟩
  | idle =>
    unfold writeSlot
    rw [hp]
    dsimp only
    split
    · split
      · exact ⟨_, startCommand_idle hp⟩
      · exact ⟨s, rfl⟩
    · exact ⟨_, rfl⟩
    · exact ⟨s, rfl⟩

/-- Settles O12: the window's offset decides, and a slot always answers. -/
theorem onlyAlignedWordAccessesHaveAStep : Obligations.OnlyAlignedWordAccessesHaveAStep := by
  intro s addr width v hlo hhi
  refine ⟨fun h => ?_, fun hwidth halign => ?_⟩
  · have hoff := windowOffset_not_admitted hlo hhi h
    rw [busWrite, busRead, hoff]
    exact ⟨rfl, rfl⟩
  · obtain ⟨off, rfl⟩ := Nat.exists_eq_add_of_le hlo
    rw [Nat.add_sub_cancel_left] at halign
    have hlt : off < 256 := by omega
    rw [hwidth, busWrite_eq s v hlt halign, busRead_eq s hlt halign]
    exact ⟨writeSlot_next off v s, _, rfl⟩

/-! ## Byte accesses -/

/-- A host byte write at a backed address. -/
theorem hostStore_admitted {s : State} {a : BitVec 32} (v : Byte) (ha : admits s.cfg a.toNat = true) :
    hostStore a v s = .next { s with mem := s.mem.write a.toNat v, raced := s.raced || inRunningRegions s a.toNat } := by
  simp [hostStore, ha]

/-- A host byte read at a backed address: the byte, or a draw for a destination byte of a running command. -/
theorem hostLoad_admitted {s : State} {a : BitVec 32} (ha : admits s.cfg a.toNat = true) :
    hostLoad a s =
      if inRunningDst s a.toNat then .next { setT ((Config.freeByte s.draws).setWidth 32) s with draws := s.draws + 1 }
      else .next (setT ((s.mem.read a.toNat).setWidth 32) s) := by
  simp [hostLoad, ha]

/-- Settles O51: a canonical memory reads back the byte written and every other as before. -/
theorem hostByteAccesses : Obligations.HostByteAccesses := by
  intro s a v ha hm
  refine ⟨⟨_, hostStore_admitted v ha, rfl, ?_, fun b hb => ?_⟩, fun hd => ?_, fun hd => ?_⟩
  · exact (Memory.read_write hm _ v _).trans (if_pos rfl)
  · exact (Memory.read_write hm _ v _).trans (if_neg hb)
  · rw [hostLoad_admitted ha, hd, if_neg Bool.false_ne_true]
  · rw [hostLoad_admitted ha, if_pos hd]

end Sys2Proof.Machine
end

section
/-!
PROOFS. The region rules of START (20_memory.md R25, 60_exceptions.md R80 to R82): what `Validate` answers where some
InvalidInput condition holds, and that an accepted command's regions are inside the address space and apart.
-/

namespace Sys2Proof.Machine

/-- `Validate` answers InvalidInput exactly on an InvalidInput condition, whatever the operation. -/
theorem validate_eq_invalidInput_iff (op : Option Instr) (s : State) : validate op s = invalidInput ↔ badInput s := by
  have hC : ¬ s.C ∈ Config.legalChannels ↔ s.C ≠ 1 ∧ s.C ≠ 3 := by simp [Config.legalChannels]
  have hend : (srcRegion s).pastEnd = true ↔ 2 ^ 32 < s.srcBase.toNat + s.W * s.H * s.C := Region.pastEnd_iff
  have hcodes : invalidConfiguration ≠ invalidInput ∧ (0 : BitVec 4) ≠ invalidInput := by decide
  unfold validate badInput
  rw [← hC, ← hend]
  split_ifs with hsize hch hsrc
  · exact iff_of_true rfl (by tauto)
  · exact iff_of_true rfl (by tauto)
  · refine iff_of_false ?_ (by tauto)
    cases op with
    | none => exact hcodes.1
    | some i => dsimp only; split_ifs <;> simp only [hcodes, not_false_eq_true]
  · exact iff_of_true rfl (by tauto)

/-- With no InvalidInput condition, a command that is not `Validated` is an InvalidConfiguration. -/
theorem validate_eq_invalidConfiguration {i : Instr} {s : State} (hin : ¬ badInput s) (h : ¬ Validated i s) :
    validate (some i) s = invalidConfiguration := by
  rcases validate_range (some i) s with h₀ | h₁ | h₂
  · exact absurd (validate_eq_zero_iff.1 h₀) h
  · exact absurd ((validate_eq_invalidInput_iff _ s).1 h₁) hin
  · exact h₂

/-- Settles O20: an accepted command is `Validated`, and a broken region rule contradicts that. -/
theorem acceptedRegionsAreInsideAndApart : Obligations.AcceptedRegionsAreInsideAndApart := by
  intro s i
  refine ⟨fun h => ?_, fun h => ?_, fun hin hend => ?_, fun hin ⟨a, hsrc, hdst⟩ => ?_⟩
  · have hv := validate_eq_zero_iff.1 h
    refine ⟨fun y x c hy hx hc => ?_, fun y x c hd => ?_, fun y x c y' x' c' hy hx hc hd he => ?_⟩
    · exact (rasterAddr_bounds hy hx hc).2.trans_le hv.srcEnd
    · exact (Region.has_iff.1 (dstAddr_has hd)).2.trans_le hv.dstEnd
    · have hout := hv.apart _ (srcAddr_has hy hx hc)
      rw [he, dstAddr_has hd] at hout
      exact absurd hout (by decide)
  · exact (validate_eq_invalidInput_iff _ s).2 (.inr (.inr (.inr h)))
  · exact validate_eq_invalidConfiguration hin fun hv => hend.not_ge hv.dstEnd
  · exact validate_eq_invalidConfiguration hin fun hv => absurd (hdst.symm.trans (hv.apart a hsrc)) (by decide)

end Sys2Proof.Machine
end

section
/-!
PROOFS. A RUNNING command and raster memory (20_memory.md R29, R31, R34, R35): a run goes on with its race mark until
the engine completes it on backed bytes or a reset comes, and it writes its destination region alone.
-/

namespace Sys2Proof.Machine

/-! ## What ends a run -/

theorem hostMove_keeps_run {s t : State} (hp : s.phase = .running) (h : hostMove s = .next t) :
    t.phase = .running ∧ (s.raced = true → t.raced = true) := by
  have hbusy : s.phase ≠ .idle := by rw [hp]; decide
  rcases hostMove_cases h with rfl | ⟨st, -, hst⟩
  · exact ⟨hp, id⟩
  · rcases runStmt_cases hst with ⟨_, rfl⟩ | ⟨_, rfl⟩ | ⟨hidle, -⟩ | ⟨hidle, -⟩ | ⟨_, _, -, -, rfl⟩
    · exact ⟨hp, id⟩
    · exact ⟨hp, id⟩
    · exact absurd hidle hbusy
    · exact absurd hidle hbusy
    · exact ⟨hp, fun hr : s.raced = true => by simp [hr]⟩

/-- The engine ends a run on backed bytes only, and otherwise leaves it and its race mark as they are. -/
theorem engineMove_keeps_or_ends_run {s t : State} (hp : s.phase = .running) (h : engineMove s = .next t) :
    (t.phase = .running ∧ (s.raced = true → t.raced = true)) ∨
    (t.phase = .idle ∧ ∃ i, decode? s.cmd = some i ∧ regionsAdmitted i s = true) := by
  rcases engineMove_cases h with rfl | ⟨-, i, hd, rfl⟩
  · exact .inl ⟨hp, id⟩
  · rcases complete_cases i (resultSample i s) s with ⟨-, he⟩ | ⟨ha, -, he⟩ | ⟨ha, -, he⟩
    · rw [he]; exact .inl ⟨hp, id⟩
    · rw [he]; exact .inr ⟨rfl, i, hd, ha⟩
    · rw [he]; exact .inr ⟨rfl, i, hd, ha⟩

/-- A move leaves a run going, its race mark kept, or ends it: a reset, or the engine's completion on backed bytes. -/
theorem takeTurn_keeps_or_ends_run {turn : Turn} {s t : State} (hp : s.phase = .running)
    (h : takeTurn turn s = .next t) :
    (t.phase = .running ∧ (s.raced = true → t.raced = true)) ∨
    (t.phase = .idle ∧ (turn = .reset ∨ ∃ i, decode? s.cmd = some i ∧ regionsAdmitted i s = true)) := by
  cases turn with
  | host => exact .inl (hostMove_keeps_run hp h)
  | engine => exact (engineMove_keeps_or_ends_run hp h).imp_right fun ⟨hidle, hrun⟩ => ⟨hidle, .inr hrun⟩
  | scan =>
    cases h
    rcases scanMove_cases s with he | ⟨-, e, -, -, he⟩
    · rw [he]; exact .inl ⟨hp, id⟩
    · rw [he]; exact .inl ⟨hp, id⟩
  | reset => cases h; exact .inr ⟨rfl, .inl rfl⟩

/-- The same of a step, where a reset can only be the agenda's. -/
theorem step_keeps_or_ends_run {s t : State} (hp : s.phase = .running) (h : step s = .next t) :
    (t.phase = .running ∧ (s.raced = true → t.raced = true)) ∨
    (t.phase = .idle ∧
      (s.agenda.head? = some .reset ∨ ∃ i, decode? s.cmd = some i ∧ regionsAdmitted i s = true)) := by
  obtain ⟨turn, rest, hstep, hwho⟩ := step_takes_turn s
  rcases takeTurn_keeps_or_ends_run (s := { s with agenda := rest }) hp (hstep.symm.trans h) with
    hgo | ⟨hidle, rfl | hrun⟩
  · exact .inl hgo
  · rcases hwho with hag | ⟨-, -, hdef⟩
    · exact .inr ⟨hidle, .inl (by rw [hag]; rfl)⟩
    · exact absurd hdef.symm (defaultTurn_ne_reset s)
  · exact .inr ⟨hidle, .inr hrun⟩

/-- Settles O29: on unbacked bytes no completion ends the run, and the regions hold their registers. -/
theorem unbackedRunsStayBusyUntilReset : Obligations.UnbackedRunsStayBusyUntilReset := by
  intro s i hp hd ha
  have hbusy : s.busy = true := by rw [State.busy, hp]; rfl
  refine ⟨exec_unbacked hp ha, ?_, fun t h hreset => ?_⟩
  · rw [← hbusy]
    exact (statusWordHasItsFields s).1
  · have hold := step_holdsRegisters hp h hreset
    refine ⟨?_, hold.cmd ▸ hd, (hold.regionsAdmitted i).trans ha⟩
    rcases step_keeps_or_ends_run hp h with ⟨hrun, -⟩ | ⟨-, hr | ⟨j, hj, hadm⟩⟩
    · exact hrun
    · exact absurd hr hreset
    · obtain rfl : j = i := Option.some.inj (hj.symm.trans hd)
      exact absurd (hadm.symm.trans ha) (by decide)

/-! ## Races -/

theorem inRunningDst_eq {s : State} {i : Instr} (hp : s.phase = .running) (hd : decode? s.cmd = some i) (a : Nat) :
    inRunningDst s a = (dstRegion i s).has a := by
  simp only [inRunningDst, hp, hd]

theorem inRunningRegions_eq {s : State} {i : Instr} (hp : s.phase = .running) (hd : decode? s.cmd = some i) (a : Nat) :
    inRunningRegions s a = ((srcRegion s).has a || (dstRegion i s).has a) := by
  simp [inRunningRegions, inRunningDst_eq hp hd, hp]

/-- A raced completion on backed bytes draws each destination byte (log entry 4). -/
theorem complete_raced {i : Instr} {s : State} (f : Nat → Nat → Nat → Byte) (ha : regionsAdmitted i s = true)
    (hr : s.raced = true) : complete i f s = endRun (freeDest i s) := by
  rw [complete, ha, hr]
  rfl

/-- An undisturbed completion on backed bytes writes its values. -/
theorem complete_not_raced {i : Instr} {s : State} (f : Nat → Nat → Nat → Byte) (ha : regionsAdmitted i s = true)
    (hr : s.raced = false) : complete i f s = endRun (storeDest i f s) := by
  rw [complete, ha, hr]
  rfl

/-- A raced run on backed bytes completes with a draw of its own in each destination byte (log entry 4). -/
theorem exec_raced {i : Instr} {s : State} (h : s.runs i) (hr : s.raced = true) :
    exec i s = .next (endRun (freeDest i s)) := by
  obtain ⟨hp, -, ha⟩ := h
  rw [exec_running i hp, complete_raced _ ha hr]

/-- Settles O28: the store marks, the mark lasts as the run does, and the marked completion draws. -/
theorem racedRunsCompleteWithAnyValue : Obligations.RacedRunsCompleteWithAnyValue := by
  refine ⟨fun s i a v hp hd ha hin => ?_, fun s t hp hr h hrun => ?_, fun s i hm h hr => ?_⟩
  · refine ⟨_, hostStore_admitted v ha, ?_, hp⟩
    show (s.raced || inRunningRegions s a.toNat) = true
    rw [inRunningRegions_eq hp hd, Bool.or_eq_true_iff.2 hin, Bool.or_true]
  · rcases step_keeps_or_ends_run hp h with ⟨-, hkeep⟩ | ⟨hidle, -⟩
    · exact hkeep hr
    · exact absurd (hrun.symm.trans hidle) (by decide)
  · exact ⟨_, exec_raced h hr, rfl, rfl, rfl, rfl, fun y x c hin => storeDest_read (freeSample s _) hm h.2.2 hin⟩

/-! ## Who writes raster memory -/

/-- A completion, whatever its case, leaves every byte outside the destination region as it was. -/
theorem complete_read_other {i : Instr} (f : Nat → Nat → Nat → Byte) {s : State} (hm : Memory.wf s.mem = true) {a : Nat}
    (ha : (dstRegion i s).has a = false) : (complete i f s).mem.read a = s.mem.read a := by
  rcases complete_cases i f s with ⟨-, he⟩ | ⟨-, -, he⟩ | ⟨-, -, he⟩
  · rw [he]
  · rw [he]; exact storeDest_read_other (freeSample s (destChannels i s)) hm ha
  · rw [he]; exact storeDest_read_other f hm ha

/-- Settles O27: the frame of a completion, and the source of a validated command is apart from its destination. -/
theorem runningCommandsWriteOnlyTheirDestination : Obligations.RunningCommandsWriteOnlyTheirDestination := by
  intro s i hp hm
  have hout := fun a => complete_read_other (i := i) (resultSample i s) (a := a) hm
  refine ⟨_, exec_running i hp, ?_, hout, fun hv a hsrc => hout a ((validate_eq_zero_iff.1 hv).apart a hsrc)⟩
  obtain ⟨_, _, _, _, _, _, he⟩ := complete_frame i (resultSample i s) s
  rw [he]

@[simp] theorem writeReg_mem (r : Reg) (v : Word) (s : State) : (writeReg r v s).mem = s.mem := by
  cases r <;> rfl

@[simp] theorem onStart_mem (op : Option Instr) (s : State) : (onStart op s).mem = s.mem := by
  rcases onStart_cases op s with ⟨-, he⟩ | ⟨i, -, -, he⟩
  · rw [he, reject_mem]
  · rw [he, accept_mem]

/-- A host move changes no byte but the one its `sb` names. -/
theorem hostMove_changes {s t : State} (hm : Memory.wf s.mem = true) (h : hostMove s = .next t) {a : Nat}
    (hne : t.mem.read a ≠ s.mem.read a) : ∃ b v, s.host.prog[s.host.pos]? = some (.sb b v) ∧ b.toNat = a := by
  rcases hostMove_cases h with rfl | ⟨st, hst, hrun⟩
  · exact absurd rfl hne
  · rcases runStmt_cases hrun with ⟨_, rfl⟩ | ⟨_, rfl⟩ | ⟨-, r, v, rfl⟩ | ⟨-, rfl⟩ | ⟨b, v, rfl, -, rfl⟩
    · exact absurd rfl hne
    · exact absurd rfl hne
    · exact absurd (by rw [writeReg_mem, gotoStmt_mem]) hne
    · exact absurd (by rw [onStart_mem, gotoStmt_mem]) hne
    · refine ⟨b, v, hst, ?_⟩
      by_contra hb
      exact hne ((Memory.read_write hm _ v _).trans (if_neg fun h => hb h.symm))

/-- A byte that changed under a frame of the running command's destination is one of its bytes. -/
theorem inRunningDst_of_changed {s t : State} {i : Instr} (hp : s.phase = .running) (hd : decode? s.cmd = some i) {a : Nat}
    (hout : (dstRegion i s).has a = false → t.mem.read a = s.mem.read a) (hne : t.mem.read a ≠ s.mem.read a) :
    inRunningDst s a = true := by
  rw [inRunningDst_eq hp hd]
  exact Bool.of_not_eq_false fun h => hne (hout h)

theorem engineMove_changes {s t : State} (hm : Memory.wf s.mem = true) (h : engineMove s = .next t) {a : Nat}
    (hne : t.mem.read a ≠ s.mem.read a) : inRunningDst s a = true := by
  rcases engineMove_cases h with rfl | ⟨hp, i, hd, rfl⟩
  · exact absurd rfl hne
  · exact inRunningDst_of_changed hp hd (complete_read_other _ hm) hne

/-- The next pixel of a scan is a sample of the destination. -/
theorem State.Inv.scan_inDest {s : State} {e : Scan} (h : s.Inv) (he : s.scan = some e) (hy : e.y < s.H) :
    inDest .eddither s e.y e.x 0 := by
  obtain ⟨-, -, hrange⟩ := h.scan.1 e he
  exact ⟨hy, hrange.x_lt hy, Nat.zero_lt_one⟩

theorem visitPixel_read_other {s : State} {e : Scan} (hm : Memory.wf s.mem = true) {a : Nat}
    (ha : a ≠ dstAddr .eddither s e.y e.x 0) : (visitPixel e s).mem.read a = s.mem.read a :=
  storeByte_read_other s.cfg hm _ ha

theorem visitPixel_read_same {s : State} {e : Scan} (hm : Memory.wf s.mem = true)
    (ha : admits s.cfg (dstAddr .eddither s e.y e.x 0) = true) :
    (visitPixel e s).mem.read (dstAddr .eddither s e.y e.x 0) = BitVec.ofNat 8 (pixelLevel s e) := by
  rw [visitPixel_mem, storeByte_of_admits ha, Memory.read_write hm, if_pos rfl]

theorem scanMove_changes {s : State} (h : s.Inv) {a : Nat} (hne : (scanMove s).mem.read a ≠ s.mem.read a) :
    inRunningDst s a = true := by
  rcases scanMove_cases s with he | ⟨hp, e, hscan, hy, he⟩
  · exact absurd (by rw [he]) hne
  · obtain ⟨-, hd, -⟩ := h.scan.1 e hscan
    rw [he] at hne
    refine inRunningDst_of_changed hp hd (fun hout => visitPixel_read_other h.mem.1 ?_) hne
    rintro rfl
    exact absurd (hout.symm.trans (dstAddr_has (h.scan_inDest hscan hy))) (by decide)

theorem resetBlock_changes {s : State} (hm : Memory.wf s.mem = true) {a : Nat}
    (hne : (resetBlock s).mem.read a ≠ s.mem.read a) : inRunningDst s a = true := by
  have hmem : (resetBlock s).mem = (abandonRun s).mem := rfl
  rw [hmem] at hne
  rcases abandonRun_cases s with he | ⟨hp, i, hd, he⟩
  · exact absurd (by rw [he]) hne
  · rw [he] at hne
    exact inRunningDst_of_changed hp hd (storeDest_read_other (freeSample s (destChannels i s)) hm) hne

/-- A byte that a move changes: the host's is the one its `sb` names, any other's is a running destination's. -/
theorem takeTurn_changes {turn : Turn} {s t : State} (hinv : s.Inv) (h : takeTurn turn s = .next t) {a : Nat}
    (hne : t.mem.read a ≠ s.mem.read a) :
    (turn ≠ .host ∧ inRunningDst s a = true) ∨
    (turn = .host ∧ ∃ b v, s.host.prog[s.host.pos]? = some (.sb b v) ∧ b.toNat = a) := by
  have hm := hinv.mem.1
  cases turn with
  | host => exact .inr ⟨rfl, hostMove_changes hm h hne⟩
  | engine => exact .inl ⟨by decide, engineMove_changes hm h hne⟩
  | scan => cases h; exact .inl ⟨by decide, scanMove_changes hinv hne⟩
  | reset => cases h; exact .inl ⟨by decide, resetBlock_changes hm hne⟩

/-- Settles O50: a step is one agent's move, the agenda's first or the default one. -/
theorem memoryChangesOnlyByItsWriters : Obligations.MemoryChangesOnlyByItsWriters := by
  intro s t hinv h a hne
  obtain ⟨turn, rest, hstep, hwho⟩ := step_takes_turn s
  have hpop : { s with agenda := rest }.Inv := ⟨hinv.status, hinv.mem, hinv.run, hinv.scan⟩
  rcases takeTurn_changes hpop (hstep.symm.trans h) hne with ⟨hturn, hdst⟩ | ⟨rfl, hsb⟩
  · refine .inl ⟨hdst, ?_⟩
    rcases hwho with hag | ⟨hag, -⟩
    · simpa [hag] using hturn
    · simp [hag]
  · refine .inr ⟨?_, hsb⟩
    rcases hwho with hag | ⟨hag, -⟩
    · exact .inl (by rw [hag]; rfl)
    · exact .inr hag

end Sys2Proof.Machine
end

section
/-!
PROOFS. How far an `EDDITHER` has scanned does not show in its result (20_memory.md R29, 43_error_diffusion.md R70): the
destination is written whole at completion, and the sample rule after one more pixel is the sample rule before it.
-/

namespace Sys2Proof.Machine

/-! ## Writing a destination whole -/

/-- Two canonical memories alike outside a backed raster are one memory once the raster is written with the same values. -/
theorem storeRaster_eq_of_outside (p : Config.Params) {W H base Cn : Nat} {f g : Nat → Nat → Nat → Byte} {m n : Memory}
    (hm : m.wf = true) (hn : n.wf = true) (ha : ∀ a, base ≤ a ∧ a < base + W * H * Cn → admits p a = true)
    (hout : ∀ a, ¬ (base ≤ a ∧ a < base + W * H * Cn) → n.read a = m.read a)
    (hval : ∀ y x c, y < H → x < W → c < Cn → g y x c = f y x c) :
    storeRaster p W H base Cn g n = storeRaster p W H base Cn f m := by
  refine Memory.ext_read (storeRaster_wf _ _ _ _ _ _ hn) (storeRaster_wf _ _ _ _ _ _ hm) fun a => ?_
  by_cases hin : base ≤ a ∧ a < base + W * H * Cn
  · have hadm := ha a hin
    obtain ⟨y, x, c, hy, hx, hc, rfl⟩ := rasterAddr_surj hin.1 hin.2
    rw [storeRaster_read p g hn hy hx hc hadm, storeRaster_read p f hm hy hx hc hadm, hval y x c hy hx hc]
  · rw [storeRaster_read_other p g hn hin, storeRaster_read_other p f hm hin, hout a hin]

/-- The end of a run discards the scan. -/
theorem endRun_eq_of_mem {s t : State} (h : t = { s with mem := t.mem, scan := t.scan }) (hm : t.mem = s.mem) :
    endRun t = endRun s :=
  calc endRun t = endRun { s with mem := t.mem, scan := t.scan } := congrArg endRun h
    _ = endRun s := by rw [hm]; rfl

/-! ## One more pixel -/

/-- The sample of a visited pixel is the byte already written (43_error_diffusion.md R65). -/
theorem edSample_of_visited {s : State} {e : Scan} {y x : Nat} (c : Nat) (h : y * s.W + x < visited s e) :
    edSample s e y x c = s.mem.read (dstAddr .eddither s y x c) := if_pos h

/-- The sample of any other pixel is the level the rest of the scan chooses there (43_error_diffusion.md R69). -/
theorem edSample_of_unvisited {s : State} {e : Scan} {y x : Nat} (c : Nat) (hy : y < s.H) (hx : x < s.W)
    (h : visited s e ≤ y * s.W + x) :
    edSample s e y x c = BitVec.ofNat 8 (pixelLevel s (scanAfter s (y * s.W + x - visited s e) e)) := by
  have hn := pixelIndex_lt hy hx
  rw [edSample, if_neg (Nat.not_lt.2 h), scanLevels_getD (by omega)]

section OnePixel

variable {s : State} {e : Scan} (hinv : s.Inv) (he : s.scan = some e) (hy : e.y < s.H)
include hinv he hy

/-- The sample rule after one more pixel is the sample rule before it. -/
theorem edSample_visitPixel (ha : regionsAdmitted .eddither s = true) {y x c : Nat} (hin : inDest .eddither s y x c) :
    edSample (visitPixel e s) (nextScan s e) y x c = edSample s e y x c := by
  have hsame : SameScanInputs s (visitPixel e s) := ⟨rfl, rfl, rfl, rfl, rfl, rfl⟩
  have hpix := hinv.scan_inDest he hy
  have hadm := regionsAdmitted_dst ha (dstAddr_has hpix)
  have hvis : visited (visitPixel e s) (nextScan s e) = visited s e + 1 := visited_nextScan hpix.2.1
  obtain ⟨hyH, hxW, hc⟩ := hin
  obtain rfl : c = 0 := Nat.lt_one_iff.1 hc
  rcases Nat.lt_trichotomy (y * s.W + x) (visited s e) with hlt | heq | hgt
  · have hlt' : y * s.W + x < visited (visitPixel e s) (nextScan s e) := by omega
    have hne : dstAddr .eddither s y x 0 ≠ dstAddr .eddither s e.y e.x 0 := fun h => by
      obtain ⟨rfl, rfl, -⟩ := rasterAddr_inj hxW hc hpix.2.1 hc h
      exact absurd hlt (lt_irrefl _)
    rw [edSample_of_visited 0 hlt]
    exact (edSample_of_visited (s := visitPixel e s) 0 hlt').trans (visitPixel_read_other hinv.mem.1 hne)
  · have hlt' : y * s.W + x < visited (visitPixel e s) (nextScan s e) := by omega
    obtain ⟨rfl, rfl⟩ := digits_eq hxW hpix.2.1 heq
    rw [edSample_of_unvisited 0 hyH hxW heq.ge, heq, Nat.sub_self, scanAfter_zero]
    exact (edSample_of_visited (s := visitPixel e s) 0 hlt').trans (visitPixel_read_same hinv.mem.1 hadm)
  · obtain ⟨j, hj⟩ := Nat.exists_eq_add_of_lt hgt
    have hj₀ : y * s.W + x - visited s e = j + 1 := by omega
    have hj₁ : y * s.W + x - visited (visitPixel e s) (nextScan s e) = j := by omega
    rw [edSample_of_unvisited (s := visitPixel e s) 0 hyH hxW (by rw [hvis]; exact hgt),
      edSample_of_unvisited 0 hyH hxW hgt.le, hsame.pixelLevel, hsame.scanAfter, visitPixel_W, hj₀, hj₁]
    rfl

/-- A destination written whole after one more pixel is the one written before it, the scan discarded. -/
theorem endRun_storeDest_visitPixel (ha : regionsAdmitted .eddither s = true) {f g : Nat → Nat → Nat → Byte}
    (hval : ∀ y x c, inDest .eddither s y x c → g y x c = f y x c) :
    endRun (storeDest .eddither g (visitPixel e s)) = endRun (storeDest .eddither f s) := by
  have hpix := dstAddr_has (hinv.scan_inDest he hy)
  refine endRun_eq_of_mem rfl ?_
  refine storeRaster_eq_of_outside s.cfg hinv.mem.1 (storeByte_wf _ _ _ hinv.mem.1)
    (fun a hin => regionsAdmitted_dst ha (Region.has_iff.2 hin))
    (fun a hout => visitPixel_read_other hinv.mem.1 ?_) fun y x c hyH hxW hc => hval y x c ⟨hyH, hxW, hc⟩
  rintro rfl
  exact hout (Region.has_iff.1 hpix)

/-- A completion after one more pixel is the completion before it, raced or not. -/
theorem complete_visitPixel (ha : regionsAdmitted .eddither s = true) :
    complete .eddither (resultSample .eddither (visitPixel e s)) (visitPixel e s) =
      complete .eddither (resultSample .eddither s) s := by
  have ha' : regionsAdmitted .eddither (visitPixel e s) = true := ha
  cases hr : s.raced with
  | true =>
    rw [complete_raced (s := visitPixel e s) _ ha' hr, complete_raced _ ha hr]
    have hfree := endRun_storeDest_visitPixel hinv he hy ha (f := freeSample s 1)
      (g := freeSample (visitPixel e s) 1) fun _ _ _ _ => rfl
    exact congrArg (fun t : State => { t with draws := s.draws + (dstRegion .eddither s).len }) hfree
  | false =>
    rw [complete_not_raced (s := visitPixel e s) _ ha' hr, complete_not_raced _ ha hr]
    have hrule : resultSample .eddither s = edSample s e := by simp only [resultSample, he, Option.getD_some]
    rw [hrule]
    exact endRun_storeDest_visitPixel hinv he hy ha fun y x c hin => edSample_visitPixel hinv he hy ha hin

end OnePixel

/-- Settles O42: a scan move visits a pixel or does nothing, and holds the registers. -/
theorem scanMovesDoNotChangeTheResult : Obligations.ScanMovesDoNotChangeTheResult := by
  intro s hinv hp _
  have hphase : (scanMove s).phase = .running := by
    rcases scanMove_cases s with he | ⟨-, e, -, -, he⟩
    · rwa [he]
    · rwa [he, visitPixel_phase]
  refine ⟨fun ha => ?_, fun ha => ⟨exec_unbacked hphase ?_, hphase⟩⟩
  · rcases scanMove_cases s with he | ⟨-, e, hscan, hy, he⟩
    · rw [he]
    · rw [exec_running _ hphase, exec_running _ hp, he, complete_visitPixel hinv hscan hy ha]
  · exact ((scanMove_holdsRegisters s).regionsAdmitted _).trans ha

end Sys2Proof.Machine
end

section
/-!
PROOFS. The command format (30_encoding.md R38 to R47): a legal word is the word of one command, so the opcode table,
the assembler and the reserved encodings are each read off `encode`.
-/

namespace Sys2Proof

open Machine

/-! ## A legal word is the word of its command -/

/-- Settles O1: `decode?` finds the command, and so `decode` does. -/
theorem decodeOfEncodeIsTheCommand : Obligations.DecodeOfEncodeIsTheCommand :=
  fun _ h => decode?_eq_some.1 (decode?_encode h)

/-- The word of an operation with a kernel size, as a number. -/
theorem commandWord_kernel_toNat (op : BitVec 4) {k : Nat} (hk : k < 256) :
    (commandWord op 0 (BitVec.ofNat 8 k)).toNat = op.toNat + 2 ^ 16 * k := by
  simp [commandWord_toNat, Nat.mod_eq_of_lt hk]

/-- A word without a reserved bit is made of its three fields. -/
theorem commandWord_fields {w : Word} (h : reservedZero w = true) :
    commandWord (BitVec.ofNat 4 (opField w)) (BitVec.ofNat 2 (varField w)) (BitVec.ofNat 8 (kField w)) = w := by
  obtain ⟨hhigh, hmiddle, hlow⟩ := (reservedZero_iff w).1 h
  apply BitVec.eq_of_toNat_eq
  rw [commandWord_toNat, opField_eq, varField_eq, kField_eq]
  simp only [BitVec.toNat_ofNat]
  omega

/-- Settles O2: each branch of the decoder fixes the fields that its command does not keep. -/
theorem encodeOfDecodeIsTheWord : Obligations.EncodeOfDecodeIsTheWord := by
  intro w i h
  have hk : decide (kField w < 256) = true := decide_eq_true (kField_lt w)
  unfold decode at h
  split at h
  case isTrue => cases h
  case isFalse hres =>
    have hword := commandWord_fields (w := w) (by simpa using hres)
    split at h
    case h_1 hop | h_4 hop =>
      split_ifs at h with hf
      cases h
      rw [hop, hf.1, hf.2] at hword
      exact ⟨rfl, hword⟩
    case h_2 hop | h_5 hop =>
      split_ifs at h with hvar
      cases h
      rw [hop, hvar] at hword
      exact ⟨hk, hword⟩
    case h_3 hop =>
      split_ifs at h with hzero hvar hvar <;> cases h
      · rw [hop, hvar, not_not.1 hzero] at hword
        exact ⟨rfl, hword⟩
      · rw [hop, hvar, not_not.1 hzero] at hword
        exact ⟨rfl, hword⟩
    case h_6 => cases h

/-- The decoder answers a command exactly on the command's word. -/
theorem decode?_eq_some_iff_encode {w : Word} {i : Instr} : decode? w = some i ↔ i.wf = true ∧ encode i = w :=
  ⟨fun h => encodeOfDecodeIsTheWord w i (decode?_eq_some.1 h), fun ⟨hwf, hw⟩ => hw ▸ decode?_encode hwf⟩

/-! ## The opcode table -/

/-- The mask of a row with an operand leaves out the K field alone. -/
theorem eq_commandWord_of_masked {w : Word} {op : BitVec 4} (h : w &&& 0xFF00FFFF#32 = commandWord op 0 0) :
    w = commandWord op 0 (BitVec.ofNat 8 (kField w)) := by
  have keep : ∀ {start len : Nat}, (0xFF00FFFF#32).extractLsb' start len = BitVec.allOnes len →
      w.extractLsb' start len = (commandWord op 0 0).extractLsb' start len := by
    intro start len hm
    rw [← h, BitVec.extractLsb'_and, hm, BitVec.and_allOnes]
  have hop : opField w = op.toNat := by
    rw [opField, keep (by decide)]
    exact opField_commandWord op 0 0
  have hvar : varField w = 0 := by
    rw [varField, keep (by decide)]
    exact varField_commandWord op 0 0
  have hres : reservedZero w = true := by
    rw [reservedZero, keep (by decide), keep (by decide), keep (by decide)]
    exact reservedZero_commandWord op 0 0
  have hword := commandWord_fields hres
  rw [hop, hvar, BitVec.ofNat_toNat, BitVec.setWidth_eq] at hword
  exact hword.symm

/-- The word of a row is the word of the row's command. -/
theorem decode?_of_matches {r : OpRow} {w : Word} (hr : r ∈ opcodeTable) (h : r.matches w) :
    decode? w = some (r.instr (kField w)) := by
  have hk : decide (kField w < 256) = true := decide_eq_true (kField_lt w)
  have whole : ∀ {bits : Word}, w &&& 0xFFFFFFFF#32 = bits → w = bits := fun h => BitVec.and_allOnes.symm.trans h
  rw [decode?_eq_some_iff_encode]
  simp only [opcodeTable, List.mem_cons, List.not_mem_nil, or_false] at hr
  rcases hr with rfl | rfl | rfl | rfl | rfl | rfl
  · exact ⟨rfl, (whole h).symm⟩
  · exact ⟨hk, (eq_commandWord_of_masked (op := 0x2) h).symm⟩
  · exact ⟨rfl, (whole h).symm⟩
  · exact ⟨rfl, (whole h).symm⟩
  · exact ⟨rfl, (whole h).symm⟩
  · exact ⟨hk, (eq_commandWord_of_masked (op := 0x5) h).symm⟩

/-- A word that decodes matches some row: the row of its command. -/
theorem matches_of_decode? {w : Word} {i : Instr} (h : decode? w = some i) : ∃ r ∈ opcodeTable, r.matches w := by
  obtain ⟨hwf, rfl⟩ := decode?_eq_some_iff_encode.1 h
  have hrow : Laws.EncodeMatches.Statement i := by
    cases i with
    | quant => exact Laws.EncodeMatches.quant
    | blur k => exact Laws.EncodeMatches.blur k
    | odither2x2 => exact Laws.EncodeMatches.odither2x2
    | odither4x4 => exact Laws.EncodeMatches.odither4x4
    | eddither => exact Laws.EncodeMatches.eddither
    | kuwahara k => exact Laws.EncodeMatches.kuwahara k
  obtain ⟨r, hr, hm, -⟩ := hrow hwf
  exact ⟨r, List.mem_of_getElem? hr, hm⟩

/-- The commands of the row at an index are those whose row it is. -/
theorem row_instr_of_getElem? {j : Nat} {r : OpRow} (k : Nat) (h : opcodeTable[j]? = some r) :
    Laws.EncodeMatches.row (r.instr k) = j := by
  match j, h with
  | 0, rfl | 1, rfl | 2, rfl | 3, rfl | 4, rfl | 5, rfl => rfl

/-- Settles O3: two rows that match one word give the one command that it decodes to. -/
theorem decodeAgreesWithTheOpcodeTable : Obligations.DecodeAgreesWithTheOpcodeTable := by
  intro w
  refine ⟨fun r hr h => kField_eq w ▸ decode?_of_matches hr h, fun hno => ?_, fun j k r q hj hk hr hq => ?_⟩
  · rw [Option.eq_none_iff_forall_ne_some]
    intro i hi
    obtain ⟨r, hr, hm⟩ := matches_of_decode? hi
    exact hno r hr hm
  · have hr := decode?_of_matches (List.mem_of_getElem? hj) hr
    have hq := decode?_of_matches (List.mem_of_getElem? hk) hq
    have hsame : r.instr (kField w) = q.instr (kField w) := Option.some.inj (hr.symm.trans hq)
    rw [← row_instr_of_getElem? (kField w) hj, hsame, row_instr_of_getElem? (kField w) hk]

end Sys2Proof

namespace Sys2Proof.Machine

/-! ## The assembler (30_encoding.md R47) -/

theorem assemble_of_wf {t : CmdText} (h : t.instr.wf = true) : assemble t = some (encode t.instr) := if_pos h

theorem assemble_of_not_wf {t : CmdText} (h : t.instr.wf = false) : assemble t = none :=
  if_neg (Bool.eq_false_iff.1 h)

/-- A kernel size stands in bits 23:16, above the opcode. -/
theorem commandWord_eq_or_shift (op : BitVec 4) {k : Nat} (hk : k < 256) :
    commandWord op 0 (BitVec.ofNat 8 k) = op.setWidth 32 ||| (BitVec.ofNat 32 k <<< 16) := by
  have hop : op.toNat < 2 ^ 16 := op.isLt.trans (by decide)
  have hshift : (BitVec.ofNat 32 k <<< 16).toNat = 2 ^ 16 * k := by
    rw [BitVec.toNat_shiftLeft, BitVec.toNat_ofNat, Nat.shiftLeft_eq]
    omega
  apply BitVec.eq_of_toNat_eq
  rw [commandWord_kernel_toNat op hk, BitVec.toNat_or, BitVec.toNat_setWidth_of_le (by decide), hshift, Nat.or_comm,
    ← Nat.two_pow_add_eq_or_of_lt hop, Nat.add_comm]

/-- Settles O5: an encodable `k` is assembled, and its word is the opcode with `k` above it. -/
theorem assemblerGivesTheCommandWords : Obligations.AssemblerGivesTheCommandWords := by
  refine ⟨rfl, rfl, rfl, rfl, rfl, rfl, fun k hk => ?_, fun k hk => ?_⟩
  · have hlt : k < 256 := Nat.lt_succ_of_le hk
    have hwf : decide (k < 256) = true := decide_eq_true hlt
    exact ⟨(assemble_of_wf (t := .blur (some k)) hwf).trans (congrArg some (commandWord_eq_or_shift 0x2 hlt)),
      (assemble_of_wf (t := .kuwahara (some k)) hwf).trans (congrArg some (commandWord_eq_or_shift 0x5 hlt))⟩
  · have hwf : decide (k < 256) = false := decide_eq_false (by omega)
    exact ⟨assemble_of_not_wf (t := .blur (some k)) hwf, assemble_of_not_wf (t := .kuwahara (some k)) hwf⟩

/-! ## Reserved encodings (30_encoding.md R40, R41, R43, R44) -/

/-- What the fields of a legal word keep to. -/
structure LegalFields (w : Word) : Prop where
  opcode   : 1 ≤ w.toNat % 16 ∧ w.toNat % 16 ≤ 5
  reserved : w.toNat / 2 ^ 24 = 0 ∧ w.toNat / 2 ^ 10 % 2 ^ 6 = 0 ∧ w.toNat / 2 ^ 4 % 2 ^ 4 = 0
  variant  : w.toNat / 2 ^ 8 % 2 ^ 2 = 0 ∨ (w.toNat % 16 = 3 ∧ w.toNat / 2 ^ 8 % 2 ^ 2 = 1)
  kernel   : w.toNat % 16 = 2 ∨ w.toNat % 16 = 5 ∨ w.toNat / 2 ^ 16 % 2 ^ 8 = 0

theorem encode_legalFields {i : Instr} (h : i.wf = true) : LegalFields (encode i) := by
  cases i with
  | quant | odither2x2 | odither4x4 | eddither => constructor <;> decide
  | blur k =>
    have hk : k < 256 := of_decide_eq_true h
    have hword : (encode (.blur k)).toNat = 2 + 2 ^ 16 * k := commandWord_kernel_toNat 0x2 hk
    constructor <;> omega
  | kuwahara k =>
    have hk : k < 256 := of_decide_eq_true h
    have hword : (encode (.kuwahara k)).toNat = 5 + 2 ^ 16 * k := commandWord_kernel_toNat 0x5 hk
    constructor <;> omega

theorem legalFields_of_decode? {w : Word} {i : Instr} (h : decode? w = some i) : LegalFields w := by
  obtain ⟨hwf, rfl⟩ := decode?_eq_some_iff_encode.1 h
  exact encode_legalFields hwf

theorem decode?_eq_none_of_not_legalFields {w : Word} (h : ¬ LegalFields w) : decode? w = none := by
  rw [Option.eq_none_iff_forall_ne_some]
  exact fun i hi => h (legalFields_of_decode? hi)

/-- A word that is no command is an InvalidConfiguration, once the input is legal (60_exceptions.md R85). -/
theorem validate_none_eq_invalidConfiguration {s : State} (hin : ¬ badInput s) :
    validate none s = invalidConfiguration := by
  rcases validate_range none s with h | h | h
  · exact absurd h (validate_none_ne_zero s)
  · exact absurd ((validate_eq_invalidInput_iff none s).1 h) hin
  · exact h

/-- Settles O6: such a word is no command, and `Validate` of no command is a rejection. -/
theorem reservedEncodingsAreRejectedAtStart : Obligations.ReservedEncodingsAreRejectedAtStart := by
  intro s hp hcmd
  have hnone : decode? s.cmd = none := decode?_eq_none_of_not_legalFields fun h => by
    obtain ⟨hop, hreserved, hvar, hk⟩ := h
    omega
  have hstart : startCommand s = .next (reject (validate none s) s) := by
    rw [startCommand_idle hp, hnone, onStart_reject (validate_none_ne_zero s)]
  refine ⟨_, hstart, fun hin => ?_, fun hin => ?_⟩
  · rw [(validate_eq_invalidInput_iff none s).2 hin]
    rfl
  · rw [validate_none_eq_invalidConfiguration hin]
    rfl

end Sys2Proof.Machine
end

section
/-!
PROOFS. The pseudo-instructions `poll` and `image` (30_encoding.md R48, R49): one rule for a run whose next step is a
host statement, one for a list of register writes.
-/

namespace Sys2Proof.Machine

/-! ## The poll loop -/

/-- A run whose first turn is the host's goes on from what the host's next statement answers. -/
theorem core_run_host {s t : State} {st : HostStmt} {rest : List Turn} (k : Nat) (hag : s.agenda = .host :: rest)
    (hs : s.host.prog[s.host.pos]? = some st)
    (ht : runStmt st (gotoStmt (s.host.pos + 1) { s with agenda := rest }) = .next t) :
    Sys2Proof.core.run (k + 1) s = Sys2Proof.core.run k t :=
  core_run_of_step k ((step_host hag hs).trans ht)

/-- The read of STATUS puts its word into `t`. -/
theorem runStmt_rd_status (s : State) : runStmt (.rd .status) s = .next (setT (statusWord s) s) := busRead_reg s .status

/-- `bnz t[0], p` on a STATUS word goes to its label exactly while BUSY. -/
theorem runStmt_bnz_busy {s u : State} {p pos : Nat} (ht : s.host.t = statusWord u)
    (hl : labelPos s.host.prog p = some pos) :
    runStmt (.bnz 0 p) s = .next (gotoStmt (if u.phase = .running then pos else s.host.pos) s) := by
  have hbusy : s.host.t.getLsbD 0 = (u.phase == .running) := ht ▸ (statusWordHasItsFields u).1
  show branch 0 p s = _
  unfold branch
  rw [hbusy, hl]
  cases u.phase <;> rfl

/-- Settles O56: the label, the read and the branch, one host turn each. -/
theorem pollLeavesAtTheFirstNotBusy : Obligations.PollLeavesAtTheFirstNotBusy := by
  intro s p rest hag hprog hlabel
  calc Sys2Proof.core.run 3 s
    _ = Sys2Proof.core.run 2 (gotoStmt (s.host.pos + 1) { s with agenda := .host :: .host :: rest }) :=
      core_run_host 2 hag (hprog 0 (by decide)) rfl
    _ = Sys2Proof.core.run 1 (setT (statusWord s) (gotoStmt (s.host.pos + 2) { s with agenda := .host :: rest })) :=
      core_run_host 1 rfl (hprog 1 (by decide)) (runStmt_rd_status _)
    _ = _ := core_run_host 0 rfl (hprog 2 (by decide)) (runStmt_bnz_busy (u := s) rfl hlabel)

/-! ## Register writes in a row -/

@[simp] theorem writeReg_host (r : Reg) (v : Word) (s : State) : (writeReg r v s).host = s.host := by
  cases r <;> rfl

@[simp] theorem writeReg_agenda (r : Reg) (v : Word) (s : State) : (writeReg r v s).agenda = s.agenda := by
  cases r <;> rfl

theorem writeReg_gotoStmt (r : Reg) (v : Word) (p : Nat) (s : State) :
    writeReg r v (gotoStmt p s) = gotoStmt p (writeReg r v s) := by
  cases r <;> rfl

/-- An empty agenda lets the host of an IDLE block move. -/
theorem step_idle_host {s : State} {st : HostStmt} (hp : s.phase = .idle) (hag : s.agenda = [])
    (hs : s.host.prog[s.host.pos]? = some st) : step s = runStmt st (gotoStmt (s.host.pos + 1) s) := by
  have hturn : defaultTurn s = .host := by simp [defaultTurn, engineReady, hp]
  rw [step_nil hag, hturn]
  show hostMove s = _
  simp only [hostMove, hs]

/-- A register write of the host program, while IDLE and on an empty agenda. -/
theorem step_idle_wr {s : State} {r : Reg} {v : Word} (hp : s.phase = .idle) (hag : s.agenda = [])
    (hs : s.host.prog[s.host.pos]? = some (.wr r v)) (hr : r ≠ .ctrl) :
    step s = .next (gotoStmt (s.host.pos + 1) (writeReg r v s)) := by
  rw [step_idle_host hp hag hs, ← writeReg_gotoStmt]
  exact busWrite_reg v hp hr

/-- The statements of a list of register writes. -/
def writeStmts (ws : List (Reg × Word)) : List HostStmt := ws.map fun w => .wr w.1 w.2

/-- The block after the writes, first to last. -/
def writeRegs (ws : List (Reg × Word)) (s : State) : State := ws.foldl (fun s w => writeReg w.1 w.2 s) s

@[simp] theorem writeRegs_cons (w : Reg × Word) (ws : List (Reg × Word)) (s : State) :
    writeRegs (w :: ws) s = writeRegs ws (writeReg w.1 w.2 s) := rfl

theorem writeRegs_gotoStmt (ws : List (Reg × Word)) (p : Nat) (s : State) :
    writeRegs ws (gotoStmt p s) = gotoStmt p (writeRegs ws s) := by
  induction ws generalizing s with
  | nil => rfl
  | cons w ws ih => rw [writeRegs_cons, writeRegs_cons, writeReg_gotoStmt, ih]

/-- An IDLE block on an empty agenda runs a list of register writes of its host program to the end. -/
theorem core_run_writeStmts {ws : List (Reg × Word)} {s : State} (hctrl : ∀ w ∈ ws, w.1 ≠ .ctrl)
    (hp : s.phase = .idle) (hag : s.agenda = [])
    (hprog : ∀ j, j < ws.length → s.host.prog[s.host.pos + j]? = (writeStmts ws)[j]?) :
    Sys2Proof.core.run ws.length s = .next (gotoStmt (s.host.pos + ws.length) (writeRegs ws s)) := by
  induction ws generalizing s with
  | nil => rfl
  | cons w ws ih =>
    obtain ⟨hw, hctrl⟩ := List.forall_mem_cons.1 hctrl
    have hrest : ∀ j, j < ws.length → s.host.prog[s.host.pos + 1 + j]? = (writeStmts ws)[j]? := fun j hj => by
      rw [Nat.add_assoc, Nat.add_comm 1 j]
      exact hprog (j + 1) (Nat.succ_lt_succ hj)
    rw [List.length_cons, core_run_of_step ws.length (step_idle_wr hp hag (hprog 0 (Nat.succ_pos _)) hw),
      ih hctrl (by simpa using hp) (by simpa using hag) (by simpa using hrest), writeRegs_gotoStmt, writeRegs_cons,
      gotoStmt_host, Nat.add_assoc, Nat.add_comm 1]
    rfl

/-- Settles O57: `image` is five register writes. -/
theorem imageSetsTheGeometry : Obligations.ImageSetsTheGeometry := by
  intro s w h c src dst hp hag hprog
  exact core_run_writeStmts
    (ws := [(.width, w), (.height, h), (.channels, c), (.srcBase, src), (.dstBase, dst)]) (by simp) hp hag hprog

end Sys2Proof.Machine
end

section
/-!
PROOFS. `QUANT` (40_quantize.md R50 to R52): what `Nearest` answers, the level that the command writes, and its
idempotence.
-/

namespace Sys2Proof.Machine

/-! ## Nearest (40_quantize.md R50) -/

theorem natCast_absDiff (a b : Nat) : (absDiff a b : Int) = |(a : Int) - b| := Int.natCast_natAbs _

/-- `Nearest` answers the first entry at the least distance. -/
theorem nearest_spec (v : Nat) {ls : List Nat} (h : ls ≠ []) :
    ∃ j : Nat, ls[j]? = some (nearest v ls) ∧ ∀ i l, ls[i]? = some l →
      absDiff (nearest v ls) v ≤ absDiff l v ∧ (i < j → absDiff (nearest v ls) v < absDiff l v) := by
  cases ls with
  | nil => exact absurd rfl h
  | cons l rest => exact firstMin_spec (fun lv => absDiff lv v) l rest

theorem absDiff_nearest_le (v : Nat) {ls : List Nat} {l : Nat} (h : l ∈ ls) :
    absDiff (nearest v ls) v ≤ absDiff l v := by
  obtain ⟨j, -, hmin⟩ := nearest_spec v (List.ne_nil_of_mem h)
  obtain ⟨i, hi⟩ := List.mem_iff_getElem?.1 h
  exact (hmin i l hi).1

/-- A level strictly nearer than every other one is the answer. -/
theorem nearest_eq_of_forall_lt {v m : Nat} {ls : List Nat} (hm : m ∈ ls)
    (h : ∀ l ∈ ls, l ≠ m → absDiff m v < absDiff l v) : nearest v ls = m := by
  by_contra hne
  have hlt := h _ (nearest_mem (List.ne_nil_of_mem hm)) hne
  exact absurd (absDiff_nearest_le v hm) (Nat.not_le.2 hlt)

/-- A level is at distance 0 from itself, and from no other number. -/
theorem nearest_of_mem {v : Nat} {ls : List Nat} (h : v ∈ ls) : nearest v ls = v :=
  nearest_eq_of_forall_lt h fun l _ hne => by
    unfold absDiff
    omega

theorem nearest_nearest (v : Nat) {ls : List Nat} (h : ls ≠ []) : nearest (nearest v ls) ls = nearest v ls :=
  nearest_of_mem (nearest_mem h)

/-! ## The sample of `QUANT` (40_quantize.md R51) -/

theorem State.runsAlone.validated {s : State} {i : Instr} (h : s.runsAlone i) : Validated i s := by
  obtain ⟨⟨-, hvalid, -⟩, -⟩ := h
  exact validate_eq_zero_iff.1 hvalid

theorem Validated.levelSeq_ne_nil {s : State} (h : Validated .quant s) : levelSeq s ≠ [] := by
  obtain ⟨hpos, hle⟩ := h.levels rfl
  exact List.ne_nil_of_length_pos ((levelSeq_length hle).symm ▸ hpos)

/-- The nearest level is a byte, so that the sample holds it whole. -/
theorem quantSample_toNat {s : State} (h : Validated .quant s) (y x c : Nat) :
    (quantSample s y x c).toNat = nearest (s.src y x c) (levelSeq s) := by
  have hle := levelSeq_le (nearest_mem (v := s.src y x c) h.levelSeq_ne_nil)
  exact Nat.mod_eq_of_lt (Nat.lt_succ_of_le hle)

/-- The sample is an entry of the level table, the first at the least distance. -/
theorem quantSample_spec {s : State} (h : Validated .quant s) (y x c : Nat) :
    ∃ j, j < s.NL ∧ quantSample s y x c = s.level.toList.getD j 0 ∧ ∀ i, i < s.NL →
      absDiff (quantSample s y x c).toNat (s.src y x c) ≤ absDiff (s.level.toList.getD i 0).toNat (s.src y x c) ∧
      (i < j →
        absDiff (quantSample s y x c).toNat (s.src y x c) < absDiff (s.level.toList.getD i 0).toNat (s.src y x c)) := by
  obtain ⟨-, hle⟩ := h.levels rfl
  obtain ⟨j, hj, hmin⟩ := nearest_spec (s.src y x c) h.levelSeq_ne_nil
  rw [← quantSample_toNat h] at hj hmin
  have hlt : j < s.NL := by
    obtain ⟨hlt, -⟩ := List.getElem?_eq_some_iff.1 hj
    rwa [levelSeq_length hle] at hlt
  rw [levelSeq_getElem? hle hlt] at hj
  exact ⟨j, hlt, (BitVec.eq_of_toNat_eq (Option.some.inj hj)).symm, fun i hi => hmin i _ (levelSeq_getElem? hle hi)⟩

/-- Settles O21: the completion writes `quantSample`, the first nearest entry of the level table. -/
theorem quantWritesTheFirstNearestLevel : Obligations.QuantWritesTheFirstNearestLevel := by
  intro s hm h
  obtain ⟨t, ht, hframe, hvalue⟩ := exec_completedWith hm h
  refine ⟨t, ht, hframe, fun y x c hy hx hc => ?_⟩
  obtain ⟨j, hj, hentry, hmin⟩ := quantSample_spec h.validated y x c
  refine ⟨j, hj, (hvalue y x c ⟨hy, hx, hc⟩).trans hentry, fun i hi => ?_⟩
  rw [← hentry]
  simpa only [← natCast_absDiff, Nat.cast_le, Nat.cast_lt] using hmin i hi

/-! ## Idempotence and the default levels (40_quantize.md R52) -/

/-- A run over the result of an earlier one reads the samples that one wrote. -/
theorem src_eq_destSample {i : Instr} {s t u : State} (hw : u.width = s.width) (hc : u.channels = s.channels)
    (hb : u.srcBase = s.dstBase) (hd : destChannels i s = s.C) (hm : u.mem = t.mem) (y x c : Nat) :
    u.src y x c = (destSample i s t y x c).toNat := by
  unfold State.src destSample dstAddr State.W State.C
  rw [hw, hc, hb, hm, hd, State.C]

/-- A source that holds the samples `QUANT` wrote is quantized to itself under the same levels. -/
theorem quantSample_of_src_eq {s u : State} (h : Validated .quant s) (hl : levelSeq u = levelSeq s) {y x c : Nat}
    (hsrc : u.src y x c = (quantSample s y x c).toNat) : quantSample u y x c = quantSample s y x c := by
  rw [quantSample_toNat h] at hsrc
  unfold quantSample
  rw [hsrc, hl, nearest_nearest _ h.levelSeq_ne_nil]

/-- Two levels of different parity have no number halfway between them. -/
theorem absDiff_ne_of_odd_add {a b : Nat} (h : (a + b) % 2 = 1) (v : Nat) : absDiff a v ≠ absDiff b v := by
  unfold absDiff
  omega

/-- The decision boundaries of the default levels (10_state.md R17). -/
theorem nearest_defaultLevels {v : Nat} (hv : v < 256) :
    nearest v [0, 51, 102, 153, 204, 255] =
      if v ≤ 25 then 0 else if v ≤ 76 then 51 else if v ≤ 127 then 102 else if v ≤ 178 then 153
      else if v ≤ 229 then 204 else 255 := by
  apply nearest_eq_of_forall_lt
  · split_ifs <;> decide
  · intro l hl hne
    simp only [List.mem_cons, List.not_mem_nil, or_false] at hl
    unfold absDiff
    split_ifs at hne ⊢ <;> omega

/-- Settles O34: the second run reads the levels that the first wrote, and a level is nearest to itself. -/
theorem quantIsIdempotent : Obligations.QuantIsIdempotent := by
  refine ⟨fun v ls => nearest_nearest v, ?_, fun v hv => ⟨nearest_defaultLevels hv, fun j hj => ?_⟩⟩
  · intro s t u w hms hmu hs ht hu hwidth hheight hch hsrc hlc hlevel hmem hw y x c hy hx hc
    have hW : u.W = s.W := congrArg BitVec.toNat hwidth
    have hH : u.H = s.H := congrArg BitVec.toNat hheight
    have hC : u.C = s.C := congrArg BitVec.toNat hch
    have hl : levelSeq u = levelSeq s := by simp only [levelSeq, State.NL, hlc, hlevel]
    have hfirst : destSample .quant s t y x c = quantSample s y x c := destSample_of_exec hms hs ht ⟨hy, hx, hc⟩
    have hread : u.src y x c = (quantSample s y x c).toNat :=
      hfirst ▸ src_eq_destSample hwidth hch hsrc rfl hmem y x c
    calc destSample .quant u w y x c
      _ = quantSample u y x c := destSample_of_exec hmu hu hw ⟨hy.trans_eq hH.symm, hx.trans_eq hW.symm, hc.trans_eq hC.symm⟩
      _ = quantSample s y x c := quantSample_of_src_eq hs.validated hl hread
      _ = destSample .quant s t y x c := hfirst.symm
  · have hodd : ∀ j < 5, ([0, 51, 102, 153, 204, 255].getD j 0 + [0, 51, 102, 153, 204, 255].getD (j + 1) 0) % 2 = 1 := by
      decide
    exact absDiff_ne_of_odd_add (hodd j hj) v

end Sys2Proof.Machine
end

section
/-!
PROOFS. `BLUR` (41_blur.md R53 to R56): a START it rejects, the rounded mean it writes and a flat channel it keeps, and
the border extension it reads by.
-/

namespace Sys2Proof.Machine

/-! ## START (41_blur.md R55) -/

/-- A START of a command that is not `Validated` is rejected, with InvalidInput in priority (60_exceptions.md R85). -/
theorem exec_rejectedWith {i : Instr} {s : State} (hp : s.phase = .idle) (h : ¬ Validated i s) :
    ∃ t, exec i s = .next t ∧ (badInput s → rejectedWith invalidInput s t) ∧
      (¬ badInput s → rejectedWith invalidConfiguration s t) := by
  have hreject : onStart (some i) s = reject (validate (some i) s) s :=
    onStart_reject fun h₀ => h (validate_eq_zero_iff.1 h₀)
  refine ⟨reject (validate (some i) s) s, (exec_idle i hp).trans (congrArg _ hreject), fun hin => ?_, fun hin => ?_⟩
  · rw [(validate_eq_invalidInput_iff _ s).2 hin]
    rfl
  · rw [validate_eq_invalidConfiguration hin h]
    rfl

/-- A validated `BLUR` has an odd kernel size. -/
theorem Validated.blur_odd {k : Nat} {s : State} (h : Validated (.blur k) s) : k % 2 = 1 := eq_of_beq h.kernel

/-- Settles O18: a validated kernel size is odd, and 0 is even. -/
theorem blurRejectsZeroAndEvenKernels : Obligations.BlurRejectsZeroAndEvenKernels := by
  refine ⟨fun s k hp hk => ?_, rfl, rfl, fun k hk => decide_eq_false (Nat.not_lt.2 hk)⟩
  refine exec_rejectedWith hp fun hv => ?_
  have hodd := hv.blur_odd
  omega

/-! ## The sample of `BLUR` (41_blur.md R54) -/

/-- An odd kernel has a positive number of samples, the divisor of the mean. -/
theorem kernelArea_pos {k : Nat} (h : k % 2 = 1) : 0 < k * k := by
  have hk : 0 < k := by omega
  exact Nat.mul_pos hk hk

/-- A mean of bytes is a byte, so that the sample holds it whole. -/
theorem blurSample_toNat (s : State) {k : Nat} (hk : k % 2 = 1) (y x c : Nat) :
    (blurSample s k y x c).toNat =
      roundDiv (windowSum s s.cfg.blurBorder k ((y : Int) - ((k - 1) / 2 : Nat)) ((x : Int) - ((k - 1) / 2 : Nat)) c id)
        (k * k) s.cfg.blurRound := by
  have hle := roundDiv_le (kernelArea_pos hk) (windowSum_le s s.cfg.blurBorder k ((y : Int) - ((k - 1) / 2 : Nat))
    ((x : Int) - ((k - 1) / 2 : Nat)) c) s.cfg.blurRound
  rw [blurSample, blurSum_eq_windowSum]
  exact Nat.mod_eq_of_lt (Nat.lt_succ_of_le hle)

/-- Settles O22: the completion writes `blurSample`, the rounded mean. -/
theorem blurWritesTheRoundedMean : Obligations.BlurWritesTheRoundedMean := by
  intro s k hm h
  obtain ⟨t, ht, hframe, hvalue⟩ := exec_completedWith hm h
  refine ⟨t, ht, hframe, fun y x c hy hx hc => ?_⟩
  rw [hvalue y x c ⟨hy, hx, hc⟩]
  exact blurSample_toNat s h.validated.blur_odd y x c

/-! ## Flat channels (41_blur.md R56) -/

/-- A window over a flat channel sums its one value `k²` times, whatever the border. -/
theorem windowSum_of_flat {s : State} {c v : Nat} (hH : 0 < s.H) (hW : 0 < s.W)
    (hflat : ∀ y x, y < s.H → x < s.W → s.src y x c = v) (mode : Config.Border) (k : Nat) (r₀ c₀ : Int) (f : Nat → Nat) :
    windowSum s mode k r₀ c₀ c f = k * k * f v := by
  have hsample : ∀ i j : Int, s.src (border mode i s.H) (border mode j s.W) c = v := fun i j =>
    hflat _ _ (border_lt mode i hH) (border_lt mode j hW)
  simp only [windowSum, hsample, Finset.sum_const, Finset.card_range, smul_eq_mul, Nat.mul_assoc]

/-- Settles O35: the mean of `k²` equal samples is that sample. -/
theorem blurKeepsFlatChannels : Obligations.BlurKeepsFlatChannels := by
  intro s t k c v hm h ht hc hflat y x hy hx
  have hv := h.validated
  calc (destSample (.blur k) s t y x c).toNat
    _ = (blurSample s k y x c).toNat := congrArg _ (destSample_of_exec hm h ht ⟨hy, hx, hc⟩)
    _ = roundDiv (k * k * v) (k * k) s.cfg.blurRound := by
      rw [blurSample_toNat s hv.blur_odd, windowSum_of_flat hv.height hv.width hflat, id]
    _ = v := roundDiv_mul (kernelArea_pos hv.blur_odd) v _

/-! ## Border extension (41_blur.md R53) -/

theorem border_replicate_of_neg {i : Int} (h : i < 0) (n : Nat) : border .replicate i n = 0 := by
  simp only [border]
  omega

theorem border_replicate_of_le {i : Int} {n : Nat} (h : (n : Int) ≤ i) : border .replicate i n = n - 1 := by
  simp only [border]
  omega

/-- `REFLECT101` on a dimension of more than one sample, by the remainder in its period. -/
theorem border_reflect101_of_ne_one (i : Int) {n : Nat} (hn : n ≠ 1) :
    border .reflect101 i n =
      (if i % (2 * n - 2) < n then i % (2 * n - 2) else 2 * n - 2 - i % (2 * n - 2) : Int).toNat := if_neg hn

theorem border_reflect (i : Int) (n : Nat) :
    border .reflect i n = (if i % (2 * n) < n then i % (2 * n) else 2 * n - 1 - i % (2 * n) : Int).toNat := rfl

theorem border_reflect101_add_period (i : Int) (n : Nat) :
    border .reflect101 (i + (2 * n - 2)) n = border .reflect101 i n := by
  by_cases hn : n = 1
  · subst hn
    rfl
  · simp only [border_reflect101_of_ne_one _ hn, Int.add_emod_right]

theorem border_reflect_add_period (i : Int) (n : Nat) : border .reflect (i + 2 * n) n = border .reflect i n := by
  simp only [border_reflect, Int.add_emod_right]

/-- `REFLECT101` mirrors about the sample at 0: a remainder `j ≠ 0` becomes `2n - 2 - j`. -/
theorem border_reflect101_neg (i : Int) {n : Nat} (hn : 1 ≤ n) : border .reflect101 (-i) n = border .reflect101 i n := by
  by_cases hone : n = 1
  · subst hone
    rfl
  · have hlt := Int.emod_lt_of_pos i (b := 2 * (n : Int) - 2) (by omega)
    simp only [border_reflect101_of_ne_one _ hone, Int.neg_emod, Int.dvd_iff_emod_eq_zero]
    split_ifs <;> omega

/-- Mirroring about -1/2 reverses the remainders of a period. -/
theorem neg_one_sub_emod (i : Int) {p : Int} (hp : 0 < p) : (-1 - i) % p = p - 1 - i % p := by
  have hnonneg := Int.emod_nonneg i hp.ne'
  have hlt := Int.emod_lt_of_pos i hp
  have hdiv := Int.emod_add_mul_ediv i p
  rw [Int.emod_eq_iff hp.ne']
  exact ⟨by omega, by omega, 1 + i / p, by linarith⟩

/-- `REFLECT` mirrors the edge sample too: a remainder `j` becomes `2n - 1 - j`. -/
theorem border_reflect_mirror (i : Int) {n : Nat} (hn : 1 ≤ n) : border .reflect (-1 - i) n = border .reflect i n := by
  have hmirror := neg_one_sub_emod i (p := 2 * (n : Int)) (by omega)
  simp only [border_reflect, hmirror]
  split_ifs <;> omega

/-- Settles O33: the clamp, the period and the mirror of each mode. -/
theorem borderModesExtendTheDimension : Obligations.BorderModesExtendTheDimension := by
  refine ⟨rfl, fun n i hn => ⟨fun mode => border_lt mode i hn, fun mode h₀ hi => ?_, fun h => border_replicate_of_neg h n,
    border_replicate_of_le, fun h => ?_, border_reflect101_add_period i n, border_reflect101_neg i hn,
    border_reflect_add_period i n, border_reflect_mirror i hn⟩⟩
  · lift i to Nat using h₀
    rw [border_of_lt mode (Int.ofNat_lt.1 hi)]
  · subst h
    rfl

end Sys2Proof.Machine
end

section
/-!
PROOFS. `ODITHER` (42_ordered_dither.md R57 to R60): the biased sample of either matrix, rounded and clamped, and that
it is no darker than the source.
-/

namespace Sys2Proof.Machine

/-! ## The sample of `ODITHER` (42_ordered_dither.md R58) -/

/-- The clamp makes the sample a byte, so that it is held whole. -/
theorem ditherSample_toNat (s : State) (m : List (List Nat)) (y x c : Nat) :
    (ditherSample s m y x c).toNat =
      min 255 (roundDiv (16 * s.src y x c + 255 * threshold m y x) 16 s.cfg.odRound) :=
  Nat.mod_eq_of_lt (Nat.lt_succ_of_le (Nat.min_le_left 255 _))

/-- A threshold is not negative, so rounding does not go below the source sample (42_ordered_dither.md R60). -/
theorem src_le_ditherSample (s : State) (m : List (List Nat)) (y x c : Nat) :
    s.src y x c ≤ (ditherSample s m y x c).toNat := by
  rw [ditherSample_toNat]
  exact Nat.le_min.2 ⟨src_le s y x c, le_roundDiv (by decide) (Nat.le_add_right _ _) _⟩

/-! ## The two variants -/

/-- A command that dithers by the matrix `m` and keeps the channels completes with the biased, clamped samples. -/
theorem exec_dither {i : Instr} {m : List (List Nat)} {s : State} (hsample : resultSample i s = ditherSample s m)
    (hchannels : destChannels i s = s.C) (hm : Memory.wf s.mem = true) (h : s.runsAlone i) :
    ∃ t, exec i s = .next t ∧ completedFrame i s t ∧ ∀ y x c, y < s.H → x < s.W → c < s.C →
      (destSample i s t y x c).toNat =
        min 255 (roundDiv (16 * s.src y x c + 255 * threshold m y x) 16 s.cfg.odRound) := by
  obtain ⟨t, ht, hframe, hvalue⟩ := exec_completedWith hm h
  refine ⟨t, ht, hframe, fun y x c hy hx hc => ?_⟩
  rw [hvalue y x c ⟨hy, hx, hchannels.symm ▸ hc⟩, hsample, ditherSample_toNat]

/-- Settles O23: the matrix is `N2`, its thresholds listed row by row. -/
theorem odither2x2AddsItsThreshold : Obligations.Odither2x2AddsItsThreshold := by
  intro s hm h
  simpa only [threshold_matrix2] using exec_dither (m := matrix2) rfl rfl hm h

/-- Settles O24: the matrix is `N4`, its thresholds listed row by row. -/
theorem odither4x4AddsItsThreshold : Obligations.Odither4x4AddsItsThreshold := by
  intro s hm h
  simpa only [threshold_matrix4] using exec_dither (m := matrix4) rfl rfl hm h

/-- Settles O36: the destination holds the samples of one of the two matrices, each no darker than its source. -/
theorem oditherNeverDarkens : Obligations.OditherNeverDarkens := by
  intro s t i hi hm h ht y x c hy hx hc
  obtain ⟨m, hsample, hchannels⟩ : ∃ m, resultSample i s = ditherSample s m ∧ destChannels i s = s.C := by
    rcases hi with rfl | rfl
    · exact ⟨matrix2, rfl, rfl⟩
    · exact ⟨matrix4, rfl, rfl⟩
  rw [destSample_of_exec hm h ht ⟨hy, hx, hchannels.symm ▸ hc⟩, hsample]
  exact ⟨src_le_ditherSample s m y x c, Nat.le_of_lt_succ (ditherSample s m y x c).isLt⟩

end Sys2Proof.Machine
end

section
/-!
PROOFS. The scan of `EDDITHER` (43_error_diffusion.md R62 to R69): where it stands after a number of pixels, that every
move of a run keeps an undisturbed scan on that course, and what it leaves in the destination.
-/

namespace Sys2Proof.Machine

/-! ## The position after a number of pixels (43_error_diffusion.md R63) -/

section Position

variable {s : State} (hW : 0 < s.W)
include hW

/-- The scan counts its pixels, and its column lies in the raster. -/
theorem visited_scanAfter (n : Nat) :
    visited s (scanAfter s n (loadScan s)) = n ∧ (scanAfter s n (loadScan s)).x < s.W := by
  induction n with
  | zero => exact ⟨by simp [visited, loadScan], hW⟩
  | succ n ih =>
    obtain ⟨hcount, hx⟩ := ih
    rw [scanAfter_succ]
    refine ⟨by rw [visited_nextScan hx, hcount], ?_⟩
    simp only [nextScan]
    split <;> omega

/-- A count of pixels is one position. -/
theorem scanAfter_position (n : Nat) :
    (scanAfter s n (loadScan s)).y = n / s.W ∧ (scanAfter s n (loadScan s)).x = n % s.W := by
  obtain ⟨hcount, hx⟩ := visited_scanAfter hW n
  exact digits_eq hx (Nat.mod_lt n hW) (hcount.trans (Nat.div_add_mod' n s.W).symm)

end Position

/-- Settles O40: quotient and remainder by the width, which at the pixel count are the height and 0. -/
theorem scanVisitsEachPixelInRasterOrder : Obligations.ScanVisitsEachPixelInRasterOrder := by
  intro s hW
  obtain ⟨hy, hx⟩ := scanAfter_position hW (s.W * s.H)
  refine ⟨fun n _ => scanAfter_position hW n, ?_, ?_⟩
  · rw [hy, Nat.mul_div_cancel_left _ hW]
  · rw [hx, Nat.mul_mod_right]

/-! ## One scan move (43_error_diffusion.md R65, R69) -/

/-- The destination of `EDDITHER` has one channel, so its pixels lie side by side. -/
theorem dstAddr_eddither (s : State) (y x : Nat) : dstAddr .eddither s y x 0 = s.dstBase.toNat + (y * s.W + x) := by
  simp [dstAddr, destChannels, rasterAddr]

/-- A chosen level is a byte, held whole. -/
theorem toNat_ofNat_pixelLevel (s : State) (e : Scan) : (BitVec.ofNat 8 (pixelLevel s e)).toNat = pixelLevel s e :=
  Nat.mod_eq_of_lt (Nat.lt_succ_of_le (pixelLevel_le s e))

/-- A scan move of a scan that has a pixel left visits it. -/
theorem scanMove_eq_visitPixel {s : State} {e : Scan} (hp : s.phase = .running) (he : s.scan = some e) (hy : e.y < s.H) :
    scanMove s = visitPixel e s := by
  simp only [scanMove, hp, he, if_pos hy]

/-- An unbacked address reads after a visit as it did before. -/
theorem visitPixel_read_unbacked {s : State} {e : Scan} (hm : Memory.wf s.mem = true) {a : Nat}
    (ha : admits s.cfg a = false) : (visitPixel e s).mem.read a = s.mem.read a := by
  by_cases h : a = dstAddr .eddither s e.y e.x 0
  · subst h
    rw [visitPixel_mem, storeByte, ha]
    rfl
  · exact visitPixel_read_other hm h

/-- Settles O41: the move visits the pixel, whose one write is backed or none. -/
theorem scanMoveWritesOnePixel : Obligations.ScanMoveWritesOnePixel := by
  intro s e hinv he hy
  obtain ⟨hp, -, -⟩ := hinv.scan.1 e he
  rw [scanMove_eq_visitPixel hp he hy, ← dstAddr_eddither]
  refine ⟨rfl, fun ha => ?_, fun a ha => ?_⟩
  · rw [visitPixel_read_same hinv.mem.1 ha, toNat_ofNat_pixelLevel]
  · exact ha.elim (visitPixel_read_other hinv.mem.1) (visitPixel_read_unbacked hinv.mem.1)

/-! ## Every move keeps the scan on its course -/

/-- The scan stands after `n` pixels of the reference scan, their backed bytes written: what `State.scanFaithful` says of
an undisturbed scan. -/
def StandsAfter (s : State) (e : Scan) (n : Nat) : Prop :=
  n ≤ s.W * s.H ∧ e = scanAfter s n (loadScan s) ∧
    ∀ j, j < n → admits s.cfg (s.dstBase.toNat + j) = true →
      s.mem.read (s.dstBase.toNat + j) = BitVec.ofNat 8 (pixelLevel s (scanAfter s j (loadScan s)))

theorem scanFaithful_iff {s : State} :
    s.scanFaithful ↔ ∀ e, s.scan = some e → s.raced = false → (srcRegion s).admitted s.cfg = true →
      ∃ n, StandsAfter s e n := by
  have hlevels : ∀ n e, (∀ j, j < n → admits s.cfg (s.dstBase.toNat + j) = true →
        s.mem.read (s.dstBase.toNat + j) = BitVec.ofNat 8 ((scanLevels s n e).getD j 0)) ↔
      ∀ j, j < n → admits s.cfg (s.dstBase.toNat + j) = true →
        s.mem.read (s.dstBase.toNat + j) = BitVec.ofNat 8 (pixelLevel s (scanAfter s j e)) :=
    fun n e => forall₂_congr fun j hj => by rw [scanLevels_getD hj]
  simp only [State.scanFaithful, StandsAfter, hlevels]

/-- Without a scan there is nothing to keep. -/
theorem scanFaithful_of_no_scan {s : State} (h : s.scan = none) : s.scanFaithful :=
  fun e he => absurd (h.symm.trans he) (by simp)

/-- The `n`-th byte of a destination of one channel. -/
theorem dstRegion_eddither_has {s : State} {n : Nat} (h : n < s.W * s.H) :
    (dstRegion .eddither s).has (s.dstBase.toNat + n) = true :=
  Region.has_iff.2 (by simp [dstRegion, destChannels, h])

/-- A state alike in registers, source bytes and destination bytes stands where the other does. -/
theorem StandsAfter.congr {s t : State} {e : Scan} {n : Nat} (hregs : HoldsRegisters s t)
    (hadm : (srcRegion s).admitted s.cfg = true)
    (hsrc : ∀ a, (srcRegion s).has a = true → t.mem.read a = s.mem.read a)
    (hdst : ∀ a, (dstRegion .eddither s).has a = true → t.mem.read a = s.mem.read a) (h : StandsAfter s e n) :
    StandsAfter t e n := by
  obtain ⟨hn, he, hbytes⟩ := h
  have hload : loadScan t = loadScan s := loadScan_congr hregs.toSameScanInputs hregs.srcBase hadm hsrc
  unfold StandsAfter
  simp only [hload, hregs.W, hregs.H, hregs.cfg, hregs.dstBase, hregs.scanAfter, hregs.pixelLevel]
  refine ⟨hn, he, fun j hj ha => ?_⟩
  rw [hdst _ (dstRegion_eddither_has (hj.trans_le hn)), hbytes j hj ha]

/-- A move that holds the scan and the registers keeps it faithful if, undisturbed, it leaves the bytes of both regions. -/
theorem scanFaithful_of_same_bytes {s t : State} (hregs : HoldsRegisters s t) (hscan : t.scan = s.scan)
    (hbytes : ∀ e, s.scan = some e → t.raced = false → s.raced = false ∧
      ∀ a, (srcRegion s).has a = true ∨ (dstRegion .eddither s).has a = true → t.mem.read a = s.mem.read a)
    (h : s.scanFaithful) : t.scanFaithful := by
  rw [scanFaithful_iff] at h ⊢
  rw [hscan, hregs.srcRegion, hregs.cfg]
  intro e he hr hadm
  obtain ⟨hr₀, hsame⟩ := hbytes e he hr
  obtain ⟨n, hn⟩ := h e he hr₀ hadm
  exact ⟨n, hn.congr hregs hadm (fun a ha => hsame a (.inl ha)) fun a ha => hsame a (.inr ha)⟩

/-- A change of the host agent, the agenda and the count of draws is none of the scan's. -/
theorem scanFaithful_with_host_draws {s : State} (h : s.scanFaithful) (hs : HostState) (n : Nat) (ag : List Turn) :
    { s with host := hs, draws := n, agenda := ag }.scanFaithful :=
  scanFaithful_of_same_bytes (holdsRegisters_update ..) rfl (fun _ _ hr => ⟨hr, fun _ _ => rfl⟩) h

/-- A host byte write outside a running command's regions disturbs no byte of theirs; inside, it marks the race. -/
theorem scanFaithful_hostStore {s : State} (hinv : s.Inv) (h : s.scanFaithful) (a : BitVec 32) (v : Byte) :
    { s with mem := s.mem.write a.toNat v, raced := s.raced || inRunningRegions s a.toNat }.scanFaithful := by
  refine scanFaithful_of_same_bytes (s := s) (holdsRegisters_update ..) rfl (fun e he hr => ?_) h
  obtain ⟨hp, hd, -⟩ := hinv.scan.1 e he
  obtain ⟨hraced, hout⟩ : s.raced = false ∧ inRunningRegions s a.toNat = false := Bool.or_eq_false_iff.1 hr
  refine ⟨hraced, fun b hb => ?_⟩
  refine (Memory.read_write hinv.mem.1 _ v b).trans (if_neg ?_)
  rintro rfl
  rw [inRunningRegions_eq hp hd, Bool.or_eq_false_iff] at hout
  exact hb.elim (fun hsrc => absurd (hsrc.symm.trans hout.1) (by decide))
    fun hdst => absurd (hdst.symm.trans hout.2) (by decide)

/-- An accepted START loads the scan at its start; a draw for an unbacked source byte is none of a backed one's. -/
theorem accept_scanFaithful (i : Instr) (s : State) : (accept i s).scanFaithful := by
  refine scanFaithful_iff.2 fun e he _ hadm => ⟨0, Nat.zero_le _, ?_, fun j hj => absurd hj (Nat.not_lt_zero j)⟩
  obtain ⟨rfl, rfl⟩ := startScan_eq_some he
  exact (loadScan_congr (s := s) (t := accept .eddither s) ⟨rfl, rfl, rfl, rfl, rfl, rfl⟩ rfl hadm fun _ _ => rfl).symm

theorem State.Inv.scan_eq_none {s : State} (h : s.Inv) (hp : s.phase = .idle) : s.scan = none :=
  ((State.inv_iff_of_idle hp).1 h).2.2.2

theorem onStart_scanFaithful {s : State} (h : s.Inv) (hp : s.phase = .idle) :
    (onStart (decode? s.cmd) s).scanFaithful := by
  rcases onStart_cases (decode? s.cmd) s with ⟨-, he⟩ | ⟨i, -, -, he⟩
  · rw [he]; exact scanFaithful_of_no_scan (h.scan_eq_none hp)
  · rw [he]; exact accept_scanFaithful i s

theorem runStmt_scanFaithful {st : HostStmt} {s t : State} (hinv : s.Inv) (h : s.scanFaithful)
    (ht : runStmt st s = .next t) : t.scanFaithful := by
  rcases runStmt_cases ht with ⟨hs, rfl⟩ | ⟨hs, rfl⟩ | ⟨hp, r, v, rfl⟩ | ⟨hp, rfl⟩ | ⟨a, v, -, -, rfl⟩
  · exact scanFaithful_with_host_draws h hs s.draws s.agenda
  · exact scanFaithful_with_host_draws h hs (s.draws + 1) s.agenda
  · exact scanFaithful_of_no_scan ((writeReg_inv hinv hp).scan_eq_none ((writeReg_phase r v s).trans hp))
  · exact onStart_scanFaithful hinv hp
  · exact scanFaithful_hostStore hinv h a v

theorem hostMove_scanFaithful {s t : State} (hinv : s.Inv) (h : s.scanFaithful) (ht : hostMove s = .next t) :
    t.scanFaithful := by
  rcases hostMove_cases ht with rfl | ⟨st, -, hst⟩
  · exact h
  · exact runStmt_scanFaithful (hinv.with_host_draws { s.host with pos := s.host.pos + 1 } s.draws)
      (scanFaithful_with_host_draws h { s.host with pos := s.host.pos + 1 } s.draws s.agenda) hst

/-- A completion changes nothing or discards the scan. -/
theorem engineMove_scanFaithful {s t : State} (h : s.scanFaithful) (ht : engineMove s = .next t) : t.scanFaithful := by
  rcases engineMove_cases ht with rfl | ⟨-, i, -, rfl⟩
  · exact h
  · rcases complete_cases i (resultSample i s) s with ⟨-, he⟩ | ⟨-, -, he⟩ | ⟨-, -, he⟩
    · rwa [he]
    · rw [he]; exact scanFaithful_of_no_scan (endRun_scan _)
    · rw [he]; exact scanFaithful_of_no_scan (endRun_scan _)

section VisitPixel

variable {s : State} {e : Scan} (hinv : s.Inv) (he : s.scan = some e) (hy : e.y < s.H)
include hinv he hy

/-- A visited pixel writes no source byte: the regions of a validated command are apart. -/
theorem loadScan_visitPixel (hadm : (srcRegion s).admitted s.cfg = true) : loadScan (visitPixel e s) = loadScan s := by
  obtain ⟨hp, hd, -⟩ := hinv.scan.1 e he
  refine loadScan_congr ⟨rfl, rfl, rfl, rfl, rfl, rfl⟩ rfl hadm fun a ha => visitPixel_read_other hinv.mem.1 ?_
  rintro rfl
  have hapart := (hinv.validated hp hd).apart _ ha
  exact absurd (hapart.symm.trans (dstAddr_has (hinv.scan_inDest he hy))) (by decide)

/-- A visited pixel brings the scan from one pixel count to the next. -/
theorem StandsAfter.visitPixel {n : Nat} (hadm : (srcRegion s).admitted s.cfg = true) (h : StandsAfter s e n) :
    StandsAfter (visitPixel e s) (nextScan s e) (n + 1) := by
  have hsame : SameScanInputs s (Machine.visitPixel e s) := ⟨rfl, rfl, rfl, rfl, rfl, rfl⟩
  have hpix := hinv.scan_inDest he hy
  obtain ⟨-, hcourse, hbytes⟩ := h
  have hcount : e.y * s.W + e.x = n := by
    rw [hcourse]
    exact (visited_scanAfter (Nat.zero_lt_of_lt hpix.2.1) n).1
  have haddr : dstAddr .eddither s e.y e.x 0 = s.dstBase.toNat + n := by rw [dstAddr_eddither, hcount]
  unfold StandsAfter
  simp only [loadScan_visitPixel hinv he hy hadm, hsame.scanAfter, hsame.pixelLevel, visitPixel_W, visitPixel_H,
    visitPixel_cfg, visitPixel_dstBase]
  refine ⟨?_, by rw [scanAfter_succ, ← hcourse], fun j hj ha => ?_⟩
  · rw [← hcount]
    exact pixelIndex_lt hy hpix.2.1
  · rcases Nat.lt_succ_iff_lt_or_eq.1 hj with hlt | rfl
    · rw [visitPixel_read_other hinv.mem.1 (by omega), hbytes j hlt ha]
    · rw [← haddr] at ha ⊢
      rw [visitPixel_read_same hinv.mem.1 ha, ← hcourse]

theorem visitPixel_scanFaithful (h : s.scanFaithful) : (visitPixel e s).scanFaithful := by
  rw [scanFaithful_iff] at h ⊢
  intro e' he' hr hadm
  obtain rfl : nextScan s e = e' := Option.some.inj he'
  obtain ⟨n, hn⟩ := h e he hr hadm
  exact ⟨n + 1, hn.visitPixel hinv he hy hadm⟩

end VisitPixel

theorem scanMove_scanFaithful {s : State} (hinv : s.Inv) (h : s.scanFaithful) : (scanMove s).scanFaithful := by
  rcases scanMove_cases s with he | ⟨-, e, hscan, hy, he⟩
  · rwa [he]
  · rw [he]; exact visitPixel_scanFaithful hinv hscan hy h

theorem takeTurn_scanFaithful {turn : Turn} {s t : State} (hinv : s.Inv) (h : s.scanFaithful)
    (ht : takeTurn turn s = .next t) : t.scanFaithful := by
  cases turn with
  | host => exact hostMove_scanFaithful hinv h ht
  | engine => exact engineMove_scanFaithful h ht
  | scan => cases ht; exact scanMove_scanFaithful hinv h
  | reset => cases ht; exact scanFaithful_of_no_scan rfl

/-- Settles O48: a step is one agent's move, each of which keeps the scan on its course or ends it. -/
theorem stepKeepsTheScanFaithful : Obligations.StepKeepsTheScanFaithful := by
  intro s t hinv h ht
  obtain ⟨turn, rest, hturn, -⟩ := step_takes_turn s
  have hpop : { s with agenda := rest }.Inv := ⟨hinv.status, hinv.mem, hinv.run, hinv.scan⟩
  exact takeTurn_scanFaithful hpop (scanFaithful_with_host_draws h s.host s.draws rest) (hturn.symm.trans ht)

/-! ## The destination of a completed scan (43_error_diffusion.md R69) -/

/-- On backed bytes the sample rule gives the levels of the reference scan, wherever the run stands on it. -/
theorem StandsAfter.edSample {s : State} {e : Scan} {n y x : Nat} (h : StandsAfter s e n)
    (ha : regionsAdmitted .eddither s = true) (hy : y < s.H) (hx : x < s.W) :
    edSample s e y x 0 = BitVec.ofNat 8 (pixelLevel s (scanAfter s (y * s.W + x) (loadScan s))) := by
  obtain ⟨-, rfl, hbytes⟩ := h
  have hcount := (visited_scanAfter (Nat.zero_lt_of_lt hx) n).1
  rcases Nat.lt_or_ge (y * s.W + x) n with hlt | hge
  · rw [edSample_of_visited 0 (hlt.trans_eq hcount.symm), dstAddr_eddither]
    exact hbytes _ hlt (regionsAdmitted_dst ha (dstRegion_eddither_has (pixelIndex_lt hy hx)))
  · rw [edSample_of_unvisited 0 hy hx (hcount.trans_le hge), hcount, ← scanAfter_add, Nat.add_sub_cancel' hge]

/-- Settles O25: the completion writes the samples of a faithful scan. -/
theorem edditherWritesTheScanLevels : Obligations.EdditherWritesTheScanLevels := by
  intro s hinv hfaith hd hrun
  have ⟨⟨hp, _, ha⟩, hr⟩ := hrun
  obtain ⟨e, he⟩ := Option.isSome_iff_exists.1 (hinv.scan.2 hp hd)
  obtain ⟨n, hn⟩ := scanFaithful_iff.1 hfaith e he hr (Region.admitted_iff.2 fun _ => regionsAdmitted_src ha)
  obtain ⟨t, ht, hframe, hvalue⟩ := exec_completedWith hinv.mem.1 hrun
  refine ⟨t, ht, hframe, fun y x hy hx => ?_⟩
  have hrule : resultSample .eddither s = edSample s e := by simp only [resultSample, he, Option.getD_some]
  rw [hvalue y x 0 ⟨hy, hx, Nat.zero_lt_one⟩, hrule, hn.edSample ha hy hx, toNat_ofNat_pixelLevel]

end Sys2Proof.Machine
end

section
/-!
PROOFS. One visited pixel of `EDDITHER`: the level it selects (43_error_diffusion.md R64) and the error it spreads over
the working buffer (R66, R67).
-/

namespace Sys2Proof.Machine

/-! ## The selected level (43_error_diffusion.md R64) -/

/-- The strict scan of items in index order answers the item of `bestIndex`. -/
theorem firstMin_eq_bestIndex {α : Type} (lt : WbNum → WbNum → Bool) (key : α → WbNum) (item : Nat → α) (n : Nat) :
    firstMin lt key (item 0) ((List.range n).map fun i => item (i + 1)) =
      item (bestIndex lt (fun i => key (item i)) n) := by
  induction n with
  | zero => rfl
  | succ n ih =>
    unfold firstMin at ih ⊢
    rw [List.range_succ, List.map_append, List.foldl_append, ih]
    exact (apply_ite item _ _ _).symm

theorem bestIndex_le (lt : WbNum → WbNum → Bool) (d : Nat → WbNum) (n : Nat) : bestIndex lt d n ≤ n := by
  induction n with
  | zero => exact Nat.le_refl 0
  | succ n ih =>
    rw [bestIndex]
    split <;> omega

/-- The level sequence lists the level registers in index order. -/
theorem levelSeq_eq_map {s : State} (h : s.NL ≤ 16) :
    levelSeq s = (List.range s.NL).map fun n => (s.level.toList.getD n 0).toNat := by
  refine List.ext_getElem? fun j => ?_
  rcases Nat.lt_or_ge j s.NL with hj | hj
  · rw [levelSeq_getElem? h hj, List.getElem?_map, List.getElem?_range hj, Option.map_some]
  · rw [List.getElem?_eq_none (by rwa [levelSeq_length h]), List.getElem?_eq_none (by simpa using hj)]

/-- The level of a pixel is the one of the index that the loop of R64 ends with. -/
theorem pixelLevel_eq_bestIndex {s : State} (e : Scan) (h₁ : 1 ≤ s.NL) (h₁₆ : s.NL ≤ 16) :
    pixelLevel s e = (s.level.toList.getD (bestIndex WbNum.lt
      (fun n => levelDistance s.cfg.edArith (pixelVector s e) (s.level.toList.getD n 0).toNat) (s.NL - 1)) 0).toNat := by
  obtain ⟨m, hm⟩ := Nat.exists_eq_add_of_le' h₁
  rw [pixelLevel, levelSeq_eq_map h₁₆, hm, List.range_succ_eq_map, List.map_cons, List.map_map]
  exact firstMin_eq_bestIndex WbNum.lt (levelDistance s.cfg.edArith (pixelVector s e))
    (fun n => (s.level.toList.getD n 0).toNat) m

theorem pixelVector_length (s : State) (e : Scan) : (pixelVector s e).length = s.C := by simp [pixelVector]

theorem pixelVector_getElem? {s : State} (e : Scan) {c : Nat} (hc : c < s.C) :
    (pixelVector s e)[c]? = some (wbAt s e.wb e.y e.x c) := by
  rw [pixelVector, List.getElem?_map, List.getElem?_range hc, Option.map_some]

/-- Settles O38: the distances unfold channel by channel, and the scan of the level sequence ends with `bestIndex`. -/
theorem scanSelectsTheFirstMinimum : Obligations.ScanSelectsTheFirstMinimum := by
  intro s e h₁ h₁₆
  refine ⟨fun c b₀ hb => ?_, fun c b₀ b₁ b₂ hb => ?_, fun c => pixelVector_getElem? e, pixelVector_length s e, _, ?_, rfl,
    pixelLevel_eq_bestIndex e h₁ h₁₆⟩
  · rw [hb]; rfl
  · rw [hb]; rfl
  · exact (bestIndex_le _ _ _).trans_lt (by omega)

/-! ## The numbers of the working buffer (10_state.md R20) -/

/-- Distinct samples have distinct places. -/
theorem wbIndex_inj {s : State} {y x c y' x' c' : Nat} (hx : x < s.W) (hc : c < s.C) (hx' : x' < s.W) (hc' : c' < s.C)
    (h : wbIndex s y x c = wbIndex s y' x' c') : y = y' ∧ x = x' ∧ c = c' := by
  obtain ⟨hpix, rfl⟩ := digits_eq hc hc' h
  obtain ⟨rfl, rfl⟩ := digits_eq hx hx' hpix
  exact ⟨rfl, rfl, rfl⟩

/-- Every sample has a place in a whole buffer. -/
theorem wbIndex_lt {s : State} {wb : List WbNum} (hlen : wb.length = s.W * s.H * s.C) {y x c : Nat} (hy : y < s.H)
    (hx : x < s.W) (hc : c < s.C) : wbIndex s y x c < wb.length := by
  have h := (rasterAddr_bounds (base := 0) hy hx hc).2
  rw [hlen]
  simpa [rasterAddr, wbIndex] using h

theorem wbAt_set_same {s : State} {wb : List WbNum} (hlen : wb.length = s.W * s.H * s.C) {y x c : Nat} (hy : y < s.H)
    (hx : x < s.W) (hc : c < s.C) (v : WbNum) : wbAt s (wb.set (wbIndex s y x c) v) y x c = v := by
  simp [wbAt, List.getD, wbIndex_lt hlen hy hx hc]

theorem wbAt_set_other {s : State} {wb : List WbNum} {y x c y' x' c' : Nat} (hx : x < s.W) (hc : c < s.C)
    (hx' : x' < s.W) (hc' : c' < s.C) (hne : ¬ (y = y' ∧ x = x' ∧ c = c')) (v : WbNum) :
    wbAt s (wb.set (wbIndex s y' x' c') v) y x c = wbAt s wb y x c := by
  have hplace : wbIndex s y' x' c' ≠ wbIndex s y x c := fun h => hne (wbIndex_inj hx hc hx' hc' h.symm)
  simp [wbAt, List.getD, hplace]

/-! ## The error shares (43_error_diffusion.md R66, R67) -/

/-- A number `v` of channel `c` after it took its share of the error, of weight `w/16`. -/
def addedShare (s : State) (err : List WbNum) (c w : Nat) (v : WbNum) : WbNum :=
  WbNum.add s.cfg.edArith v (WbNum.mul s.cfg.edArith (err.getD c (WbNum.ofNat 0)) (WbNum.sixteenths w))

/-- The shares of the first `n` channels of a target; with every channel this is `addShare`. -/
def addShareUpTo (s : State) (err : List WbNum) (ty tx w n : Nat) (wb : List WbNum) : List WbNum :=
  (List.range n).foldl (fun wb c => wb.set (wbIndex s ty tx c) (addedShare s err c w (wbAt s wb ty tx c))) wb

theorem addShare_eq_upTo (s : State) (err : List WbNum) (ty tx w : Nat) (wb : List WbNum) :
    addShare s err ty tx w wb = addShareUpTo s err ty tx w s.C wb := rfl

theorem addShareUpTo_succ (s : State) (err : List WbNum) (ty tx w n : Nat) (wb : List WbNum) :
    addShareUpTo s err ty tx w (n + 1) wb =
      (addShareUpTo s err ty tx w n wb).set (wbIndex s ty tx n)
        (addedShare s err n w (wbAt s (addShareUpTo s err ty tx w n wb) ty tx n)) := by
  unfold addShareUpTo
  rw [List.range_succ, List.foldl_append]
  rfl

@[simp] theorem addShareUpTo_length (s : State) (err : List WbNum) (ty tx w n : Nat) (wb : List WbNum) :
    (addShareUpTo s err ty tx w n wb).length = wb.length := by
  induction n with
  | zero => rfl
  | succ n ih => rw [addShareUpTo_succ, List.length_set, ih]

section Shares

variable {s : State} (err : List WbNum) {wb : List WbNum} (hlen : wb.length = s.W * s.H * s.C) {y x c : Nat}
  (hy : y < s.H) (hx : x < s.W) (hc : c < s.C)
include hlen hy hx hc

theorem wbAt_addShareUpTo {ty tx : Nat} (htx : tx < s.W) (w : Nat) {n : Nat} (hn : n ≤ s.C) :
    wbAt s (addShareUpTo s err ty tx w n wb) y x c =
      if y = ty ∧ x = tx ∧ c < n then addedShare s err c w (wbAt s wb y x c) else wbAt s wb y x c := by
  induction n with
  | zero => exact (if_neg (by omega)).symm
  | succ n ih =>
    have ih := ih (by omega)
    rw [addShareUpTo_succ]
    by_cases hat : y = ty ∧ x = tx ∧ c = n
    · obtain ⟨rfl, rfl, rfl⟩ := hat
      rw [wbAt_set_same (by rw [addShareUpTo_length, hlen]) hy hx hc, ih, if_neg (by omega), if_pos (by omega)]
    · rw [wbAt_set_other hx hc htx hn hat, ih]
      exact if_congr (by omega) rfl rfl

/-- A target inside the raster takes its share in every channel; no other number changes (43_error_diffusion.md R67). -/
theorem wbAt_addShare {ty tx : Nat} (htx : tx < s.W) (w : Nat) :
    wbAt s (addShare s err ty tx w wb) y x c =
      if y = ty ∧ x = tx then addedShare s err c w (wbAt s wb y x c) else wbAt s wb y x c := by
  rw [addShare_eq_upTo, wbAt_addShareUpTo err hlen hy hx hc htx w (Nat.le_refl s.C)]
  exact if_congr (by simp [hc]) rfl rfl

end Shares

/-- The share of one neighbour `(row, column, weight)`, if it lies inside the raster. -/
def diffuseTo (s : State) (err : List WbNum) (wb : List WbNum) (t : Int × Int × Nat) : List WbNum :=
  if insideRaster s t.1 t.2.1 then addShare s err t.1.toNat t.2.1.toNat t.2.2 wb else wb

theorem diffuse_eq_foldl (s : State) (err : List WbNum) (y x : Nat) (wb : List WbNum) :
    diffuse s err y x wb = (forwardNeighbours y x).foldl (diffuseTo s err) wb := rfl

@[simp] theorem diffuseTo_length (s : State) (err : List WbNum) (wb : List WbNum) (t : Int × Int × Nat) :
    (diffuseTo s err wb t).length = wb.length := by
  unfold diffuseTo
  split
  · exact addShare_length ..
  · rfl

section Diffuse

variable {s : State} (err : List WbNum) {wb : List WbNum} (hlen : wb.length = s.W * s.H * s.C) {y x c : Nat}
  (hy : y < s.H) (hx : x < s.W) (hc : c < s.C)
include hlen hy hx hc

/-- A number inside the raster takes a neighbour's share exactly where it is that neighbour. -/
theorem wbAt_diffuseTo (t : Int × Int × Nat) :
    wbAt s (diffuseTo s err wb t) y x c =
      if (y : Int) = t.1 ∧ (x : Int) = t.2.1 then addedShare s err c t.2.2 (wbAt s wb y x c) else wbAt s wb y x c := by
  obtain ⟨ty, tx, w⟩ := t
  have hinside : insideRaster s ty tx = true ↔ 0 ≤ ty ∧ ty < s.H ∧ 0 ≤ tx ∧ tx < s.W := by
    simp [insideRaster, and_assoc]
  unfold diffuseTo
  dsimp only
  by_cases h : insideRaster s ty tx = true
  · rw [if_pos h]
    rw [hinside] at h
    rw [wbAt_addShare err hlen hy hx hc (by omega)]
    exact if_congr (by omega) rfl rfl
  · rw [if_neg h]
    rw [hinside] at h
    exact (if_neg (by omega)).symm

/-- R67 for one number: the shares of the four neighbours, of which it is one or none. -/
theorem wbAt_diffuse (py px : Nat) :
    wbAt s (diffuse s err py px wb) y x c =
      if y = py ∧ x = px + 1 then addedShare s err c 7 (wbAt s wb y x c)
      else if y = py + 1 ∧ x + 1 = px then addedShare s err c 3 (wbAt s wb y x c)
      else if y = py + 1 ∧ x = px then addedShare s err c 5 (wbAt s wb y x c)
      else if y = py + 1 ∧ x = px + 1 then addedShare s err c 1 (wbAt s wb y x c)
      else wbAt s wb y x c := by
  rw [diffuse_eq_foldl]
  simp only [forwardNeighbours, List.foldl_cons, List.foldl_nil]
  rw [wbAt_diffuseTo err (by simp [hlen]) hy hx hc, wbAt_diffuseTo err (by simp [hlen]) hy hx hc,
    wbAt_diffuseTo err (by simp [hlen]) hy hx hc, wbAt_diffuseTo err hlen hy hx hc]
  have right : ((y : Int) = py ∧ (x : Int) = px + 1) ↔ y = py ∧ x = px + 1 := by omega
  have belowLeft : ((y : Int) = py + 1 ∧ (x : Int) = px - 1) ↔ y = py + 1 ∧ x + 1 = px := by omega
  have below : ((y : Int) = py + 1 ∧ (x : Int) = px) ↔ y = py + 1 ∧ x = px := by omega
  have belowRight : ((y : Int) = py + 1 ∧ (x : Int) = px + 1) ↔ y = py + 1 ∧ x = px + 1 := by omega
  simp only [right, belowLeft, below, belowRight]
  by_cases h₇ : y = py ∧ x = px + 1
  · rw [if_neg (by omega), if_neg (by omega), if_neg (by omega), if_pos h₇, if_pos h₇]
  rw [if_neg h₇, if_neg h₇]
  by_cases h₃ : y = py + 1 ∧ x + 1 = px
  · rw [if_neg (by omega), if_neg (by omega), if_pos h₃, if_pos h₃]
  rw [if_neg h₃, if_neg h₃]
  by_cases h₅ : y = py + 1 ∧ x = px
  · rw [if_neg (by omega), if_pos h₅, if_pos h₅]
  rw [if_neg h₅, if_neg h₅]

end Diffuse

/-- The error of a channel (43_error_diffusion.md R66). -/
theorem errorVector_getD {s : State} (e : Scan) (q : Nat) {c : Nat} (hc : c < s.C) :
    (errorVector s.cfg.edArith (pixelVector s e) q).getD c (WbNum.ofNat 0) =
      WbNum.sub s.cfg.edArith (wbAt s e.wb e.y e.x c) (WbNum.ofNat q) := by
  rw [List.getD, errorVector, List.getElem?_map, pixelVector_getElem? e hc]
  rfl

/-- Settles O39: the buffer after a pixel is the diffusion of its error vector, the weights in lowest terms. -/
theorem scanSpreadsTheErrorForward : Obligations.ScanSpreadsTheErrorForward := by
  intro s e hrange _ _ y x c hy hx hc
  have hshare : ∀ w v, w % 2 = 1 →
      addedShare s (errorVector s.cfg.edArith (pixelVector s e) (pixelLevel s e)) c w v =
        WbNum.add s.cfg.edArith v (WbNum.mul s.cfg.edArith
          (WbNum.sub s.cfg.edArith (wbAt s e.wb e.y e.x c) (WbNum.ofNat (pixelLevel s e))) (.fin false w 4)) :=
    fun w v hw => by rw [addedShare, errorVector_getD e _ hc, WbNum.sixteenths_odd hw]
  dsimp only
  rw [← hshare 7 _ rfl, ← hshare 3 _ rfl, ← hshare 5 _ rfl, ← hshare 1 _ rfl]
  exact wbAt_diffuse _ hrange.1 hy hx hc e.y e.x

end Sys2Proof.Machine
end

section
/-!
PROOFS. The arithmetic of `EDDITHER` (43_error_diffusion.md R61, R68, R71): under `EXACT` the operations are those of
the rationals, and under a binary format each of them is that result, rounded once.
-/

namespace Sys2Proof

open Machine

/-! ## Exact results as rationals -/

/-- A sign and a magnitude taken from an integer give its value back; the sign of a zero is free. -/
theorem WbNum.numValue_natAbs {neg : Bool} {v : Int} (h : v ≠ 0 → neg = decide (v < 0)) (e : Nat) :
    numValue (.fin neg v.natAbs e) = (v : ℚ) / 2 ^ e := by
  have habs : ((v.natAbs : Nat) : ℚ) = |(v : ℚ)| := by rw [Nat.cast_natAbs, Int.cast_abs]
  rcases lt_trichotomy v 0 with hv | rfl | hv
  · rw [h hv.ne, decide_eq_true hv, numValue, if_pos rfl, habs, abs_of_neg (Int.cast_lt_zero.2 hv), neg_neg]
  · cases neg <;> simp [numValue]
  · rw [h hv.ne', decide_eq_false hv.not_gt, numValue, if_neg (by decide), habs, abs_of_pos (Int.cast_pos.2 hv)]

@[simp] theorem WbNum.numValue_neg (x : WbNum) : numValue (WbNum.neg x) = -numValue x := by
  cases x with
  | fin neg m e => cases neg <;> simp [WbNum.neg, numValue, neg_div]
  | inf neg => simp [WbNum.neg, numValue]
  | nan => simp [WbNum.neg, numValue]

theorem WbNum.numValue_abs (x : WbNum) : numValue (WbNum.abs x) = |numValue x| := by
  cases x with
  | fin neg m e => cases neg <;> simp [WbNum.abs, numValue, abs_div]
  | inf neg => simp [WbNum.abs, numValue]
  | nan => simp [WbNum.abs, numValue]

/-- The sign `⊕` gives its result (43_error_diffusion.md R61). -/
def sumSign (s₁ s₂ : Bool) (v : Int) : Bool := if v = 0 then s₁ && s₂ else decide (v < 0)

theorem sumSign_of_ne_zero (s₁ s₂ : Bool) {v : Int} (h : v ≠ 0) : sumSign s₁ s₂ v = decide (v < 0) := if_neg h

/-- `⊕` rounds the exact sum once, in every arithmetic. -/
theorem WbNum.add_fin (a : Config.EdArith) (s₁ s₂ : Bool) (m₁ m₂ e₁ e₂ : Nat) :
    WbNum.add a (.fin s₁ m₁ e₁) (.fin s₂ m₂ e₂) =
      WbNum.rounded a (sumSign s₁ s₂ (exactSum s₁ m₁ e₁ s₂ m₂ e₂)) (exactSum s₁ m₁ e₁ s₂ m₂ e₂).natAbs (max e₁ e₂) := rfl

/-- `⊗` rounds the exact product once, in every arithmetic. -/
theorem WbNum.mul_fin (a : Config.EdArith) (s₁ s₂ : Bool) (m₁ m₂ e₁ e₂ : Nat) :
    WbNum.mul a (.fin s₁ m₁ e₁) (.fin s₂ m₂ e₂) = WbNum.rounded a (s₁ != s₂) (m₁ * m₂) (e₁ + e₂) := rfl

theorem WbNum.rounded_exact (neg : Bool) (m e : Nat) : WbNum.rounded .exact neg m e = WbNum.reduce neg m e := rfl

theorem WbNum.rounded_of_formatOf {a : Config.EdArith} {f : Format} (h : formatOf a = some f) (neg : Bool) (m e : Nat) :
    WbNum.rounded a neg m e = roundFinite f neg m e := by
  unfold WbNum.rounded
  rw [h]

theorem WbNum.numReduced_rounded_exact (neg : Bool) (m e : Nat) : numReduced (WbNum.rounded .exact neg m e) :=
  WbNum.numReduced_reduce neg m e

theorem WbNum.numValue_add_exact (s₁ s₂ : Bool) (m₁ m₂ e₁ e₂ : Nat) :
    numValue (WbNum.add .exact (.fin s₁ m₁ e₁) (.fin s₂ m₂ e₂)) =
      numValue (.fin s₁ m₁ e₁) + numValue (.fin s₂ m₂ e₂) := by
  rw [WbNum.add_fin, WbNum.rounded_exact, WbNum.numValue_reduce,
    WbNum.numValue_natAbs (sumSign_of_ne_zero s₁ s₂), exactSum_eq]

theorem WbNum.numValue_mul_exact (s₁ s₂ : Bool) (m₁ m₂ e₁ e₂ : Nat) :
    numValue (WbNum.mul .exact (.fin s₁ m₁ e₁) (.fin s₂ m₂ e₂)) =
      numValue (.fin s₁ m₁ e₁) * numValue (.fin s₂ m₂ e₂) := by
  rw [WbNum.mul_fin, WbNum.rounded_exact, WbNum.numValue_reduce]
  cases s₁ <;> cases s₂ <;> simp [numValue, div_mul_div_comm, pow_add]

/-- `<` is the order of the rationals. -/
theorem WbNum.lt_iff (s₁ s₂ : Bool) (m₁ m₂ e₁ e₂ : Nat) :
    WbNum.lt (.fin s₁ m₁ e₁) (.fin s₂ m₂ e₂) = true ↔ numValue (.fin s₁ m₁ e₁) < numValue (.fin s₂ m₂ e₂) := by
  have hneg : numValue (.fin (!s₂) m₂ e₂) = -numValue (.fin s₂ m₂ e₂) := WbNum.numValue_neg (.fin s₂ m₂ e₂)
  rw [← sub_neg, sub_eq_add_neg, ← hneg, ← exactSum_eq, div_lt_iff₀ (by positivity), zero_mul, Int.cast_lt_zero]
  exact decide_eq_true_iff

/-- Settles O44: each operation's result is the reduction of the exact one, which has its value. -/
theorem exactArithmeticIsRational : Obligations.ExactArithmeticIsRational := by
  intro s₁ s₂ m₁ m₂ e₁ e₂
  refine ⟨WbNum.numReduced_rounded_exact .., WbNum.numValue_add_exact .., WbNum.numReduced_rounded_exact .., ?_,
    WbNum.numReduced_rounded_exact .., WbNum.numValue_mul_exact .., WbNum.numValue_abs _, WbNum.lt_iff ..⟩
  rw [sub_eq_add_neg, ← WbNum.numValue_neg]
  exact WbNum.numValue_add_exact ..

/-! ## The four shares of an error (43_error_diffusion.md R71) -/

/-- `x` is the number of sign `neg` and value `v`, in lowest terms. -/
def IsExact (neg : Bool) (v : ℚ) (x : WbNum) : Prop :=
  ∃ m e, x = .fin neg m e ∧ numReduced x ∧ numValue x = v

/-- Lowest terms keep the sign. -/
theorem WbNum.reduce_eq_fin (neg : Bool) (m e : Nat) : ∃ m' e', WbNum.reduce neg m e = .fin neg m' e' := by
  induction e generalizing m with
  | zero => exact ⟨m, 0, rfl⟩
  | succ e ih =>
    rw [WbNum.reduce]
    split
    · exact ih _
    · exact ⟨m, e + 1, rfl⟩

theorem IsExact.reduce (neg : Bool) (m e : Nat) : IsExact neg (numValue (.fin neg m e)) (WbNum.reduce neg m e) := by
  obtain ⟨m', e', h⟩ := WbNum.reduce_eq_fin neg m e
  exact ⟨m', e', h, WbNum.numReduced_reduce neg m e, WbNum.numValue_reduce neg m e⟩

/-- Magnitudes of one value have the same lowest terms. -/
theorem WbNum.reduce_eq_of_cross {m m' e e' : Nat} (neg : Bool) (h : m * 2 ^ e' = m' * 2 ^ e) :
    WbNum.reduce neg m e = WbNum.reduce neg m' e' := by
  rw [← WbNum.reduce_mul_two_pow neg m e e', h, Nat.add_comm, WbNum.reduce_mul_two_pow]

/-- Numbers of one sign and one value have magnitudes of one value. -/
theorem magnitude_eq_of_numValue_eq {neg : Bool} {m m' e e' : Nat}
    (h : numValue (.fin neg m e) = numValue (.fin neg m' e')) : (m : ℚ) / 2 ^ e = (m' : ℚ) / 2 ^ e' := by
  cases neg <;> simpa [numValue, neg_div] using h

/-- A sign and a value are one number in lowest terms, the two zeros apart. -/
theorem IsExact.unique {neg : Bool} {v : ℚ} {x y : WbNum} (hx : IsExact neg v x) (hy : IsExact neg v y) : x = y := by
  obtain ⟨m, e, rfl, hred, hval⟩ := hx
  obtain ⟨m', e', rfl, hred', hval'⟩ := hy
  have hdiv := magnitude_eq_of_numValue_eq (hval.trans hval'.symm)
  have hcross : m * 2 ^ e' = m' * 2 ^ e := by
    rw [div_eq_div_iff (by positivity) (by positivity)] at hdiv
    exact_mod_cast hdiv
  rw [← WbNum.reduce_of_numReduced hred, ← WbNum.reduce_of_numReduced hred', WbNum.reduce_eq_of_cross neg hcross]

/-- Numbers of one sign sum to a number of that sign, a zero sum included. -/
theorem sumSign_exactSum_same (neg : Bool) (m₁ m₂ e₁ e₂ : Nat) :
    sumSign neg neg (exactSum neg m₁ e₁ neg m₂ e₂) = neg := by
  unfold exactSum
  generalize m₁ * 2 ^ (max e₁ e₂ - e₁) = a
  generalize m₂ * 2 ^ (max e₁ e₂ - e₂) = b
  cases neg <;> simp [sumSign, signedInt] <;> omega

theorem IsExact.add {neg : Bool} {u v : ℚ} {x y : WbNum} (hx : IsExact neg u x) (hy : IsExact neg v y) :
    IsExact neg (u + v) (WbNum.add .exact x y) := by
  obtain ⟨m₁, e₁, rfl, -, rfl⟩ := hx
  obtain ⟨m₂, e₂, rfl, -, rfl⟩ := hy
  rw [← WbNum.numValue_add_exact, WbNum.add_fin, sumSign_exactSum_same, WbNum.rounded_exact, WbNum.numValue_reduce]
  exact IsExact.reduce ..

/-- The share of weight `w/16` has the sign of the error. -/
theorem IsExact.share {neg : Bool} {u : ℚ} {x : WbNum} (hx : IsExact neg u x) {w : Nat} (hw : w % 2 = 1) :
    IsExact neg (u * (w / 16)) (WbNum.mul .exact x (.sixteenths w)) := by
  obtain ⟨m, e, rfl, -, rfl⟩ := hx
  have hweight : numValue (.fin false w 4) = (w : ℚ) / 16 := by norm_num [numValue]
  rw [WbNum.sixteenths_odd hw, ← hweight, ← WbNum.numValue_mul_exact, WbNum.mul_fin, Bool.bne_false,
    WbNum.rounded_exact, WbNum.numValue_reduce]
  exact IsExact.reduce ..

/-- Settles O43: the sum has the error's sign and value, `7/16 + 3/16 + 5/16 + 1/16` being 1. -/
theorem errorSharesSumToTheError : Obligations.ErrorSharesSumToTheError := by
  intro x hred
  obtain ⟨neg, m, e, rfl⟩ : ∃ neg m e, x = .fin neg m e := by
    cases x with
    | fin neg m e => exact ⟨neg, m, e, rfl⟩
    | inf neg => exact hred.elim
    | nan => exact hred.elim
  have hx : IsExact neg (numValue (.fin neg m e)) (.fin neg m e) := ⟨m, e, rfl, hred, rfl⟩
  have hsum := (((hx.share (w := 7) rfl).add (hx.share (w := 3) rfl)).add (hx.share (w := 5) rfl)).add
    (hx.share (w := 1) rfl)
  refine hsum.unique ?_
  convert hx using 1
  push_cast
  ring

/-! ## Binary formats: one rounding (43_error_diffusion.md R68) -/

/-- Under a binary format a rounding is the format's rounding of the exact number. -/
theorem WbNum.rounded_eq_roundedTo {a : Config.EdArith} {f : Format} (h : formatOf a = some f) (neg : Bool) (m e : Nat) :
    WbNum.rounded a neg m e = roundedTo f (WbNum.rounded .exact neg m e) := by
  rw [WbNum.rounded_of_formatOf h, WbNum.rounded_exact, roundedTo_reduce]

theorem WbNum.add_eq_roundedTo {a : Config.EdArith} {f : Format} (h : formatOf a = some f) (s₁ s₂ : Bool)
    (m₁ m₂ e₁ e₂ : Nat) : WbNum.add a (.fin s₁ m₁ e₁) (.fin s₂ m₂ e₂) =
      roundedTo f (WbNum.add .exact (.fin s₁ m₁ e₁) (.fin s₂ m₂ e₂)) :=
  WbNum.rounded_eq_roundedTo h ..

/-- The sum over the common scale is 0 exactly when the sum is. -/
theorem exactSum_eq_zero {s₁ s₂ : Bool} {m₁ m₂ e₁ e₂ : Nat}
    (h : numValue (.fin s₁ m₁ e₁) + numValue (.fin s₂ m₂ e₂) = 0) : exactSum s₁ m₁ e₁ s₂ m₂ e₂ = 0 := by
  rw [← exactSum_eq, div_eq_zero_iff] at h
  exact Int.cast_eq_zero.1 (h.resolve_right (by positivity))

/-- Settles O60: every operation answers one rounding of its exact result, which `EXACT` leaves as it is. -/
theorem binaryOperationsRoundTheExactResult : Obligations.BinaryOperationsRoundTheExactResult := by
  refine ⟨rfl, rfl, rfl, fun a f s₁ s₂ m₁ m₂ e₁ e₂ h => ⟨WbNum.add_eq_roundedTo h .., WbNum.add_eq_roundedTo h ..,
    WbNum.rounded_eq_roundedTo h .., fun hzero => ?_⟩⟩
  rw [WbNum.add_fin, exactSum_eq_zero hzero, WbNum.rounded_of_formatOf h]
  exact roundFinite_zero f (s₁ && s₂) _

end Sys2Proof
end

section
/-!
PROOFS. The rounding into a binary format (43_error_diffusion.md R61): it keeps the sign, answers a nearest number of the
format, an even multiple on a tie, and overflows from half a last place below the first power of two that is too large.
-/

namespace Sys2Proof

open Machine

/-! ## The quotient rounded to nearest, ties to even -/

/-- The rounded quotient's multiple is within half the divisor; at the half it is even. -/
theorem roundDiv_halfEven_within_half (num : Nat) {den : Nat} (hden : 0 < den) :
    2 * (roundDiv num den .halfEven * den) ≤ 2 * num + den ∧ 2 * num ≤ 2 * (roundDiv num den .halfEven * den) + den ∧
    (2 * (roundDiv num den .halfEven * den) = 2 * num + den ∨ 2 * num = 2 * (roundDiv num den .halfEven * den) + den →
      roundDiv num den .halfEven % 2 = 0) := by
  have hdiv := Nat.div_add_mod' num den
  have hmod := Nat.mod_lt num hden
  have hup : (num / den + 1) * den = num / den * den + den := Nat.succ_mul _ _
  rcases Nat.lt_trichotomy (2 * (num % den)) den with hlt | heq | hgt
  · rw [roundDiv_halfEven_of_lt hlt]; omega
  · have heven := roundDiv_halfEven_even heq
    rcases roundDiv_cases num den .halfEven with h | h
    · rw [h] at heven ⊢; omega
    · rw [h] at heven ⊢; omega
  · rw [roundDiv_halfEven_of_gt hgt, hup]; omega

/-- No multiple of the divisor is nearer than the rounded one; one as near is a neighbour of it, which is then even. -/
theorem roundDiv_halfEven_nearest (num j : Nat) {den : Nat} (hden : 0 < den) :
    |(num : Int) - (roundDiv num den .halfEven * den : Nat)| ≤ |(num : Int) - (j * den : Nat)| ∧
    (j ≠ roundDiv num den .halfEven →
      |(num : Int) - (roundDiv num den .halfEven * den : Nat)| = |(num : Int) - (j * den : Nat)| →
      roundDiv num den .halfEven % 2 = 0 ∧
        |((roundDiv num den .halfEven * den : Nat) : Int) - (j * den : Nat)| = den) := by
  obtain ⟨hup, hdown, heven⟩ := roundDiv_halfEven_within_half num hden
  generalize roundDiv num den .halfEven = r at *
  rcases Nat.lt_trichotomy j r with hlt | rfl | hgt
  · have hj : (j + 1) * den ≤ r * den := Nat.mul_le_mul_right den hlt
    rw [Nat.succ_mul] at hj
    grind
  · exact ⟨le_refl _, fun h => absurd rfl h⟩
  · have hj : (r + 1) * den ≤ j * den := Nat.mul_le_mul_right den hgt
    rw [Nat.succ_mul] at hj
    grind

/-! ## The rounded magnitude -/

/-- The magnitude `roundFinite` rounds to, before the test for overflow. -/
def roundedMag (f : Format) (mag scale : Nat) : Nat :=
  roundDiv mag (2 ^ droppedBits f mag scale) .halfEven * 2 ^ droppedBits f mag scale

theorem roundFinite_eq (f : Format) (neg : Bool) (mag scale : Nat) :
    roundFinite f neg mag scale =
      if 2 ^ (f.maxExp + scale) ≤ roundedMag f mag scale then .inf neg
      else WbNum.reduce neg (roundedMag f mag scale) scale := by
  rw [Nat.pow_add]
  rfl

/-- With no bit below the last place nothing is rounded. -/
theorem roundedMag_of_droppedBits_eq_zero {f : Format} {mag scale : Nat} (h : droppedBits f mag scale = 0) :
    roundedMag f mag scale = mag := by
  have hone := roundDiv_exact mag 1 Nat.zero_lt_one
  rw [roundedMag, h, pow_zero, Nat.mul_one]
  rwa [Nat.mul_one] at hone

/-- Two ways to write one power of two as a quotient. -/
theorem two_pow_div_two_pow {a b c d : Nat} (h : a + d = c + b) : (2 : ℚ) ^ a / 2 ^ b = 2 ^ c / 2 ^ d := by
  rw [div_eq_div_iff (by positivity) (by positivity), ← pow_add, ← pow_add, h]

/-- A multiple of the format's last place, by at most `2^prec`, is a number of the format. -/
theorem formatHolds_multiple {f : Format} (hprec : 0 < f.prec) {r d scale : Nat} (hr : r ≤ 2 ^ f.prec)
    (hd : scale - f.minExp ≤ d) : formatHolds f (((r * 2 ^ d : Nat) : ℚ) / 2 ^ scale) := by
  have hplace : (2 : ℚ) ^ d / 2 ^ scale = 2 ^ (d + f.minExp - scale) / 2 ^ f.minExp := two_pow_div_two_pow (by omega)
  rcases Nat.lt_or_eq_of_le hr with hlt | rfl
  · refine ⟨r, d + f.minExp - scale, hlt, ?_⟩
    push_cast
    rw [mul_div_assoc, hplace, mul_div_assoc]
  · refine ⟨2 ^ (f.prec - 1), d + f.minExp - scale + 1, Nat.pow_lt_pow_right (by decide) (by omega), ?_⟩
    push_cast
    rw [← pow_add, ← pow_add]
    exact two_pow_div_two_pow (by omega)

theorem le_droppedBits (f : Format) (mag scale : Nat) : scale - f.minExp ≤ droppedBits f mag scale := Nat.le_max_right _ _

/-- The rounded magnitude is a number of the format, overflow apart. -/
theorem formatHolds_roundedMag {f : Format} (hprec : 0 < f.prec) (mag scale : Nat) :
    formatHolds f ((roundedMag f mag scale : ℚ) / 2 ^ scale) := by
  refine formatHolds_multiple hprec (roundDiv_le (by positivity) ?_ _) (le_droppedBits f mag scale)
  have hbits : Nat.log2 mag + 1 - f.prec ≤ droppedBits f mag scale := Nat.le_max_left _ _
  rw [← Nat.pow_add]
  exact Nat.lt_log2_self.le.trans (Nat.pow_le_pow_right (by decide) (by omega))

/-- A number of the format is a multiple of the last place of a magnitude with bits to drop, or lies below the binade of
that magnitude. -/
theorem formatHolds_multiple_or_below {f : Format} (hprec : 0 < f.prec) {v : ℚ} (hv : formatHolds f v) {mag scale : Nat}
    (hd : 0 < droppedBits f mag scale) :
    (∃ j : Nat, v = ((j * 2 ^ droppedBits f mag scale : Nat) : ℚ) / 2 ^ scale) ∨
    (v < ((2 ^ (f.prec - 1) * 2 ^ droppedBits f mag scale : Nat) : ℚ) / 2 ^ scale ∧
      2 ^ (f.prec - 1) * 2 ^ droppedBits f mag scale ≤ mag) := by
  obtain ⟨n, k, hn, rfl⟩ := hv
  have hdrop : droppedBits f mag scale = max (Nat.log2 mag + 1 - f.prec) (scale - f.minExp) := rfl
  generalize droppedBits f mag scale = d at *
  rcases Nat.lt_or_ge (k + scale) (d + f.minExp) with hlt | hge
  · right
    constructor
    · have hn' : (n : ℚ) < 2 ^ f.prec := by exact_mod_cast hn
      push_cast
      calc (n : ℚ) * 2 ^ k / 2 ^ f.minExp < 2 ^ f.prec * 2 ^ k / 2 ^ f.minExp := by gcongr
        _ = 2 ^ (f.prec + k + scale) / 2 ^ (f.minExp + scale) := by
          rw [← pow_add]
          exact two_pow_div_two_pow (by omega)
        _ ≤ 2 ^ (f.prec - 1 + d + f.minExp) / 2 ^ (f.minExp + scale) :=
          div_le_div_of_nonneg_right (pow_le_pow_right₀ one_le_two (by omega)) (by positivity)
        _ = 2 ^ (f.prec - 1) * 2 ^ d / 2 ^ scale := by
          rw [← pow_add]
          exact two_pow_div_two_pow (by omega)
    · have hlog : f.prec - 1 + d = Nat.log2 mag := by omega
      have hmag : mag ≠ 0 := by
        rintro rfl
        rw [Nat.log2_zero] at hlog
        omega
      rw [← Nat.pow_add, hlog]
      exact Nat.log2_self_le hmag
  · left
    refine ⟨n * 2 ^ (k + scale - (d + f.minExp)), ?_⟩
    push_cast
    rw [mul_assoc, ← pow_add, mul_div_assoc, mul_div_assoc]
    exact congrArg _ (two_pow_div_two_pow (by omega))

/-! ## Nearest, ties to even -/

/-- The distance of two magnitudes over one scale. -/
theorem abs_div_two_pow_sub (m n scale : Nat) :
    |(m : ℚ) / 2 ^ scale - (n : ℚ) / 2 ^ scale| = ((|(m : Int) - (n : Int)| : Int) : ℚ) / 2 ^ scale := by
  rw [← sub_div, abs_div, abs_of_pos (by positivity : (0 : ℚ) < 2 ^ scale)]
  push_cast
  rfl

/-- What O45 asks of a result `r` for the exact value `v` against a number `w` of the format: `w` is not nearer, and where
it is as near `r` is an even multiple of their distance. -/
def NearestAgainst (v r w : ℚ) : Prop :=
  |v - r| ≤ |v - w| ∧ (w ≠ r → |v - r| = |v - w| → ∃ n : Nat, r = 2 * n * |r - w|)

/-- A number of the format that is strictly farther meets no tie. -/
theorem NearestAgainst.of_lt {v r w : ℚ} (h : |v - r| < |v - w|) : NearestAgainst v r w :=
  ⟨h.le, fun _ heq => absurd heq h.ne⟩

/-- The exact value is nearest to itself. -/
theorem NearestAgainst.self (v w : ℚ) : NearestAgainst v v w := by
  refine ⟨by simp, fun hne heq => absurd ?_ hne⟩
  rw [sub_self, abs_zero, eq_comm, abs_eq_zero, sub_eq_zero] at heq
  exact heq.symm

theorem nearestAgainst_multiple (mag j d scale : Nat) :
    NearestAgainst ((mag : ℚ) / 2 ^ scale) (((roundDiv mag (2 ^ d) .halfEven * 2 ^ d : Nat) : ℚ) / 2 ^ scale)
      (((j * 2 ^ d : Nat) : ℚ) / 2 ^ scale) := by
  obtain ⟨hle, htie⟩ := roundDiv_halfEven_nearest mag j (show 0 < 2 ^ d by positivity)
  unfold NearestAgainst
  rw [abs_div_two_pow_sub, abs_div_two_pow_sub, abs_div_two_pow_sub]
  refine ⟨by gcongr, fun hne heq => ?_⟩
  obtain ⟨heven, hdist⟩ := htie (fun h => hne (by rw [h]))
    (by exact_mod_cast (div_left_inj' (by positivity)).1 heq)
  rw [hdist]
  refine ⟨roundDiv mag (2 ^ d) .halfEven / 2, ?_⟩
  have hhalf : ((roundDiv mag (2 ^ d) .halfEven : Nat) : ℚ) = 2 * ((roundDiv mag (2 ^ d) .halfEven / 2 : Nat) : ℚ) := by
    exact_mod_cast (Nat.two_mul_div_two_of_even (Nat.even_iff.2 heven)).symm
  push_cast
  rw [hhalf]
  ring

/-- None of the format's numbers is nearer than the rounded magnitude. -/
theorem nearestAgainst_roundedMag {f : Format} (hprec : 0 < f.prec) {w : ℚ} (hw : formatHolds f w) (mag scale : Nat) :
    NearestAgainst ((mag : ℚ) / 2 ^ scale) ((roundedMag f mag scale : ℚ) / 2 ^ scale) w := by
  rcases Nat.eq_zero_or_pos (droppedBits f mag scale) with hd | hd
  · rw [roundedMag_of_droppedBits_eq_zero hd]
    exact NearestAgainst.self _ _
  · rcases formatHolds_multiple_or_below hprec hw hd with ⟨j, rfl⟩ | ⟨hbelow, hmag⟩
    · exact nearestAgainst_multiple mag j _ scale
    · refine NearestAgainst.of_lt (lt_of_le_of_lt (nearestAgainst_multiple mag (2 ^ (f.prec - 1)) _ scale).1 ?_)
      have hbinade : ((2 ^ (f.prec - 1) * 2 ^ droppedBits f mag scale : Nat) : ℚ) / 2 ^ scale ≤ (mag : ℚ) / 2 ^ scale := by
        gcongr
      rw [abs_of_nonneg (sub_nonneg.2 hbinade), abs_of_pos (by linarith)]
      linarith

/-- A number of the format is its own rounding. -/
theorem roundedMag_of_formatHolds {f : Format} (hprec : 0 < f.prec) {mag scale : Nat}
    (h : formatHolds f ((mag : ℚ) / 2 ^ scale)) : roundedMag f mag scale = mag := by
  have hle := (nearestAgainst_roundedMag hprec h mag scale).1
  rw [sub_self, abs_zero, abs_nonpos_iff, sub_eq_zero, div_left_inj' (by positivity)] at hle
  exact_mod_cast hle.symm

/-! ## Overflow -/

/-- A magnitude that reaches a power of two, not below the last place of the format, still does when rounded. -/
theorem two_pow_le_roundedMag {f : Format} (hprec : 0 < f.prec) {mag scale k : Nat} (h : 2 ^ k ≤ mag) (hk : scale ≤ k) :
    2 ^ k ≤ roundedMag f mag scale := by
  have hmag : mag ≠ 0 := (lt_of_lt_of_le (by positivity) h).ne'
  have hlog : k ≤ Nat.log2 mag := (Nat.le_log2 hmag).2 h
  have hd : droppedBits f mag scale ≤ Nat.log2 mag := by unfold droppedBits; omega
  have htop : 2 ^ Nat.log2 mag = 2 ^ droppedBits f mag scale * 2 ^ (Nat.log2 mag - droppedBits f mag scale) := by
    rw [← Nat.pow_add, Nat.add_sub_cancel' hd]
  have hr := le_roundDiv (by positivity) (htop ▸ Nat.log2_self_le hmag) .halfEven
  calc 2 ^ k ≤ 2 ^ Nat.log2 mag := Nat.pow_le_pow_right (by decide) hlog
    _ ≤ roundedMag f mag scale := by rw [htop, Nat.mul_comm]; exact Nat.mul_le_mul_right _ hr

/-- A magnitude of at most a power of two, no more than half a step below the last place, still is when rounded. -/
theorem roundedMag_le_two_pow {f : Format} {mag scale k : Nat} (h : mag ≤ 2 ^ k) (hk : droppedBits f mag scale ≤ k) :
    roundedMag f mag scale ≤ 2 ^ k := by
  have hsplit : 2 ^ k = 2 ^ droppedBits f mag scale * 2 ^ (k - droppedBits f mag scale) := by
    rw [← Nat.pow_add, Nat.add_sub_cancel' hk]
  rw [hsplit, Nat.mul_comm]
  exact Nat.mul_le_mul_right _ (roundDiv_le (by positivity) (hsplit ▸ h) _)

/-- In the last binade before `2^maxExp` the last place is `2^-prec` of it. -/
theorem droppedBits_last_binade {f : Format} (hmax : f.prec < f.maxExp) {mag scale : Nat}
    (hlow : 2 ^ (f.maxExp + scale - 1) ≤ mag) (hhigh : mag < 2 ^ (f.maxExp + scale)) :
    droppedBits f mag scale = f.maxExp - f.prec + scale := by
  have hmag : mag ≠ 0 := (lt_of_lt_of_le (by positivity) hlow).ne'
  have h₁ := (Nat.le_log2 hmag).2 hlow
  have h₂ := (Nat.log2_lt hmag).2 hhigh
  unfold droppedBits
  omega

/-- Below the last binade the last place is no higher than that binade. -/
theorem droppedBits_le_of_lt {f : Format} (hprec : 0 < f.prec) (hmax : f.prec < f.maxExp) {mag scale : Nat}
    (h : mag < 2 ^ (f.maxExp + scale - 1)) : droppedBits f mag scale ≤ f.maxExp + scale - 1 := by
  have hlog : Nat.log2 mag ≤ f.maxExp + scale - 1 := by
    rcases Nat.eq_zero_or_pos mag with rfl | hmag
    · rw [Nat.log2_zero]; exact Nat.zero_le _
    · exact ((Nat.log2_lt hmag.ne').2 h).le
  unfold droppedBits
  omega

/-- Of the multiples of a step up to `2^p` of it, the last is reached exactly from half a step below on: the multiple
before it is odd, and a tie is not rounded to it. -/
theorem two_pow_le_roundDiv_iff {p : Nat} (hp : 0 < p) (mag : Nat) {den : Nat} (hden : 0 < den) :
    2 ^ p * den ≤ roundDiv mag den .halfEven * den ↔ 2 * (2 ^ p * den) ≤ 2 * mag + den := by
  obtain ⟨hup, hdown, heven⟩ := roundDiv_halfEven_within_half mag hden
  refine ⟨fun h => by omega, fun h => Nat.mul_le_mul_right den ?_⟩
  by_contra hlt
  have hpow : 2 ^ p % 2 = 0 := Nat.even_iff.1 (Nat.even_pow.2 ⟨even_two, hp.ne'⟩)
  have hnext : (roundDiv mag den .halfEven + 1) * den = roundDiv mag den .halfEven * den + den := Nat.succ_mul _ _
  have hlast : roundDiv mag den .halfEven + 1 = 2 ^ p :=
    Nat.le_antisymm (by omega) (Nat.le_of_mul_le_mul_right (by omega) hden)
  rw [← hlast] at h
  have heven := heven (.inr (by omega))
  omega

/-- The rounded magnitude reaches the first power of two that is too large exactly from half a last place below it. -/
theorem overflow_iff {f : Format} (hprec : 0 < f.prec) (hmax : f.prec < f.maxExp) (mag scale : Nat) :
    2 ^ (f.maxExp + scale) ≤ roundedMag f mag scale ↔
      2 * 2 ^ (f.maxExp + scale) ≤ 2 * mag + 2 ^ (f.maxExp - f.prec + scale) := by
  rcases Nat.lt_or_ge mag (2 ^ (f.maxExp + scale)) with hhigh | hge
  · rcases Nat.lt_or_ge mag (2 ^ (f.maxExp + scale - 1)) with hlt | hlow
    · have hsmall := roundedMag_le_two_pow hlt.le (droppedBits_le_of_lt hprec hmax hlt)
      have hhalf : 2 * 2 ^ (f.maxExp + scale - 1) = 2 ^ (f.maxExp + scale) := by
        rw [← Nat.pow_succ']
        congr 1
        omega
      have hstep : 2 ^ (f.maxExp - f.prec + scale) ≤ 2 ^ (f.maxExp + scale - 1) :=
        Nat.pow_le_pow_right (by decide) (by omega)
      exact iff_of_false (by omega) (by omega)
    · have htop : 2 ^ (f.maxExp + scale) = 2 ^ f.prec * 2 ^ (f.maxExp - f.prec + scale) := by
        rw [← Nat.pow_add]
        congr 1
        omega
      rw [roundedMag, droppedBits_last_binade hmax hlow hhigh, htop]
      exact two_pow_le_roundDiv_iff hprec mag (by positivity)
  · exact iff_of_true (two_pow_le_roundedMag hprec hge (by omega))
      (Nat.le_add_right_of_le (Nat.mul_le_mul_left 2 hge))

/-- The bound of overflow as a number. -/
theorem overflow_bound_iff {p M : Nat} (h : p < M) (mag scale : Nat) :
    2 * 2 ^ (M + scale) ≤ 2 * mag + 2 ^ (M - p + scale) ↔
      (2 : ℚ) ^ M - 2 ^ (M - p - 1) ≤ (mag : ℚ) / 2 ^ scale := by
  have hhalf : (2 : ℚ) ^ (M - p) = 2 * 2 ^ (M - p - 1) := by
    rw [← pow_succ']
    congr 1
    omega
  rw [← Nat.cast_le (α := ℚ), le_div_iff₀ (by positivity)]
  push_cast
  rw [pow_add, pow_add, hhalf]
  constructor <;> intro hbound <;> linarith

/-- The formats of the two binary arithmetics. -/
theorem formatOf_bounds {a : Config.EdArith} {f : Format} (h : formatOf a = some f) : 0 < f.prec ∧ f.prec < f.maxExp := by
  cases a with
  | binary64 => cases h; decide
  | binary32 => cases h; decide
  | exact => cases h

/-! ## The result of a rounding -/

section Result

variable {f : Format} (neg : Bool) {mag scale : Nat}

theorem roundFinite_of_overflow (h : 2 ^ (f.maxExp + scale) ≤ roundedMag f mag scale) :
    roundFinite f neg mag scale = .inf neg := (roundFinite_eq ..).trans (if_pos h)

theorem roundFinite_of_no_overflow (h : ¬ 2 ^ (f.maxExp + scale) ≤ roundedMag f mag scale) :
    roundFinite f neg mag scale = WbNum.reduce neg (roundedMag f mag scale) scale := (roundFinite_eq ..).trans (if_neg h)

/-- The result is infinite exactly when the rounded magnitude overflows. -/
theorem roundFinite_eq_inf_iff :
    roundFinite f neg mag scale = .inf neg ↔ 2 ^ (f.maxExp + scale) ≤ roundedMag f mag scale := by
  refine ⟨fun h => ?_, roundFinite_of_overflow neg⟩
  by_contra hno
  obtain ⟨m, e, hfin⟩ := WbNum.reduce_eq_fin neg (roundedMag f mag scale) scale
  rw [roundFinite_of_no_overflow neg hno, hfin] at h
  cases h

/-- A finite result has the sign and the rounded magnitude. -/
theorem roundFinite_eq_fin {sgn : Bool} {m e : Nat} (h : roundFinite f neg mag scale = .fin sgn m e) :
    sgn = neg ∧ (m : ℚ) / 2 ^ e = (roundedMag f mag scale : ℚ) / 2 ^ scale := by
  by_cases hover : 2 ^ (f.maxExp + scale) ≤ roundedMag f mag scale
  · rw [roundFinite_of_overflow neg hover] at h
    cases h
  · rw [roundFinite_of_no_overflow neg hover] at h
    obtain ⟨m', e', hfin⟩ := WbNum.reduce_eq_fin neg (roundedMag f mag scale) scale
    obtain ⟨rfl, rfl, rfl⟩ := WbNum.fin.inj (hfin.symm.trans h)
    have hval := WbNum.numValue_reduce neg (roundedMag f mag scale) scale
    rw [hfin] at hval
    exact ⟨rfl, magnitude_eq_of_numValue_eq hval⟩

/-- The result is finite or infinite, of the sign given. -/
theorem roundFinite_cases (f : Format) (mag scale : Nat) :
    (∃ m e, roundFinite f neg mag scale = .fin neg m e) ∨ roundFinite f neg mag scale = .inf neg := by
  by_cases hover : 2 ^ (f.maxExp + scale) ≤ roundedMag f mag scale
  · exact .inr (roundFinite_of_overflow neg hover)
  · rw [roundFinite_of_no_overflow neg hover]
    exact .inl (WbNum.reduce_eq_fin neg _ scale)

/-- A number of the format below `2^maxExp` is its own result. -/
theorem numValue_roundFinite_of_formatHolds (hprec : 0 < f.prec) (h : formatHolds f ((mag : ℚ) / 2 ^ scale))
    (hlt : (mag : ℚ) / 2 ^ scale < 2 ^ f.maxExp) :
    numValue (roundFinite f neg mag scale) = numValue (.fin neg mag scale) := by
  have hround := roundedMag_of_formatHolds hprec h
  rw [div_lt_iff₀ (by positivity), ← pow_add] at hlt
  have hno : ¬ 2 ^ (f.maxExp + scale) ≤ roundedMag f mag scale := by
    rw [hround, Nat.not_le]
    exact_mod_cast hlt
  rw [roundFinite_of_no_overflow neg hno, hround, WbNum.numValue_reduce]

end Result

/-- Settles O45: the result is the rounded magnitude with the sign, or infinite from the bound of overflow on. -/
theorem binaryRoundingIsToTheNearest : Obligations.BinaryRoundingIsToTheNearest := by
  intro a f neg mag scale hf
  obtain ⟨hprec, hmax⟩ := formatOf_bounds hf
  refine ⟨fun sgn m e h => ?_, roundFinite_cases neg f mag scale, ?_, numValue_roundFinite_of_formatHolds neg hprec⟩
  · obtain ⟨rfl, hval⟩ := roundFinite_eq_fin neg h
    rw [hval]
    exact ⟨rfl, formatHolds_roundedMag hprec mag scale, fun v hv => nearestAgainst_roundedMag hprec hv mag scale⟩
  · rw [roundFinite_eq_inf_iff, overflow_iff hprec hmax, overflow_bound_iff hmax]

end Sys2Proof
end

section
/-!
PROOFS. `KUWAHARA` (44_kuwahara.md R72 to R78): the kernel sizes START rejects, the mean of the first least-variance
region that it writes, and the flat and split rasters that it keeps.
-/

namespace Sys2Proof.Machine

/-! ## START (44_kuwahara.md R77) -/

/-- With no InvalidInput condition, what is left to validate is the kernel, the levels and the destination. -/
theorem Validated.of_not_badInput {i : Instr} {s : State} (hin : ¬ badInput s) (hkernel : kernelLegal i = true)
    (hlevels : usesLevels i = true → 1 ≤ s.NL ∧ s.NL ≤ 16)
    (hend : s.dstBase.toNat + s.W * s.H * destChannels i s ≤ 2 ^ 32)
    (hapart : ∀ a, (srcRegion s).has a = true → (dstRegion i s).has a = false) : Validated i s := by
  simp only [badInput, not_or] at hin
  obtain ⟨hW, hH, hC, hsrc⟩ := hin
  exact ⟨Nat.pos_of_ne_zero hW, Nat.pos_of_ne_zero hH, by omega, Nat.le_of_not_lt hsrc, hkernel, hlevels, hend, hapart⟩

/-- A START of a `Validated` command is accepted. -/
theorem exec_accept {i : Instr} {s : State} (hp : s.phase = .idle) (h : Validated i s) :
    exec i s = .next (accept i s) :=
  (exec_idle i hp).trans (congrArg _ (onStart_accept (validate_eq_zero_iff.2 h)))

/-- A validated `KUWAHARA` has a kernel size of at least 2. -/
theorem Validated.two_le_kuwahara {k : Nat} {s : State} (h : Validated (.kuwahara k) s) : 2 ≤ k :=
  of_decide_eq_true h.kernel

/-- Settles O19: a validated kernel size is at least 2, and a command with nothing wrong is accepted. -/
theorem kuwaharaRejectsOnlyKernelsBelowTwo : Obligations.KuwaharaRejectsOnlyKernelsBelowTwo := by
  refine ⟨fun s k hp hk => ?_, fun s k hp hk _ hin hend hapart => ?_⟩
  · exact exec_rejectedWith hp fun hv => Nat.not_le.2 hk hv.two_le_kuwahara
  · have hv : Validated (.kuwahara k) s :=
      .of_not_badInput hin (decide_eq_true hk) (fun h => absurd h Bool.false_ne_true) hend hapart
    exact ⟨accept (.kuwahara k) s, exec_accept hp hv, rfl, rfl⟩

/-! ## The chosen region (44_kuwahara.md R74) -/

/-- `r` is the first corner, in evaluation order, with the least key. -/
def IsFirstLeastCorner (s : State) (k y x : Nat) (r : Fin 4) : Prop :=
  ∀ q : Fin 4, cornerKey s k y x r ≤ cornerKey s k y x q ∧ (q < r → cornerKey s k y x r < cornerKey s k y x q)

/-- The model's scan lists the quadrants in evaluation order. -/
theorem quadrants_getElem? (r : Fin 4) :
    [Quadrant.topLeft, .topRight, .bottomLeft, .bottomRight][r.val]? = some (quadrantOf r) := by
  fin_cases r <;> rfl

theorem bestQuadrant_spec (s : State) (k y x : Nat) :
    ∃ r : Fin 4, bestQuadrant s k y x = quadrantOf r ∧ IsFirstLeastCorner s k y x r := by
  obtain ⟨j, hj, hmin⟩ :=
    firstMin_spec (varianceKey s k y x) .topLeft [.topRight, .bottomLeft, .bottomRight]
  obtain ⟨hlt, -⟩ := List.getElem?_eq_some_iff.1 hj
  have hbest : bestQuadrant s k y x = quadrantOf ⟨j, hlt⟩ :=
    Option.some.inj (hj.symm.trans (quadrants_getElem? ⟨j, hlt⟩))
  refine ⟨⟨j, hlt⟩, hbest, fun q => ?_⟩
  have hq : varianceKey s k y x (bestQuadrant s k y x) ≤ varianceKey s k y x (quadrantOf q) ∧
      (q.val < j → varianceKey s k y x (bestQuadrant s k y x) < varianceKey s k y x (quadrantOf q)) :=
    hmin q.val (quadrantOf q) (quadrants_getElem? q)
  rwa [hbest, varianceKey_eq_cornerKey, varianceKey_eq_cornerKey] at hq

/-! ## The sample of `KUWAHARA` (44_kuwahara.md R75) -/

/-- `S1[r][c]` of a corner region (44_kuwahara.md R73). -/
def cornerSum (s : State) (k y x : Nat) (r : Fin 4) (c : Nat) : Nat :=
  windowSum s .replicate k (corner k y x r).1 (corner k y x r).2 c id

/-- A mean of bytes is a byte, so that the sample holds it whole. -/
theorem kuwaharaSample_toNat {s : State} {k y x : Nat} {r : Fin 4} (hk : 0 < k)
    (hr : bestQuadrant s k y x = quadrantOf r) (c : Nat) :
    (kuwaharaSample s k y x c).toNat = roundDiv (cornerSum s k y x r c) (k * k) s.cfg.kuwRound := by
  have hle := roundDiv_le (Nat.mul_pos hk hk) (windowSum_le s .replicate k (corner k y x r).1 (corner k y x r).2 c)
    s.cfg.kuwRound
  rw [kuwaharaSample, hr, sum1_eq_windowSum]
  exact Nat.mod_eq_of_lt (Nat.lt_succ_of_le hle)

/-- Settles O26: the completion writes `kuwaharaSample`, the rounded mean of the first least corner region. -/
theorem kuwaharaWritesTheLeastVarianceMean : Obligations.KuwaharaWritesTheLeastVarianceMean := by
  intro s k hm h
  obtain ⟨t, ht, hframe, hvalue⟩ := exec_completedWith hm h
  refine ⟨t, ht, hframe, fun y x hy hx => ?_⟩
  obtain ⟨r, hbest, hleast⟩ := bestQuadrant_spec s k y x
  refine ⟨r, hleast, fun c hc => ?_⟩
  rw [hvalue y x c ⟨hy, hx, hc⟩]
  exact kuwaharaSample_toNat (Nat.zero_lt_of_lt h.validated.two_le_kuwahara) hbest c

/-! ## The variance key (44_kuwahara.md R73) -/

/-- `n` times the key of `n` numbers is the sum of the squared distances of `n` times each number from their sum. -/
theorem sum_sq_card_mul_sub_sum {ι : Type} (w : Finset ι) (f : ι → Int) :
    ∑ p ∈ w, (w.card * f p - ∑ q ∈ w, f q) ^ 2 = w.card * (w.card * ∑ p ∈ w, f p ^ 2 - (∑ p ∈ w, f p) ^ 2) := by
  simp only [sub_sq, mul_pow, Finset.sum_add_distrib, Finset.sum_sub_distrib, ← Finset.mul_sum, ← Finset.sum_mul,
    Finset.sum_const, nsmul_eq_mul]
  ring

/-- The summand of `V[r]` for one channel (44_kuwahara.md R73). -/
def channelKey (s : State) (k y x : Nat) (r : Fin 4) (c : Nat) : Int :=
  ((k * k : Nat) : Int) * (windowSum s .replicate k (corner k y x r).1 (corner k y x r).2 c (fun v => v * v) : Nat)
    - (cornerSum s k y x r c : Nat) ^ 2

theorem cornerKey_eq_sum (s : State) (k y x : Nat) (r : Fin 4) :
    cornerKey s k y x r = ∑ c ∈ Finset.range s.C, channelKey s k y x r c := rfl

/-- The sample at row `p.1` and column `p.2` of a corner region (44_kuwahara.md R72). -/
def cornerSample (s : State) (k y x : Nat) (r : Fin 4) (c : Nat) (p : Nat × Nat) : Nat :=
  s.src (border .replicate ((corner k y x r).1 + p.1) s.H) (border .replicate ((corner k y x r).2 + p.2) s.W) c

/-- The positions of a region. -/
def kernelCells (k : Nat) : Finset (Nat × Nat) := Finset.range k ×ˢ Finset.range k

theorem kernelCells_card (k : Nat) : (kernelCells k).card = k * k := by simp [kernelCells]

theorem windowSum_corner (s : State) (k y x : Nat) (r : Fin 4) (c : Nat) (f : Nat → Nat) :
    windowSum s .replicate k (corner k y x r).1 (corner k y x r).2 c f =
      ∑ p ∈ kernelCells k, f (cornerSample s k y x r c p) :=
  (Finset.sum_product _ _ fun p => f (cornerSample s k y x r c p)).symm

theorem cornerSum_eq_sum (s : State) (k y x : Nat) (r : Fin 4) (c : Nat) :
    cornerSum s k y x r c = ∑ p ∈ kernelCells k, cornerSample s k y x r c p := windowSum_corner s k y x r c id

/-- `k²` times a channel's key is a sum of squares. -/
theorem area_mul_channelKey (s : State) (k y x : Nat) (r : Fin 4) (c : Nat) :
    ((k * k : Nat) : Int) * channelKey s k y x r c =
      ∑ p ∈ kernelCells k, (((k * k : Nat) : Int) * cornerSample s k y x r c p - cornerSum s k y x r c) ^ 2 := by
  have h := sum_sq_card_mul_sub_sum (kernelCells k) fun p => (cornerSample s k y x r c p : Int)
  rw [kernelCells_card] at h
  rw [channelKey, windowSum_corner, cornerSum_eq_sum]
  push_cast at h ⊢
  simpa only [sq] using h.symm

theorem channelKey_nonneg {s : State} {k y x : Nat} {r : Fin 4} {c : Nat} (hk : 0 < k) :
    0 ≤ channelKey s k y x r c := by
  have harea : (0 : Int) < (k * k : Nat) := Int.natCast_pos.2 (Nat.mul_pos hk hk)
  refine nonneg_of_mul_nonneg_right ?_ harea
  rw [area_mul_channelKey]
  exact Finset.sum_nonneg fun p _ => sq_nonneg _

/-- A channel of key 0 is constant on its region: its sum is `k²` times each of its samples. -/
theorem cornerSum_of_channelKey_eq_zero {s : State} {k y x : Nat} {r : Fin 4} {c : Nat}
    (h : channelKey s k y x r c = 0) {p : Nat × Nat} (hp : p ∈ kernelCells k) :
    cornerSum s k y x r c = k * k * cornerSample s k y x r c p := by
  have hsum := area_mul_channelKey s k y x r c
  rw [h, mul_zero, eq_comm, Finset.sum_eq_zero_iff_of_nonneg fun p _ => sq_nonneg _] at hsum
  have hdiff := pow_eq_zero_iff two_ne_zero |>.1 (hsum p hp)
  exact_mod_cast (sub_eq_zero.1 hdiff).symm

/-- A region of `k²` equal samples sums to `k²` times their one value. -/
theorem windowSum_corner_of_const {s : State} {k y x : Nat} {r : Fin 4} {c v : Nat}
    (h : ∀ p ∈ kernelCells k, cornerSample s k y x r c p = v) (f : Nat → Nat) :
    windowSum s .replicate k (corner k y x r).1 (corner k y x r).2 c f = k * k * f v := by
  rw [windowSum_corner, Finset.sum_congr rfl fun p hp => congrArg f (h p hp), Finset.sum_const, kernelCells_card,
    smul_eq_mul]

/-- A channel that is constant on a region has key 0 there. -/
theorem channelKey_eq_zero_of_const {s : State} {k y x : Nat} {r : Fin 4} {c v : Nat}
    (h : ∀ p ∈ kernelCells k, cornerSample s k y x r c p = v) : channelKey s k y x r c = 0 := by
  rw [channelKey, cornerSum, windowSum_corner_of_const h, windowSum_corner_of_const h, id]
  push_cast
  ring

/-- A region of key 0 has key 0 in each channel. -/
theorem channelKey_eq_zero_of_cornerKey_le {s : State} {k y x : Nat} {r : Fin 4} (hk : 0 < k)
    (h : cornerKey s k y x r ≤ 0) {c : Nat} (hc : c < s.C) : channelKey s k y x r c = 0 := by
  have hnonneg : ∀ c ∈ Finset.range s.C, 0 ≤ channelKey s k y x r c := fun c _ => channelKey_nonneg hk
  have hzero : cornerKey s k y x r = 0 := le_antisymm h (Finset.sum_nonneg hnonneg)
  exact (Finset.sum_eq_zero_iff_of_nonneg hnonneg).1 hzero c (Finset.mem_range.2 hc)

/-! ## Flat and split rasters (44_kuwahara.md R78) -/

/-- Each corner region overlaps its pixel (44_kuwahara.md R72). -/
theorem cornerSample_own {s : State} {k y x : Nat} (hk : 0 < k) (hy : y < s.H) (hx : x < s.W) (r : Fin 4) :
    ∃ p ∈ kernelCells k, ∀ c, cornerSample s k y x r c p = s.src y x c := by
  obtain ⟨i, j, hi, hj, hrow, hcol⟩ : ∃ i j : Nat, i < k ∧ j < k ∧
      (corner k y x r).1 + i = y ∧ (corner k y x r).2 + j = x := by
    fin_cases r
    · exact ⟨k - 1, k - 1, by simp only [corner]; omega⟩
    · exact ⟨k - 1, 0, by simp only [corner]; omega⟩
    · exact ⟨0, k - 1, by simp only [corner]; omega⟩
    · exact ⟨0, 0, by simp only [corner]; omega⟩
  refine ⟨(i, j), by simp [kernelCells, hi, hj], fun c => ?_⟩
  rw [cornerSample, hrow, hcol, border_of_lt _ hy, border_of_lt _ hx]

/-- The columns of a top-left region are at most the pixel's, those of a top-right region at least it. -/
theorem border_corner_col {s : State} {k x : Nat} (hx : x < s.W) (y j : Nat) (hj : j < k) :
    border .replicate ((corner k y x 0).2 + j) s.W ≤ x ∧ x ≤ border .replicate ((corner k y x 1).2 + j) s.W := by
  simp only [border, corner]
  omega

/-- Where a vertical edge splits two flat halves, a pixel has a region that is flat: left of it or right of it. -/
theorem exists_cornerKey_eq_zero {s : State} {k edge y x : Nat} {left right : Nat → Nat} (hH : 0 < s.H)
    (hsplit : ∀ y x c, y < s.H → x < s.W → c < s.C → s.src y x c = if x < edge then left c else right c)
    (hx : x < s.W) : ∃ r : Fin 4, cornerKey s k y x r = 0 := by
  have hcol : ∀ (r : Fin 4) c, c < s.C → ∀ p : Nat × Nat, cornerSample s k y x r c p =
      if border .replicate ((corner k y x r).2 + p.2) s.W < edge then left c else right c := fun r c hc p =>
    hsplit _ _ c (border_lt _ _ hH) (border_lt _ _ (Nat.zero_lt_of_lt hx)) hc
  have hmem : ∀ p ∈ kernelCells k, p.2 < k := fun p hp => Finset.mem_range.1 (Finset.mem_product.1 hp).2
  by_cases hedge : x < edge
  · refine ⟨0, Finset.sum_eq_zero fun c hc => channelKey_eq_zero_of_const (v := left c) fun p hp => ?_⟩
    have hle := (border_corner_col hx y p.2 (hmem p hp)).1
    rw [hcol 0 c (Finset.mem_range.1 hc), if_pos (hle.trans_lt hedge)]
  · refine ⟨1, Finset.sum_eq_zero fun c hc => channelKey_eq_zero_of_const (v := right c) fun p hp => ?_⟩
    have hle := (border_corner_col hx y p.2 (hmem p hp)).2
    rw [hcol 1 c (Finset.mem_range.1 hc), if_neg fun h => hedge (hle.trans_lt h)]

/-- Settles O37: some region has key 0, so the chosen one has, and its mean is each of its samples, the pixel's own
among them. -/
theorem kuwaharaKeepsFlatAndSplitRasters : Obligations.KuwaharaKeepsFlatAndSplitRasters := by
  intro s t k edge left right hm h ht hsplit y x c hy hx hc
  have hk : 0 < k := Nat.zero_lt_of_lt h.validated.two_le_kuwahara
  obtain ⟨r, hbest, hleast⟩ := bestQuadrant_spec s k y x
  obtain ⟨q, hq⟩ := exists_cornerKey_eq_zero (k := k) (y := y) h.validated.height hsplit hx
  have hkey : channelKey s k y x r c = 0 := channelKey_eq_zero_of_cornerKey_le hk (hq ▸ (hleast q).1) hc
  obtain ⟨p, hp, hown⟩ := cornerSample_own hk hy hx r
  calc (destSample (.kuwahara k) s t y x c).toNat
    _ = (kuwaharaSample s k y x c).toNat := congrArg _ (destSample_of_exec hm h ht ⟨hy, hx, hc⟩)
    _ = roundDiv (k * k * s.src y x c) (k * k) s.cfg.kuwRound := by
      rw [kuwaharaSample_toNat hk hbest, cornerSum_of_channelKey_eq_zero hkey hp, hown]
    _ = s.src y x c := roundDiv_mul (Nat.mul_pos hk hk) _ _

end Sys2Proof.Machine
end

section
/-!
PROOFS. What START answers (60_exceptions.md R80 to R85): the InvalidConfiguration conditions are the ways in which a
command with a legal input is not `Validated`, and a rejection shows its code in STATUS.
-/

namespace Sys2Proof.Machine

/-! ## The two error codes (60_exceptions.md R81, R82, R85) -/

/-- Settles O13: the conditions are those of `badInput`. -/
theorem invalidInputExactlyWhen : Obligations.InvalidInputExactlyWhen := validate_eq_invalidInput_iff

/-- The illegal kernel sizes of 41_blur.md R55 and 44_kuwahara.md R77. -/
theorem kernelLegal_eq_true_iff {i : Instr} :
    kernelLegal i = true ↔ (¬ ∃ k, i = .blur k ∧ (k = 0 ∨ k % 2 = 0)) ∧ ¬ ∃ k, i = .kuwahara k ∧ k < 2 := by
  cases i with
  | quant | odither2x2 | odither4x4 | eddither => simp [kernelLegal]
  | blur k =>
    simp only [kernelLegal, beq_iff_eq, Instr.blur.injEq, exists_eq_left', reduceCtorEq, false_and, exists_false,
      not_false_eq_true, and_true]
    omega
  | kuwahara k => simp [kernelLegal, Nat.lt_iff_add_one_le]

theorem usesLevels_eq_true_iff {i : Instr} : usesLevels i = true ↔ i = .quant ∨ i = .eddither := by
  cases i <;> simp [usesLevels]

/-- With a legal input, a command is `Validated` exactly when no InvalidConfiguration condition holds. -/
theorem validated_iff_not_badConfiguration {i : Instr} {s : State} (hin : ¬ badInput s) :
    Validated i s ↔ ¬ badConfiguration i s := by
  simp only [badConfiguration, ← usesLevels_eq_true_iff, not_or]
  constructor
  · intro h
    obtain ⟨hblur, hkuwahara⟩ := kernelLegal_eq_true_iff.1 h.kernel
    refine ⟨hblur, hkuwahara, fun ⟨huses, hbad⟩ => ?_, Nat.not_lt.2 h.dstEnd, fun ⟨a, hsrc, hdst⟩ => ?_⟩
    · have hlegal := h.levels huses
      omega
    · exact absurd (hdst.symm.trans (h.apart a hsrc)) (by decide)
  · rintro ⟨hblur, hkuwahara, hlevels, hend, hshare⟩
    refine .of_not_badInput hin (kernelLegal_eq_true_iff.2 ⟨hblur, hkuwahara⟩) (fun huses => ?_) (Nat.le_of_not_lt hend)
      fun a hsrc => Bool.eq_false_iff.2 fun hdst => hshare ⟨a, hsrc, hdst⟩
    have hlegal : ¬ (s.NL = 0 ∨ 16 < s.NL) := fun hbad => hlevels ⟨huses, hbad⟩
    omega

/-- With a legal input, a command is an InvalidConfiguration exactly on one of its conditions. -/
theorem validate_eq_invalidConfiguration_iff {i : Instr} {s : State} (hin : ¬ badInput s) :
    validate (some i) s = invalidConfiguration ↔ badConfiguration i s := by
  rw [← not_iff_not, ← validated_iff_not_badConfiguration hin]
  refine ⟨fun h => by_contra fun hv => h (validate_eq_invalidConfiguration hin hv), fun hv => ?_⟩
  rw [validate_eq_zero_iff.2 hv]
  decide

/-- Settles O14: a word is no command, or it is one command. -/
theorem invalidConfigurationExactlyWhen : Obligations.InvalidConfigurationExactlyWhen := by
  intro s hin
  cases decode? s.cmd with
  | none => simp [validate_none_eq_invalidConfiguration hin]
  | some i => simp [validate_eq_invalidConfiguration_iff hin]

/-- Settles O15: one lemma per case of the input and the configuration. -/
theorem invalidInputHasPriority : Obligations.InvalidInputHasPriority := fun s =>
  ⟨fun hbad op => (validate_eq_invalidInput_iff op s).2 hbad, validate_none_eq_invalidConfiguration,
    fun _ hin => (validate_eq_invalidConfiguration_iff hin).2,
    fun _ hin hconf => validate_eq_zero_iff.2 ((validated_iff_not_badConfiguration hin).2 hconf)⟩

/-! ## A rejected START (60_exceptions.md R79, R84) -/

/-- A rejection differs from the state before it in STATUS alone, whatever the code. -/
theorem reject_rejectedWith (code : BitVec 4) (s : State) : rejectedWith code s (reject code s) := rfl

/-- STATUS after a rejection of an IDLE block: ERR and the code. -/
theorem readReg_status_reject {s : State} (hp : s.phase = .idle) (code : BitVec 4) :
    (readReg .status (reject code s)).toNat = 4 + 16 * code.toNat := by
  have hbusy : (reject code s).busy = false := by rw [State.busy, reject_phase, hp]; rfl
  rw [readReg, statusWord_toNat, hbusy, reject_errcode, reject_err, reject_done, Bool.toNat_true, Bool.toNat_false]
  omega

/-- Settles O16: START of an IDLE block is `OnStart`, which rejects. -/
theorem rejectedStartChangesOnlyStatus : Obligations.RejectedStartChangesOnlyStatus := by
  refine ⟨fun s i hp hv => ?_, fun s hp hd => ?_⟩
  · exact ⟨_, (exec_idle i hp).trans (congrArg _ (onStart_reject hv)), reject_rejectedWith _ s,
      readReg_status_reject hp _⟩
  · have hstart : startCommand s = .next (reject (validate none s) s) := by
      rw [startCommand_idle hp, hd, onStart_reject (validate_none_ne_zero s)]
    exact ⟨_, hstart, reject_rejectedWith _ s⟩

end Sys2Proof.Machine
end

section
/-!
PROOFS. An accepted START (60_exceptions.md R79, 10_state.md R20): the samples of a raster stand in its order one after
the other, so that the buffer an `EDDITHER` starts with holds at each place the sample loaded for it.
-/

namespace Sys2Proof.Machine

/-! ## The samples of a raster in their order (20_memory.md R23) -/

/-- Blocks of `n` items put one after the other: item `j` of block `i` stands at place `i * n + j`. -/
theorem getElem?_flatMap_range {α : Type} {f : Nat → List α} {n : Nat} (hf : ∀ i, (f i).length = n) {m i j : Nat}
    (hi : i < m) (hj : j < n) : ((List.range m).flatMap f)[i * n + j]? = (f i)[j]? := by
  induction m with
  | zero => omega
  | succ m ih =>
    have hlen : ((List.range m).flatMap f).length = m * n := by simp [List.length_flatMap, hf]
    rw [List.range_succ, List.flatMap_append, List.flatMap_singleton]
    rcases Nat.lt_succ_iff_lt_or_eq.1 hi with hlt | rfl
    · have hplace : i * n + j < m * n := (pixelIndex_lt hlt hj).trans_eq (Nat.mul_comm n m)
      rw [List.getElem?_append_left (hlen ▸ hplace), ih hlt]
    · rw [List.getElem?_append_right (hlen ▸ Nat.le_add_right _ _), hlen, Nat.add_sub_cancel_left]

/-- A sample stands at its place in the order of R23. -/
theorem sampleCoords_getElem? {W H Cn y x c : Nat} (hy : y < H) (hx : x < W) (hc : c < Cn) :
    (sampleCoords W H Cn)[(y * W + x) * Cn + c]? = some (y, x, c) := by
  have hrow : ∀ y : Nat, ((List.range W).flatMap fun x => (List.range Cn).map fun c => (y, x, c)).length = W * Cn := by
    simp [List.length_flatMap]
  have hin : x * Cn + c < W * Cn := (pixelIndex_lt hx hc).trans_eq (Nat.mul_comm Cn W)
  have hplace : (y * W + x) * Cn + c = y * (W * Cn) + (x * Cn + c) := by ring
  rw [hplace, sampleCoords, getElem?_flatMap_range hrow hy hin, getElem?_flatMap_range (n := Cn) (by simp) hx hc]
  simp [hc]

/-! ## The loaded buffer (43_error_diffusion.md R62) -/

/-- `WB[y][x][c]` of a loaded scan is the sample loaded for `(y, x, c)`. -/
theorem wbAt_loadScan {s : State} {y x c : Nat} (hy : y < s.H) (hx : x < s.W) (hc : c < s.C) :
    wbAt s (loadScan s).wb y x c = .ofNat (loadSample s y x c).toNat := by
  rw [wbAt, wbIndex, loadScan, List.getD_eq_getElem?_getD, List.getElem?_map, sampleCoords_getElem? hy hx hc]
  rfl

/-- A backed sample is loaded from its byte. -/
theorem loadSample_of_admits {s : State} {y x c : Nat}
    (h : admits s.cfg (rasterAddr s.W s.srcBase.toNat s.C y x c) = true) : (loadSample s y x c).toNat = s.src y x c := by
  rw [loadSample, if_pos h]
  rfl

/-- An unbacked sample is a draw of its own (log entry 25). -/
theorem loadSample_of_not_admits {s : State} {y x c : Nat}
    (h : admits s.cfg (rasterAddr s.W s.srcBase.toNat s.C y x c) = false) :
    loadSample s y x c = Config.freeByte (s.draws + ((y * s.W + x) * s.C + c)) := by
  rw [loadSample, h, if_neg Bool.false_ne_true]
  rfl

/-! ## The accepted state -/

theorem startScan_of_ne_eddither {i : Instr} (s : State) (h : i ≠ .eddither) : startScan i s = none := by
  cases i with
  | eddither => exact absurd rfl h
  | _ => rfl

theorem startDraws_of_ne_eddither {i : Instr} (s : State) (h : i ≠ .eddither) : startDraws i s = 0 := by
  cases i with
  | eddither => exact absurd rfl h
  | _ => rfl

/-- An `EDDITHER` on a source that is not backed whole draws one byte for each sample. -/
theorem startDraws_eddither_unbacked {s : State} (h : (srcRegion s).admitted s.cfg = false) :
    startDraws .eddither s = s.W * s.H * s.C := by
  rw [startDraws, h, if_neg Bool.false_ne_true]
  rfl

/-- STATUS of an accepted START is BUSY alone. -/
theorem readReg_status_accept (i : Instr) (s : State) : readReg .status (accept i s) = 1 := by
  refine BitVec.eq_of_toNat_eq ?_
  rw [readReg, statusWord_toNat]
  rfl

/-- Settles O17: START accepts, and the accepted state's buffer and draws are those of the command. -/
theorem acceptedStartBeginsTheRun : Obligations.AcceptedStartBeginsTheRun := by
  intro s i hp hv
  refine ⟨accept i s, exec_accept hp (validate_eq_zero_iff.1 hv), rfl, readReg_status_accept i s,
    startScan_of_ne_eddither s, fun h => ?_, ?_, ?_⟩
  · rw [accept_draws, h.elim (startDraws_of_ne_eddither s) (startDraws_admitted i), Nat.add_zero]
  · rintro rfl hunbacked
    rw [accept_draws, startDraws_eddither_unbacked hunbacked]
  · rintro rfl
    refine ⟨loadScan s, rfl, rfl, rfl, by simp [loadScan, sampleCoords_length], fun y x c hy hx hc => ?_⟩
    rw [wbAt_loadScan hy hx hc]
    refine ⟨fun ha => ?_, fun ha => ?_⟩
    · rw [loadSample_of_admits ha, WbNum.ofNat]
    · rw [loadSample_of_not_admits ha, WbNum.ofNat]

end Sys2Proof.Machine
end

section
/-!
PROOFS. A step and the command in CMD (60_exceptions.md R79, R80, R86; 20_memory.md R37): the moves that run it, and that
on backed bytes the engine's move ends its run.
-/

namespace Sys2Proof.Machine

/-! ## The moves that run the command -/

/-- When nobody is named, a ready engine completes its command. -/
theorem step_engine_ready {i : Instr} {s : State} (hag : s.agenda = []) (hp : s.phase = .running)
    (hd : decode? s.cmd = some i) (ha : regionsAdmitted i s = true) : step s = exec i s := by
  have hturn : defaultTurn s = .engine := by simp [defaultTurn, engineReady, hp, hd, ha]
  rw [step_nil hag, hturn]
  show engineMove s = _
  simp only [engineMove, hp, hd]

/-- A START write while IDLE runs the command in CMD (10_state.md R8). -/
theorem runStmt_ctrl_eq_exec {i : Instr} {s : State} {v : Word} (hp : s.phase = .idle) (hd : decode? s.cmd = some i)
    (hv : v.getLsbD 0 = true) : runStmt (.wr .ctrl v) s = exec i s := by
  show busWrite s.cfg.regBase 4 v s = _
  rw [busWrite_ctrl, writeSlot_ctrl v hp, if_pos hv, hd, exec_idle i hp]

/-- Settles O31: by whose move it is. -/
theorem stepRunsTheDecodedCommand : Obligations.StepRunsTheDecodedCommand := fun _ _ hd =>
  ⟨fun _ hp hag => step_engine hag hp hd, fun hp ha hag => step_engine_ready hag hp hd ha,
    fun _ _ hp hag hst hv => (step_host hag hst).trans (runStmt_ctrl_eq_exec hp hd hv)⟩

/-! ## The end of a run -/

/-- A run is over: IDLE and DONE, with no working buffer and no error. -/
structure RunEnded (t : State) : Prop where
  phase  : t.phase = .idle
  scan   : t.scan = none
  done   : t.done = true
  err    : t.err = false
  status : readReg .status t = 2

/-- The end of a run without an error shows DONE alone. -/
theorem endRun_runEnded {s : State} (herr : s.err = false) (hcode : s.errcode = 0) : RunEnded (endRun s) := by
  refine ⟨rfl, rfl, rfl, herr, BitVec.eq_of_toNat_eq ?_⟩
  rw [readReg, statusWord_toNat, endRun_errcode, hcode, endRun_err, herr]
  rfl

/-- On backed bytes the completion of a running command ends its run, raced or not (60_exceptions.md R86). -/
theorem exec_runEnded {i : Instr} {s : State} (hinv : s.Inv) (hp : s.phase = .running)
    (ha : regionsAdmitted i s = true) : ∃ t, exec i s = .next t ∧ RunEnded t := by
  obtain ⟨-, herr, hcode⟩ := hinv.status_of_running hp
  refine ⟨_, exec_running i hp, ?_⟩
  rcases complete_cases i (resultSample i s) s with ⟨hunbacked, -⟩ | ⟨-, -, he⟩ | ⟨-, -, he⟩
  · exact absurd (ha.symm.trans hunbacked) (by decide)
  · rw [he]; exact endRun_runEnded herr hcode
  · rw [he]; exact endRun_runEnded herr hcode

/-- An engine that moves on backed bytes runs its command, in the state with the agenda popped. -/
theorem step_eq_exec_of_ready {i : Instr} {s : State} (hp : s.phase = .running) (hd : decode? s.cmd = some i)
    (ha : regionsAdmitted i s = true) (hwho : s.agenda = [] ∨ s.agenda.head? = some .engine) :
    ∃ rest, step s = exec i { s with agenda := rest } := by
  rcases hwho with hag | hhead
  · exact ⟨s.agenda, step_engine_ready hag hp hd ha⟩
  · obtain ⟨rest, hag⟩ := List.head?_eq_some_iff.1 hhead
    exact ⟨rest, step_engine hag hp hd⟩

/-- Settles O30: the engine runs its command, whose completion on backed bytes ends the run. -/
theorem readyEngineCompletesItsRun : Obligations.ReadyEngineCompletesItsRun := by
  intro s i hinv hp hd ha hwho
  obtain ⟨rest, hstep⟩ := step_eq_exec_of_ready hp hd ha hwho
  have hpop : { s with agenda := rest }.Inv := ⟨hinv.status, hinv.mem, hinv.run, hinv.scan⟩
  obtain ⟨t, ht, hended⟩ := exec_runEnded hpop hp ha
  exact ⟨t, hstep.trans ht, hended.phase, hended.scan, hended.done, hended.err, hended.status⟩

end Sys2Proof.Machine
end

section
/-!
PROOFS. Reset (70_reset_and_hazards.md R96, R97): the table it puts, in which the invariant holds and no command can
start; the destination it frees of a RUNNING command; and what the moves do with DONE and with the count of draws.
-/

namespace Sys2Proof.Machine

/-! ## The reset table (70_reset_and_hazards.md R96) -/

@[simp] theorem resetBlock_phase (s : State) : (resetBlock s).phase = .idle := rfl
@[simp] theorem resetBlock_scan (s : State) : (resetBlock s).scan = none := rfl
@[simp] theorem resetBlock_raced (s : State) : (resetBlock s).raced = false := rfl
@[simp] theorem resetBlock_done (s : State) : (resetBlock s).done = false := rfl
@[simp] theorem resetBlock_host (s : State) : (resetBlock s).host = s.host := rfl
@[simp] theorem resetBlock_agenda (s : State) : (resetBlock s).agenda = s.agenda := rfl
@[simp] theorem resetBlock_mem (s : State) : (resetBlock s).mem = (abandonRun s).mem := rfl
@[simp] theorem resetBlock_draws (s : State) : (resetBlock s).draws = (abandonRun s).draws := rfl

/-- A reset block's registers read what they read at `State.reset`, whatever state it was reset in. -/
theorem readReg_resetBlock (r : Reg) (s : State) : readReg r (resetBlock s) = readReg r State.reset := by
  cases r <;> rfl

/-- The level table of R96: six levels, then zeros. -/
theorem readReg_level_reset (i : Fin 16) :
    readReg (.level i) State.reset = ([0, 51, 102, 153, 204, 255].getD i.val 0 : Word) := by
  revert i
  decide

theorem readSlot_reserved {off : Nat} (s : State) (h : regAt off = none) : readSlot off s = 0 := by
  rw [readSlot, h]

/-- After a reset `W = 0`, so that `Validate` answers InvalidInput for every command. -/
theorem validate_resetBlock (op : Option Instr) (s : State) : validate op (resetBlock s) = invalidInput :=
  (validate_eq_invalidInput_iff op _).2 (.inl rfl)

theorem startCommand_resetBlock (s : State) :
    startCommand (resetBlock s) = .next (reject invalidInput (resetBlock s)) := by
  have hbad := validate_resetBlock (decode? (resetBlock s).cmd) s
  rw [startCommand_idle (resetBlock_phase s), onStart_reject (by rw [hbad]; decide), hbad]

/-! ## The command a reset abandons (70_reset_and_hazards.md R97) -/

theorem abandonRun_idle {s : State} (hp : s.phase = .idle) : abandonRun s = s := by
  rw [abandonRun, hp]

theorem abandonRun_running {i : Instr} {s : State} (hp : s.phase = .running) (hd : decode? s.cmd = some i) :
    abandonRun s = freeDest i s := by
  rw [abandonRun, hp, hd]

/-- Each backed byte of a freed destination reads a draw of its own (log entry 4). -/
theorem freeDest_read {i : Instr} {s : State} (hm : Memory.wf s.mem = true) {y x c : Nat} (h : inDest i s y x c)
    (ha : admits s.cfg (dstAddr i s y x c) = true) :
    (freeDest i s).mem.read (dstAddr i s y x c) = freeSample s (destChannels i s) y x c := by
  obtain ⟨hy, hx, hc⟩ := h
  exact storeRaster_read s.cfg _ hm hy hx hc ha

/-- Every byte outside a freed destination reads as before. -/
theorem freeDest_read_other {i : Instr} {s : State} (hm : Memory.wf s.mem = true) {a : Nat}
    (ha : (dstRegion i s).has a = false) : (freeDest i s).mem.read a = s.mem.read a :=
  storeDest_read_other (freeSample s (destChannels i s)) hm ha

/-! ## A run ends by a reset or with DONE -/

/-- A completion that leaves the block IDLE has set DONE: the stuck one leaves it RUNNING. -/
theorem complete_done_of_idle {i : Instr} (f : Nat → Nat → Nat → Byte) {s : State} (hp : s.phase = .running)
    (h : (complete i f s).phase = .idle) : (complete i f s).done = true := by
  rcases complete_cases i f s with ⟨-, he⟩ | ⟨-, -, he⟩ | ⟨-, -, he⟩
  · rw [he, hp] at h
    exact absurd h (by decide)
  · rw [he, endRun_done]
  · rw [he, endRun_done]

theorem engineMove_done_of_idle {s t : State} (hp : s.phase = .running) (h : engineMove s = .next t)
    (hidle : t.phase = .idle) : t.done = true := by
  rcases engineMove_cases h with rfl | ⟨-, i, -, rfl⟩
  · exact absurd (hp.symm.trans hidle) (by decide)
  · exact complete_done_of_idle _ hp hidle

@[simp] theorem scanMove_phase (s : State) : (scanMove s).phase = s.phase := by
  rcases scanMove_cases s with he | ⟨-, e, -, -, he⟩
  · rw [he]
  · rw [he, visitPixel_phase]

theorem takeTurn_done_of_idle {turn : Turn} {s t : State} (hp : s.phase = .running) (hturn : turn ≠ .reset)
    (h : takeTurn turn s = .next t) (hidle : t.phase = .idle) : t.done = true := by
  cases turn with
  | host => exact absurd ((hostMove_keeps_run hp h).1.symm.trans hidle) (by decide)
  | engine => exact engineMove_done_of_idle hp h hidle
  | scan =>
    cases h
    rw [scanMove_phase, hp] at hidle
    exact absurd hidle (by decide)
  | reset => exact absurd rfl hturn

/-- A step on an agenda that does not begin with a reset is another agent's move: no default turn is a reset. -/
theorem step_takes_turn_ne_reset {s : State} (h : s.agenda.head? ≠ some .reset) :
    ∃ turn rest, turn ≠ .reset ∧ step s = takeTurn turn { s with agenda := rest } := by
  obtain ⟨turn, rest, hstep, hwho⟩ := step_takes_turn s
  refine ⟨turn, rest, ?_, hstep⟩
  rintro rfl
  rcases hwho with hag | ⟨-, -, hdef⟩
  · exact h (by rw [hag]; rfl)
  · exact defaultTurn_ne_reset s hdef.symm

theorem step_done_of_idle {s t : State} (hp : s.phase = .running) (h : step s = .next t)
    (hreset : s.agenda.head? ≠ some .reset) (hidle : t.phase = .idle) : t.done = true := by
  obtain ⟨turn, rest, hturn, hstep⟩ := step_takes_turn_ne_reset hreset
  exact takeTurn_done_of_idle (s := { s with agenda := rest }) hp hturn (hstep.symm.trans h) hidle

/-! ## No move takes a draw back (log entry 4) -/

@[simp] theorem writeReg_draws (r : Reg) (v : Word) (s : State) : (writeReg r v s).draws = s.draws := by
  cases r <;> rfl

theorem draws_le_onStart (op : Option Instr) (s : State) : s.draws ≤ (onStart op s).draws := by
  rcases onStart_cases op s with ⟨-, he⟩ | ⟨i, -, -, he⟩
  · rw [he, reject_draws]
  · rw [he, accept_draws]; exact Nat.le_add_right ..

theorem draws_le_freeDest (i : Instr) (s : State) : s.draws ≤ (freeDest i s).draws := Nat.le_add_right ..

theorem draws_le_complete (i : Instr) (f : Nat → Nat → Nat → Byte) (s : State) : s.draws ≤ (complete i f s).draws := by
  rcases complete_cases i f s with ⟨-, he⟩ | ⟨-, -, he⟩ | ⟨-, -, he⟩
  · rw [he]
  · rw [he, endRun_draws]; exact draws_le_freeDest i s
  · rw [he, endRun_draws, storeDest_draws]

theorem draws_le_abandonRun (s : State) : s.draws ≤ (abandonRun s).draws := by
  rcases abandonRun_cases s with he | ⟨-, i, -, he⟩
  · rw [he]
  · rw [he]; exact draws_le_freeDest i s

@[simp] theorem scanMove_draws (s : State) : (scanMove s).draws = s.draws := by
  rcases scanMove_cases s with he | ⟨-, e, -, -, he⟩
  · rw [he]
  · rw [he, visitPixel_draws]

theorem runStmt_draws_le {st : HostStmt} {s t : State} (h : runStmt st s = .next t) : s.draws ≤ t.draws := by
  rcases runStmt_cases h with ⟨_, rfl⟩ | ⟨_, rfl⟩ | ⟨-, r, v, rfl⟩ | ⟨-, rfl⟩ | ⟨_, _, -, -, rfl⟩
  · exact le_rfl
  · exact Nat.le_succ _
  · rw [writeReg_draws]
  · exact draws_le_onStart _ s
  · exact le_rfl

theorem hostMove_draws_le {s t : State} (h : hostMove s = .next t) : s.draws ≤ t.draws := by
  rcases hostMove_cases h with rfl | ⟨st, -, hst⟩
  · exact le_rfl
  · exact (gotoStmt_draws _ s).symm.trans_le (runStmt_draws_le hst)

theorem engineMove_draws_le {s t : State} (h : engineMove s = .next t) : s.draws ≤ t.draws := by
  rcases engineMove_cases h with rfl | ⟨-, i, -, rfl⟩
  · exact le_rfl
  · exact draws_le_complete i _ s

theorem takeTurn_draws_le {turn : Turn} {s t : State} (h : takeTurn turn s = .next t) : s.draws ≤ t.draws := by
  cases turn with
  | host => exact hostMove_draws_le h
  | engine => exact engineMove_draws_le h
  | scan => cases h; rw [scanMove_draws]
  | reset => cases h; exact draws_le_abandonRun s

theorem step_draws_le {s t : State} (h : step s = .next t) : s.draws ≤ t.draws := by
  obtain ⟨turn, rest, hstep, -⟩ := step_takes_turn s
  exact takeTurn_draws_le (s := { s with agenda := rest }) (hstep.symm.trans h)

/-! ## The obligations -/

/-- Settles O53: the abandoned destination is freed, no other move ends a run without DONE, no move takes a draw back. -/
theorem resetAbandonsARunningCommand : Obligations.ResetAbandonsARunningCommand := by
  refine ⟨fun s i hp hd hm => ?_, fun _ _ hp h hreset hidle => step_done_of_idle hp h hreset hidle,
    fun _ _ h => step_draws_le h⟩
  have hfree := abandonRun_running hp hd
  have hout : ∀ a, (dstRegion i s).has a = false → (resetBlock s).mem.read a = s.mem.read a := fun a ha => by
    rw [resetBlock_mem, hfree, freeDest_read_other hm ha]
  refine ⟨resetBlock_phase s, resetBlock_done s, fun y x c hin ha => ?_, ?_, hout, fun hv a hsrc => ?_⟩
  · rw [destSample, resetBlock_mem, hfree, freeDest_read hm hin ha, freeSample]
  · rw [resetBlock_draws, hfree, freeDest_draws, dstRegion]
  · exact hout a ((validate_eq_zero_iff.1 hv).apart a hsrc)

/-- The reset table meets the invariant on any canonical, backed raster memory. -/
theorem resetWith_inv (cfg : Config.Params) {mem : Memory} (hwf : Memory.wf mem = true)
    (hbacked : ∀ q ∈ mem, q.1 < 2 ^ 32 ∧ admits cfg q.1 = true) : (State.resetWith cfg mem).Inv := by
  have hstatus : (State.resetWith cfg mem).statusOk :=
    ⟨fun _ => rfl, fun h => absurd h Bool.false_ne_true, fun _ => rfl, fun _ => ⟨rfl, rfl⟩⟩
  exact (State.inv_iff_of_idle rfl).2 ⟨hstatus, ⟨hwf, hbacked⟩, rfl, rfl⟩

/-- Settles O47: no byte is listed in raster memory at `State.reset`. -/
theorem resetMeetsTheInvariant : Obligations.ResetMeetsTheInvariant :=
  ⟨fun cfg _ hwf hbacked => resetWith_inv cfg hwf hbacked, resetWith_inv _ rfl fun _ hq => absurd hq List.not_mem_nil⟩

/-- Settles O52: the registers read as at `State.reset`, whose values are those of the table. -/
theorem resetPutsTheTableValues : Obligations.ResetPutsTheTableValues := by
  intro s
  have hreg := fun r => readReg_resetBlock r s
  refine ⟨hreg .ctrl, ?_, hreg .cmd, hreg .width, hreg .height, hreg .channels, hreg .srcBase, hreg .dstBase,
    hreg .levelCount, fun i => (hreg _).trans (readReg_level_reset i), fun _ => readSlot_reserved _,
    resetBlock_phase s, resetBlock_scan s, fun hp => ?_, ?_⟩
  · exact (hreg .status).trans (by decide)
  · rw [resetBlock_mem, abandonRun_idle hp]
  · exact ⟨_, startCommand_resetBlock s, reject_rejectedWith _ _⟩

/-- Settles O59: the turn answers `resetBlock` of the state with the agenda popped. -/
theorem resetTurnResetsTheBlock : Obligations.ResetTurnResetsTheBlock := by
  intro s rest hag
  refine ⟨_, step_cons hag, rfl, rfl, rfl, rfl, rfl, rfl, rfl, ?_, fun hp => ?_, fun i hp hd => ?_⟩
  · exact (readReg_resetBlock .status _).trans (by decide)
  · have hidle := abandonRun_idle (s := { s with agenda := rest }) hp
    rw [resetBlock_mem, resetBlock_draws, hidle]
    exact ⟨rfl, rfl⟩
  · rw [resetBlock_draws, abandonRun_running (s := { s with agenda := rest }) hp hd]
    rfl

end Sys2Proof.Machine
end

section
/-!
PROOFS. The words of commands and of refusals written out bit by bit (30_encoding.md R38 to R45): one rule per reason of
a refusal, each about every word refused for it.
-/

namespace Sys2Proof

/-- A 1 in a reserved bit is reported before any other reason (R43). -/
theorem decode_eq_reservedBits {w : Word} (hres : reservedZero w = false) : decode w = .error .reservedBits := by
  simp [decode, hres]

/-- An opcode of no operation is the reason whatever VAR and K hold (R40). -/
theorem decode_eq_reservedOp {w : Word} (hres : reservedZero w = true) (hop : opField w = 0 ∨ 6 ≤ opField w) :
    decode w = .error .reservedOp := by
  simp only [decode, hres, Bool.not_true, Bool.false_eq_true, if_false]
  split
  case h_6 => rfl
  all_goals omega

/-- ODITHER has the variants 0 and 1 only (R41). -/
theorem decode_eq_reservedVariant {w : Word} (hres : reservedZero w = true) (hop : opField w = 3)
    (hk : kField w = 0) (hvar : 2 ≤ varField w) : decode w = .error .reservedVariant := by
  have hzero : varField w ≠ 0 := by omega
  have hone : varField w ≠ 1 := by omega
  simp [decode, hres, hop, hk, hzero, hone]

/-- VAR is ODITHER's alone, K is that of BLUR and KUWAHARA (R44). -/
theorem decode_eq_unusedField {w : Word} (hres : reservedZero w = true) (hlow : 1 ≤ opField w) (hhigh : opField w ≤ 5)
    (hfield : opField w ≠ 3 ∧ varField w ≠ 0 ∨ opField w ≠ 2 ∧ opField w ≠ 5 ∧ kField w ≠ 0) :
    decode w = .error .unusedField := by
  simp only [decode, hres, Bool.not_true, Bool.false_eq_true, if_false]
  split
  case h_1 | h_2 | h_4 | h_5 => exact if_neg (by omega)
  case h_3 => exact if_pos (by omega)
  case h_6 h1 h2 h3 h4 h5 =>
    simp only [imp_false] at h1 h2 h3 h4 h5
    omega

/-- The word of a command, however it is written, decodes to the command (R45). -/
theorem decode_of_encode_eq {w : Word} {i : Instr} (hwf : i.wf = true) (hw : encode i = w) : decode w = .ok i :=
  hw ▸ decodeOfEncodeIsTheCommand i hwf

/-- Settles O4: the first six words are those of their commands, each other word has the reason of its refusal. -/
theorem sampleWordsDecode : Obligations.SampleWordsDecode := by
  refine ⟨decode_of_encode_eq rfl rfl, decode_of_encode_eq rfl rfl, decode_of_encode_eq rfl rfl,
    decode_of_encode_eq rfl rfl, decode_of_encode_eq rfl rfl, decode_of_encode_eq rfl rfl, ?_, ?_, ?_, ?_⟩
  · exact decode_eq_reservedVariant rfl rfl rfl (by decide)
  · exact decode_eq_reservedBits rfl
  · exact decode_eq_unusedField rfl (by decide) (by decide) (.inl (by decide))
  · exact decode_eq_reservedOp rfl (.inl rfl)

end Sys2Proof
end
